-- ==== Sys2Proof/Word.lean ====
section
/-! DEFINITION. Bytes, words and cipher blocks (spec/00_scope.md R5, R9, R10). -/

namespace Sys2Proof

/-- A byte: 8 bits, unsigned (R9). -/
abbrev Byte := BitVec 8

/-- A register word: 32 bits, bit 0 the least significant (R9). -/
abbrev Word := BitVec 32

/-- One cipher block: `BLOCK_BYTES = 8` bytes, byte 0 first (R5, R10). -/
abbrev Block := Vector Byte 8

/-- `zeros(n)`: the string of `n` zero bytes (R10). -/
def zeros (n : Nat) : List Byte := List.replicate n 0

/-- `zeros(8)`, as a block (R10). -/
def zeroBlock : Block := Vector.replicate 8 0

end Sys2Proof
end

