-- ==== Sys2Proof/Syntax.lean ====
section
/-! DEFINITION. The commands of the block: one constructor per row of spec/opcode_table.json
(spec/30_encoding.md R68). -/

namespace Sys2Proof

/-- A command. `ctx` is the slot number of bits 11:8; for the three commands that do not use it (R69)
the same four bits are kept as `ign`, so that no bit of a word is lost, and have no effect. Every other
operand is latched from the operand registers (R67). -/
inductive Instr
  /-- OFB_INIT on slot `ctx` (R81). -/
  | ofbInit (ctx : Nat)
  /-- OFB_CORE on slot `ctx` (R83). -/
  | ofbCore (ctx : Nat)
  /-- OFB_FINISH on slot `ctx` (R89). -/
  | ofbFinish (ctx : Nat)
  /-- OFB_ONESHOT on the scratch context (R91); bits 11:8 ignored. -/
  | ofbOneshot (ign : Nat)
  /-- PKCS1_ENCODE (R98); bits 11:8 ignored. -/
  | pkcs1Encode (ign : Nat)
  /-- PKCS1_VERIFY (R99); bits 11:8 ignored. -/
  | pkcs1Verify (ign : Nat)
  deriving DecidableEq, Repr

/-- The number in bits 11:8 of the command word (R66). -/
def Instr.ctx : Instr → Nat
  | .ofbInit c => c
  | .ofbCore c => c
  | .ofbFinish c => c
  | .ofbOneshot x => x
  | .pkcs1Encode x => x
  | .pkcs1Verify x => x

end Sys2Proof
end

