-- ==== Sys2Proof/WellFormed.lean ====
section
/-! DEFINITION. Which terms of `Instr` are commands: those whose number fits the four bits 11:8
(spec/30_encoding.md R66, R67). A slot number that names no slot (`CTX >= NUM_CTX`) is well formed: R69
gives it a result. -/

namespace Sys2Proof

/-- The number of bits 11:8 is a 4-bit unsigned number (R67). -/
abbrev Instr.WellFormed (i : Instr) : Prop := i.ctx < 16

end Sys2Proof
end

