-- ==== Sys2Proof/Decode.lean ====
section
/-! DEFINITION. The command word: its fields, the decoder and the encoder (spec/30_encoding.md R66 to R75),
and the byte lanes of a word (spec/20_memory.md R50). -/

namespace Sys2Proof

/-- Why a word is no command (R73); every such word raises CmdFault(ILLEGAL) in the machine. -/
inductive IllegalWord
  /-- `w[31:12] != 0`. -/
  | reservedBits
  /-- `w[7:0]` is 0x00, 0x05 to 0x0F or 0x12 to 0xFF. -/
  | undefinedOpcode
  /-- Fewer than four bytes: no 32-bit word at all (R74). -/
  | truncated
  deriving DecidableEq, Repr

/-- What the decoder answers. -/
inductive Decoded
  | command (i : Instr)
  | illegal (why : IllegalWord)
  deriving DecidableEq, Repr

/-- OPC, bits 7:0 (R66). -/
def opcField (w : Word) : BitVec 8 := w.extractLsb' 0 8
/-- CTX, bits 11:8 (R66). -/
def ctxField (w : Word) : BitVec 4 := w.extractLsb' 8 4
/-- RSV, bits 31:12 (R66). -/
def rsvField (w : Word) : BitVec 20 := w.extractLsb' 12 20

/-- The decoder of R72: total on every 32-bit word, reserved bits first. -/
def decode (w : Word) : Decoded :=
  if rsvField w ≠ 0 then .illegal .reservedBits
  else if opcField w = 0x01 then .command (.ofbInit (ctxField w).toNat)
  else if opcField w = 0x02 then .command (.ofbCore (ctxField w).toNat)
  else if opcField w = 0x03 then .command (.ofbFinish (ctxField w).toNat)
  else if opcField w = 0x04 then .command (.ofbOneshot (ctxField w).toNat)
  else if opcField w = 0x10 then .command (.pkcs1Encode (ctxField w).toNat)
  else if opcField w = 0x11 then .command (.pkcs1Verify (ctxField w).toNat)
  else .illegal .undefinedOpcode

/-- The word whose byte lanes are `b0` (bits 7:0, offset 0) to `b3` (bits 31:24, offset 3) (R50). -/
def wordOfLanes (b0 b1 b2 b3 : Byte) : Word :=
  b0.setWidth 32 ||| (b1.setWidth 32 <<< 8) ||| (b2.setWidth 32 <<< 16) ||| (b3.setWidth 32 <<< 24)

/-- The four byte lanes of a word, offset 0 first (R50). -/
def lanesOfWord (w : Word) : List Byte :=
  [w.extractLsb' 0 8, w.extractLsb' 8 8, w.extractLsb' 16 8, w.extractLsb' 24 8]

/-- The decoder on bytes as the host bus carries them; every command is exactly four bytes (R74). -/
def decodeBytes : List Byte → Decoded
  | b0 :: b1 :: b2 :: b3 :: _ => decode (wordOfLanes b0 b1 b2 b3)
  | _ => .illegal .truncated

/-- The opcode of each command (R68). -/
def Instr.opcode : Instr → BitVec 8
  | .ofbInit _ => 0x01
  | .ofbCore _ => 0x02
  | .ofbFinish _ => 0x03
  | .ofbOneshot _ => 0x04
  | .pkcs1Encode _ => 0x10
  | .pkcs1Verify _ => 0x11

/-- The command word of a well-formed command: OPC in bits 7:0, the number in bits 11:8, RSV zero (R66, R75). -/
def encode (i : Instr) : Word := BitVec.ofNat 32 (i.opcode.toNat + 2 ^ 8 * i.ctx)

/-- The instruction the decoder reads from a row of the opcode table (for the host). -/
def decodeTableWord (nbits w : Nat) : Option Instr :=
  match decodeBytes (lanesOfWord (BitVec.ofNat 32 (w % 2 ^ nbits))) with
  | .command i => some i
  | .illegal _ => none

end Sys2Proof
end

