-- ==== Sys2Proof/Config.lean ====
section
/-! DEFINITION. The open parameters of the block (spec/00_scope.md R7; spec/92_eei_decisions.md, last
paragraph) and the model's one source of free values. `Params` carries the constraints of R7 as proofs;
`Config.chip` is the configuration of the modelled block, built from opaque constants, so that nothing
proved about the machine can depend on a value of it. Tests use a `Params` of their own. -/

namespace Sys2Proof

/-- The named parameters of R7 and R114 (`IRQ_LINE`), with R7's constraints. `MEM_OK` (R45), which the spec
leaves to the platform, is held beside data memory as `State.ram`.
`free` is the model's: the stream of values the spec leaves unspecified (spec/93_implementation_defined.md
"any value"), read at the place `State.free` and never looked into by a statement. -/
structure Params where
  /-- `BASE`: byte address of the register window, a multiple of 64. -/
  base : Nat
  /-- `NUM_CTX`: number of OFB context slots, 1 to 15. -/
  numCtx : Nat
  /-- `KEY_BYTES`: bytes of one expanded key, 1 to 2^16 - 1. -/
  keyBytes : Nat
  /-- `E(keysched, blk)`: the block-cipher encrypt function, total, nothing else assumed (R13). -/
  E : List Byte → Block → Block
  /-- `HASH_LEN`: digest length in bytes, 1 to 255. -/
  hashLen : Nat
  /-- `DI_PREFIX`: the fixed DigestInfo prefix bytes. -/
  diPrefix : List Byte
  /-- `IRQ_LINE`: the host interrupt input that the IRQ output is wired to (R114). -/
  irqLine : Nat
  /-- The free values: the `n`-th value that the spec leaves open in a run. -/
  free : Nat → Nat
  base_aligned : base % 64 = 0
  numCtx_pos : 1 ≤ numCtx
  numCtx_le : numCtx ≤ 15
  keyBytes_pos : 1 ≤ keyBytes
  keyBytes_lt : keyBytes < 2 ^ 16
  hashLen_pos : 1 ≤ hashLen
  diLen_le : diPrefix.length + hashLen ≤ 255

/-- `DI_LEN = DI_PREFIX_LEN + HASH_LEN` (R7). -/
def Params.diLen (P : Params) : Nat := P.diPrefix.length + P.hashLen

/-! ### The modelled block's own configuration: opaque, one constant per parameter -/

/-- `BASE / 64`, open (D1). -/
opaque Config.baseIndex : Nat
/-- `NUM_CTX - 1`, open (D3). -/
opaque Config.numCtxLessOne : Fin 15
/-- `KEY_BYTES - 1`, open (D4). -/
opaque Config.keyBytesLessOne : Fin 65535
/-- `E`, open (D4, R13). -/
opaque Config.cipher : List Byte → Block → Block
/-- `HASH_LEN - 1`, open (D20). -/
opaque Config.hashLenLessOne : Fin 255
/-- Bytes of which `DI_PREFIX` is the start that R7's length limit leaves, open (D20). -/
opaque Config.diPrefixBytes : List Byte
/-- The backed regions of the data address space (first address, length), open: `MEM_OK(a)` holds of the
addresses in them (R45, D14). -/
opaque Config.memRegions : List (Nat × Nat)
/-- The regions of the data address space whose addresses have read side effects, open: the platform's (R55). -/
opaque Config.volatileRegions : List (Nat × Nat)
/-- `IRQ_LINE`, open (R114, D24). -/
opaque Config.irqLine : Nat
/-- The stream of free values: what the spec calls unspecified or "any value" (R55, I3, I5, I6, I10). -/
opaque Config.freeValue : Nat → Nat

/-- The configuration of the modelled block. Every value R7 admits is a value of these constants. -/
def Config.chip : Params where
  base := 64 * Config.baseIndex
  numCtx := Config.numCtxLessOne.val + 1
  keyBytes := Config.keyBytesLessOne.val + 1
  E := Config.cipher
  hashLen := Config.hashLenLessOne.val + 1
  diPrefix := Config.diPrefixBytes.take (254 - Config.hashLenLessOne.val)
  irqLine := Config.irqLine
  free := Config.freeValue
  base_aligned := by omega
  numCtx_pos := by omega
  numCtx_le := by omega
  keyBytes_pos := by omega
  keyBytes_lt := by omega
  hashLen_pos := by omega
  diLen_le := by
    have := Config.hashLenLessOne.isLt
    have := List.length_take_le (254 - Config.hashLenLessOne.val) Config.diPrefixBytes
    omega

end Sys2Proof
end

