-- ==== Sys2Proof/Machine/State.lean ====
section
/-! DEFINITION. The state of the block, of the data memory it works on, and of the outside world that acts
on it, as plain data (spec/10_state.md R19 to R44; spec/20_memory.md R45; spec/00_scope.md R18), and its
value after reset (R44, R126). -/

namespace Sys2Proof.Machine

/-- The state of a context slot (R34). The encoding 3 is never held: there is no fourth constructor. -/
inductive SlotState
  | uninit
  | initialized
  | finished
  deriving DecidableEq, Repr

/-- The recorded direction flag (R33, R71): Encrypt is bit 0, Decrypt is bit 1. -/
inductive Direction
  | encrypt
  | decrypt
  deriving DecidableEq, Repr

/-- One OFB context slot (R33). `key` holds `KEY_BYTES` bytes. -/
structure Slot where
  state : SlotState
  mode : Direction
  key : List Byte
  fb : Block
  deriving DecidableEq, Repr

/-- The scratch context of OFB_ONESHOT (R39). -/
structure Scratch where
  key : List Byte
  fb : Block
  deriving DecidableEq, Repr

/-- The seven operand registers (R37); the same shape holds the latched copies `L_*` (R38). -/
structure OperandRegs where
  dst : Word
  src : Word
  len : Word
  key : Word
  iv : Word
  mode : Word
  dig : Word
  deriving DecidableEq, Repr

/-- `STATUS.CODE` (R70). Code 6 is reserved and never produced: there is no constructor for it. -/
inductive StatusCode
  | ok
  | invalidInput
  | invalidOutput
  | invalidArg
  | invalidMode
  | verificationFailed
  | cmdFault
  deriving DecidableEq, Repr

/-- The causes of FAULTS (R29). -/
inductive FaultCause
  | seq
  | illegal
  | cmdBusy
  | busError
  deriving DecidableEq, Repr

/-- Where the engine stands in the command in progress (R41): what it does next. -/
inductive Progress
  /-- No command in progress. -/
  | idle
  /-- A command word has been accepted (R32); it is not decoded yet. -/
  | accepted
  /-- OFB_INIT on slot `c`: checks passed, key and IV to be read. -/
  | initReads (c : Nat)
  /-- OFB_CORE on slot `c`: data block `j` is next. -/
  | core (c : Nat) (j : Nat)
  /-- OFB_ONESHOT: checks passed, key and IV to be read. -/
  | oneshotReads
  /-- OFB_ONESHOT: data block `j` is next. -/
  | oneshot (j : Nat)
  /-- PKCS1_ENCODE: checks passed, digest to be read. -/
  | encodeDigest
  /-- PKCS1_ENCODE: EM byte `i` is next. -/
  | encode (i : Nat)
  /-- PKCS1_VERIFY: checks passed, digest to be read. -/
  | verifyDigest
  /-- PKCS1_VERIFY: candidate byte `i` is next. -/
  | verify (i : Nat)
  deriving DecidableEq, Repr

/-- What a host does (R18): an access of some width, in bits, on the host bus, or a read or write of one
data-memory byte. Addresses are byte addresses of the host bus and of data memory. -/
inductive HostOp
  | read (addr : Nat) (width : Nat)
  | write (addr : Nat) (width : Nat) (value : Word)
  | memRead (addr : Nat)
  | memWrite (addr : Nat) (value : Byte)
  deriving DecidableEq, Repr

/-- What the outside world does next; the order of these events is the order in which host, platform and
engine move (R18, R57, R116). -/
inductive Event
  /-- A host access. -/
  | host (op : HostOp)
  /-- The engine runs the command in progress to its `complete` (R57). -/
  | run
  /-- The engine makes one move of the command in progress: its checks, one read phase, or one pass of its
  loop (R41, R56). -/
  | tick
  /-- The reset input is asserted (R126, R127). -/
  | reset
  /-- The platform removes power or clock (R125, R128). -/
  | powerLoss
  /-- The platform answers with a bus error the engine's byte access that has number `n` counted from now
  (R111, "or from the platform"). -/
  | busError (n : Nat)
  deriving DecidableEq, Repr

/-- The response to the last host access. -/
inductive HostResp
  /-- No access yet. -/
  | none
  /-- A register read returned this word. -/
  | data (w : Word)
  /-- A data-memory read returned this byte. -/
  | byte (b : Byte)
  /-- A write was taken. -/
  | written
  /-- A bus error response (R22). -/
  | busError
  /-- The address is not in the register window: the block does not answer (R21). -/
  | unclaimed
  deriving DecidableEq, Repr

/-- A region of the data address space: first address and length. -/
abbrev Region := Nat × Nat

/-- Data memory (R45): the bytes that differ from what an unlisted address reads as, addresses rising. -/
abbrev Memory := List Host.Cell

/-- Why a step stops with a fault. -/
inductive Fault
  /-- Raised by `step` when power or clock was lost and something other than reset happens before the block
  was reset: the spec gives the machine no step there (R125, R128; I7 "stuck until reset"). Safe: the
  model stops where the hardware would go on from an unspecified state. -/
  | notReset
  deriving DecidableEq, Repr

/-- Why a step is refused. -/
inductive Refusal
  /-- Raised by an arm of `exec` whose instruction has no meaning yet; no arm raises it. Safe. -/
  | notModelled (mnemonic : String)
  deriving DecidableEq, Repr

/-- The whole state. The first part is the block's (R19), then the data memory, then what the model keeps
of the outside world and of the values the spec leaves open. -/
structure State where
  /-- CTRL bit 0, `IRQ_EN` (R26). -/
  irqEn : Bool
  /-- `STATUS.BUSY` (R27). -/
  busy : Bool
  /-- `STATUS.DONE` (R27). -/
  done : Bool
  /-- `STATUS.CODE` (R27, R70). -/
  code : StatusCode
  /-- FAULTS bits 3:0: SEQ, ILLEGAL, CMD_BUSY, BUS_ERROR (R29). -/
  faults : BitVec 4
  /-- CMD: the last accepted command word (R32). -/
  cmd : Word
  /-- The live operand registers (R37). -/
  opr : OperandRegs
  /-- The latched operands `L_DST` to `L_DIG` (R38). -/
  lat : OperandRegs
  /-- The context slots (R33). Positions at or above `NUM_CTX` are no storage: nothing reads or writes
  them. -/
  slots : Vector Slot 15
  /-- The scratch context (R39). -/
  scratch : Scratch
  /-- The codec's digest buffer (R40). -/
  dbuf : List Byte
  /-- The codec's `diff` (R99). -/
  diff : Byte
  /-- The engine's position in the command in progress (R41). -/
  progress : Progress
  /-- Data memory (R45). -/
  mem : Memory
  /-- The platform's memory map: the regions of data memory that are backed, `MEM_OK` (R45). No step changes
  it. -/
  ram : List Region
  /-- The platform's addresses with read side effects: a read of a byte there returns any value (R55). No step
  changes it. -/
  volatile : List Region
  /-- Has the block been reset since power was applied (R128)? -/
  powered : Bool
  /-- What the outside world does next, first event first (the model's). -/
  env : List Event
  /-- The response to the last host access (the model's). -/
  resp : HostResp
  /-- Data memory as it was at the acceptance of the command in progress (the model's, for R60). -/
  accMem : Memory
  /-- Bytes of the running command's buffers that a host wrote since acceptance, each with the value it had
  before and the value written (the model's, for R60). -/
  raced : List Host.Cell
  /-- The number of the engine's byte access that the platform will answer with a bus error, counted from
  now (the model's, for R111). -/
  busErrIn : Option Nat
  /-- How many free values have been used (the model's). -/
  free : Nat
  deriving DecidableEq, Repr

/-- A slot with no context: UNINIT, mode 0, key and feedback register zero (R44). -/
def emptySlot (P : Params) : Slot :=
  { state := .uninit, mode := .encrypt, key := zeros P.keyBytes, fb := zeroBlock }

/-- The zeroized scratch context (R39, R44). -/
def zeroScratch (P : Params) : Scratch := { key := zeros P.keyBytes, fb := zeroBlock }

/-- Operand registers after reset (R44). -/
def zeroOperands : OperandRegs := { dst := 0, src := 0, len := 0, key := 0, iv := 0, mode := 0, dig := 0 }

/-- The reset state under a configuration and a memory map, backed regions and those with read side effects (R44).
`dbuf` is unspecified by the spec and held as zero (DESIGN CHOICE, I4); data memory lists nothing. -/
def resetFor (P : Params) (ram volatile : List Region) : State :=
  { irqEn := false, busy := false, done := false, code := .ok, faults := 0, cmd := 0
    opr := zeroOperands, lat := zeroOperands
    slots := Vector.replicate 15 (emptySlot P)
    scratch := zeroScratch P
    dbuf := zeros P.hashLen, diff := 0
    progress := .idle
    mem := [], ram := ram, volatile := volatile
    powered := true, env := [], resp := .none
    accMem := [], raced := [], busErrIn := none, free := 0 }

/-- The machine right after reset (R44, R126, R128). -/
def State.reset : State := resetFor Config.chip Config.memRegions Config.volatileRegions

end Sys2Proof.Machine
end

