-- ==== Sys2Proof/Machine/Flags.lean ====
section
/-! DEFINITION. The numbers of the status codes, slot states, directions and fault causes, and the register
words and the interrupt output computed from the state (spec/10_state.md R24 to R31, R42;
spec/30_encoding.md R70, R71). -/

namespace Sys2Proof.Machine

/-- `STATUS.CODE` as a number (R70). -/
def codeBits : StatusCode → BitVec 3
  | .ok => 0
  | .invalidInput => 1
  | .invalidOutput => 2
  | .invalidArg => 3
  | .invalidMode => 4
  | .verificationFailed => 5
  | .cmdFault => 7

/-- The FAULTS bit of a cause (R29). -/
def causeBit : FaultCause → BitVec 4
  | .seq => 0b0001
  | .illegal => 0b0010
  | .cmdBusy => 0b0100
  | .busError => 0b1000

/-- The encoding of a slot state (R34). -/
def slotStateBits : SlotState → BitVec 2
  | .uninit => 0
  | .initialized => 1
  | .finished => 2

/-- The recorded direction as the slot's mode bit (R71). -/
def directionBit : Direction → BitVec 1
  | .encrypt => 0
  | .decrypt => 1

/-- One bit of a register, as a number. -/
def bit (b : Bool) : Nat := if b then 1 else 0

/-- `STATUS.FAULT`: 1 iff `R[FAULTS] != 0` (R27). -/
def faultSummary (s : State) : Bool := s.faults != 0

/-- STATUS (R27): BUSY bit 0, DONE bit 1, CODE bits 6:4, FAULT bit 8; reserved bits 0. -/
def statusWord (s : State) : Word :=
  BitVec.ofNat 32
    (bit s.busy + 2 ^ 1 * bit s.done + 2 ^ 4 * (codeBits s.code).toNat + 2 ^ 8 * bit (faultSummary s))

/-- FAULTS (R29): bits 31:4 reserved. -/
def faultsWord (s : State) : Word := s.faults.setWidth 32

/-- CTRL (R26): bits 31:1 reserved. -/
def ctrlWord (s : State) : Word := BitVec.ofNat 32 (bit s.irqEn)

/-- CFG0 (R24): NUM_CTX bits 3:0, HASH_LEN bits 15:8, DI_LEN bits 23:16, BLOCK_BYTES bits 31:24. -/
def cfg0Word (P : Params) : Word :=
  BitVec.ofNat 32 (P.numCtx + 2 ^ 8 * P.hashLen + 2 ^ 16 * P.diLen + 2 ^ 24 * 8)

/-- CFG1 (R25). -/
def cfg1Word (P : Params) : Word := BitVec.ofNat 32 P.keyBytes

/-- The slot at a number; a number that is no position of the slot file reads as an empty slot. -/
def slotAt (P : Params) (s : State) (c : Nat) : Slot := (s.slots[c]?).getD (emptySlot P)

/-- The two-bit state fields of slots `0 .. n-1`, slot `j` at bits `2j+1:2j` (R30). -/
def ctxStatBits (P : Params) (s : State) : Nat → Word
  | 0 => 0
  | n + 1 => ctxStatBits P s n ||| ((slotStateBits (slotAt P s n).state).setWidth 32 <<< (2 * n))

/-- CTXSTAT (R30): slots at or above `NUM_CTX` read 0. -/
def ctxStatWord (P : Params) (s : State) : Word := ctxStatBits P s P.numCtx

/-- The mode bits of slots `0 .. n-1`, slot `j` at bit `j` (R31). -/
def ctxModeBits (P : Params) (s : State) : Nat → Word
  | 0 => 0
  | n + 1 => ctxModeBits P s n ||| ((directionBit (slotAt P s n).mode).setWidth 32 <<< n)

/-- CTXMODE (R31): slots at or above `NUM_CTX` read 0. -/
def ctxModeWord (P : Params) (s : State) : Word := ctxModeBits P s P.numCtx

/-- The interrupt output `IRQ = CTRL.IRQ_EN AND STATUS.DONE` (R42, R113). -/
def irq (s : State) : Bool := s.irqEn && s.done

/-- The interrupt output where the platform wires it: input `IRQ_LINE` and its level (R114). -/
def irqAtHost (P : Params) (s : State) : Nat × Bool := (P.irqLine, irq s)

end Sys2Proof.Machine
end

