-- ==== Sys2Proof/Machine/Ops.lean ====
section
/-! DEFINITION. The named operations over data memory, context slots and status: the bus-master port
(spec/00_scope.md R12; spec/20_memory.md R45 to R60; spec/60_exceptions.md R111), acceptance
(spec/10_state.md R32), completion (R14), the command fault (R15), the acknowledge (R118) and the loop of a
command. -/

namespace Sys2Proof.Machine

/-! ### Data memory -/

/-- What a data-memory byte that nothing has written reads as (DESIGN CHOICE: zero). -/
def unlistedByte : Byte := 0

/-- The byte at an address. -/
def memGet : Memory → Nat → Byte
  | [], _ => unlistedByte
  | (x, v) :: m, a => if x = a then v else memGet m a

/-- A cell put in its place among rising addresses. -/
def insertCell (c : Host.Cell) : Memory → Memory
  | [] => [c]
  | x :: m => if c.1 < x.1 then c :: x :: m else x :: insertCell c m

/-- Memory with the byte at `a` replaced by `b`, in canonical form. -/
def memSet (m : Memory) (a : Nat) (b : Byte) : Memory :=
  let rest := m.filter (fun c => c.1 != a)
  if b = unlistedByte then rest else insertCell (a, b) rest

/-- Memory with the bytes `bs` stored from address `a` up, in increasing address (R12). -/
def memSetBytes : Memory → Nat → List Byte → Memory
  | m, _, [] => m
  | m, a, b :: bs => memSetBytes (memSet m a b) (a + 1) bs

/-- The canonical form: addresses of the 2^32-byte space strictly rising, and no cell that equals what an
unlisted address reads as. -/
abbrev MemWf (m : Memory) : Prop :=
  m.Pairwise (fun x y => x.1 < y.1) ∧ ∀ c ∈ m, c.1 < 2 ^ 32 ∧ c.2 ≠ unlistedByte

/-! ### The engine's bus-master port -/

/-- Is `a` in the register window `[BASE, BASE + 64)` (R21, R47)? -/
def inWindow (P : Params) (a : Nat) : Bool := decide (P.base ≤ a) && decide (a < P.base + 64)

/-- Is `a` in one of some regions? -/
def inRegions (rs : List Region) (a : Nat) : Bool :=
  rs.any (fun r => decide (r.1 ≤ a) && decide (a < r.1 + r.2))

/-- `MEM_OK(a)`: is `a` in a region that the platform backs (R45)? -/
def memOk (ram : List Region) (a : Nat) : Bool := inRegions ram a

/-- Does an engine access to the byte at `a` get an answer: an address of the 2^32-byte space with `MEM_OK`
(R45), outside the window (R47)? -/
def backed (P : Params) (ram : List Region) (a : Nat) : Bool :=
  decide (a < 2 ^ 32) && memOk ram a && !inWindow P a

/-- Are the `n` bytes from `a` up all backed? -/
def allBacked (P : Params) (ram : List Region) (a : Nat) : Nat → Bool
  | 0 => true
  | n + 1 => backed P ram a && allBacked P ram (a + 1) n

/-- Will the platform answer one of the engine's next `n` byte accesses with a bus error (R111)? -/
def platformError (s : State) (n : Nat) : Bool :=
  match s.busErrIn with
  | none => false
  | some k => decide (k < n)

/-- Does an access of `n` bytes from `a` up get a bus error response (R45, R47, R111)? -/
def accessFails (P : Params) (s : State) (a n : Nat) : Bool := platformError s n || !allBacked P s.ram a n

/-- Data memory becomes `m`. -/
def setMem (s : State) (m : Memory) : State := { s with mem := m }

/-- `n` free values have been used. -/
def useFree (s : State) (n : Nat) : State := { s with free := s.free + n }

/-- `n` byte accesses have gone by. -/
def afterAccess (s : State) (n : Nat) : State := { s with busErrIn := s.busErrIn.map (· - n) }

/-- Is `a` an address with read side effects (R55)? -/
def hasReadEffect (volatile : List Region) (a : Nat) : Bool := inRegions volatile a

/-- Are the `n` bytes from `a` up plain memory: none of them has a read side effect (R55)? -/
def allPlain (volatile : List Region) (a n : Nat) : Bool :=
  (List.range n).all (fun i => !hasReadEffect volatile (a + i))

/-- The values a read of the byte at `a` by the engine may return: the byte in memory and, where a host broke
its duty on that byte (R134), every value that a host's write there replaced or stored since acceptance (R60). -/
def readChoices (s : State) (a : Nat) : List Byte :=
  memGet s.mem a :: (s.raced.filter (fun c => c.1 == a)).map (·.2)

/-- One of some bytes, by a free value. -/
def freeChoice (P : Params) (k : Nat) (bs : List Byte) : Byte := bs.getD (P.free k % bs.length) 0

/-- The byte a read by the engine returns: any value where the read has a side effect (R55), else one of
`readChoices`, by the free value of place `k` (R60). -/
def engineByte (P : Params) (s : State) (a k : Nat) : Byte :=
  if hasReadEffect s.volatile a then BitVec.ofNat 8 (P.free k) else freeChoice P k (readChoices s a)

/-- The state after the engine read the `n` bytes from `a` up: free values have been used only where a race exists
or a read has a side effect. -/
def afterRead (s : State) (a n : Nat) : State :=
  if s.raced = [] ∧ allPlain s.volatile a n = true then afterAccess s n else useFree (afterAccess s n) n

/-- `MemRead(a, n)` (R12), or no bytes on a bus error response. -/
def readBytes (P : Params) (s : State) (a n : Nat) : Option (List Byte × State) :=
  if accessFails P s a n then none
  else some ((List.range n).map (fun i => engineByte P s (a + i) (s.free + i)), afterRead s a n)

/-- The 8 bytes that a read from `a` up returns where it is answered. -/
def blockBytes (P : Params) (s : State) (a : Nat) : Block :=
  Vector.ofFn (fun i : Fin 8 => engineByte P s (a + i.val) (s.free + i.val))

/-- `MemRead(a, 8)` (R12), as a block. -/
def readBlock (P : Params) (s : State) (a : Nat) : Option (Block × State) :=
  if accessFails P s a 8 then none else some (blockBytes P s a, afterRead s a 8)

/-- `MemRead(a, 1)` (R12). -/
def readByte (P : Params) (s : State) (a : Nat) : Option (Byte × State) :=
  if accessFails P s a 1 then none
  else some (engineByte P s a s.free, afterRead s a 1)

/-- The bytes of a block write that got a bus error: each backed byte keeps its old value or takes the value
it would have got, by free values from place `k` on (R111, I5). -/
def tornWrite (P : Params) (ram : List Region) : Memory → Nat → Nat → List Byte → Memory
  | m, _, _, [] => m
  | m, a, k, b :: bs =>
    tornWrite P ram (if backed P ram a && P.free k % 2 == 1 then memSet m a b else m) (a + 1) (k + 1) bs

/-- What a bus error at the output block `blk`, meant for the 8 bytes from `a` up, leaves: each byte open between
its old value and the value it would have got (R83, R111, I5; notes/assumptions 15). -/
def tornBlock (P : Params) (s : State) (a : Nat) (blk : Block) : State :=
  useFree (setMem s (tornWrite P s.ram s.mem a s.free blk.toList)) 8

/-- `MemWrite(a, 8, blk)` (R12); `.error` is the state that a bus error response leaves. -/
def writeBlock (P : Params) (s : State) (a : Nat) (blk : Block) : Except State State :=
  if accessFails P s a 8 then
    .error (tornBlock P s a blk)
  else .ok (afterAccess (setMem s (memSetBytes s.mem a blk.toList)) 8)

/-- `MemWrite(a, 1, b)` (R12); on a bus error response the byte is unchanged (I5). -/
def writeByte (P : Params) (s : State) (a : Nat) (b : Byte) : Except State State :=
  if accessFails P s a 1 then .error s
  else .ok (afterAccess (setMem s (memSet s.mem a b)) 1)

/-- The backed ones of the `n` bytes from `a` up, replaced by free values from place `k` on (R127, I6). -/
def scramble (P : Params) (ram : List Region) : Memory → Nat → Nat → Nat → Memory
  | m, _, _, 0 => m
  | m, a, k, n + 1 =>
    scramble P ram (if backed P ram a then memSet m a (BitVec.ofNat 8 (P.free k)) else m) (a + 1) (k + 1) n

/-! ### Context slots and scratch -/

/-- `slot[c] <- v` (R11). -/
def setSlot (s : State) (c : Nat) (v : Slot) : State := { s with slots := s.slots.setIfInBounds c v }

/-- `slot[c].fb <- f` (R11). -/
def setSlotFb (P : Params) (s : State) (c : Nat) (f : Block) : State :=
  setSlot s c { slotAt P s c with fb := f }

/-- `scratch <- v` (R39). -/
def setScratch (s : State) (v : Scratch) : State := { s with scratch := v }

/-- `dbuf <- d` (R40). -/
def setDbuf (s : State) (d : List Byte) : State := { s with dbuf := d }

/-- `diff <- d` (R99). -/
def setDiff (s : State) (d : Byte) : State := { s with diff := d }

/-- The engine's next position (R41). -/
def setProgress (s : State) (p : Progress) : State := { s with progress := p }

/-! ### Status: acceptance, completion, command fault, acknowledge -/

/-- The acceptance of command word `w` (R32): CMD and the latched operands are written, DONE and CODE are
cleared, BUSY is set, and the engine has everything still to do. -/
def accept (s : State) (w : Word) : State :=
  { s with
    cmd := w, lat := s.opr, done := false, code := .ok, busy := true, progress := .accepted
    accMem := s.mem, raced := [], busErrIn := none }

/-- `complete(code)` (R14, R117): the end of a command. It stands in the place of trap entry. -/
def complete (s : State) (code : StatusCode) : State :=
  { s with
    code := code, busy := false, done := true, progress := .idle
    accMem := [], raced := [], busErrIn := none }

/-- A FAULTS bit is set; bits set before stay (R29, R110). -/
def setFault (s : State) (n : FaultCause) : State := { s with faults := s.faults ||| causeBit n }

/-- `raise CmdFault(n)` (R15): the FAULTS bit, then `complete(7)`. -/
def raiseCmdFault (s : State) (n : FaultCause) : State := complete (setFault s n) .cmdFault

/-- The acknowledge, a write of 1 to `STATUS.DONE` (R28, R118). It stands in the place of trap return and
restores nothing. -/
def acknowledge (s : State) : State := { s with done := false }

/-! ### Checks and loops of a command -/

/-- What the checks of a command's pseudocode decide, the first failing one deciding (R80, R115). -/
inductive Verdict
  /-- `complete(code); return`. -/
  | reject (code : StatusCode)
  /-- `raise CmdFault(n)`. -/
  | fault (n : FaultCause)
  /-- Every check passes. -/
  | pass
  deriving DecidableEq, Repr

/-- A command from its checks: nothing but status changes unless every check passes (R79). -/
def guarded (v : Verdict) (body : State → State) (s : State) : State :=
  match v with
  | .reject code => complete s code
  | .fault n => raiseCmdFault s n
  | .pass => body s

/-- `for j in j .. j+n-1: body`, stopping where the body ends the command with a bus error. -/
def forLoop (body : Nat → State → Except State State) : Nat → Nat → State → Except State State
  | 0, _, s => .ok s
  | n + 1, j, s =>
    match body j s with
    | .error s' => .error s'
    | .ok s' => forLoop body n (j + 1) s'

/-- A phase of a command, then what follows it: a bus error ends the command (R111). -/
def andThen (r : Except State State) (fail next : State → State) : State :=
  match r with
  | .error s => fail s
  | .ok s => next s

/-- The end that a bus error gives a command other than OFB_ONESHOT (R111). -/
def busFault (s : State) : State := raiseCmdFault s .busError

/-- One move of a loop at position `j` of `n`: a pass of the body and the next position, or, when no pass is
left, what follows the loop (R41). -/
def loopMove (body : Nat → State → Except State State) (n j : Nat) (at' : Nat → Progress)
    (fail done : State → State) (s : State) : State :=
  if j < n then andThen (body j s) fail (fun s' => setProgress s' (at' (j + 1))) else done s

end Sys2Proof.Machine
end

