-- ==== Sys2Proof/Machine/Operands.lean ====
section
/-! DEFINITION. The operands of a command: everything it takes from the latched operand registers
(spec/10_state.md R37, R38; spec/30_encoding.md R67, R71; spec/20_memory.md R52, R53), and the buffers they
name (spec/20_memory.md R60; spec/70_reset_and_hazards.md R134). -/

namespace Sys2Proof.Machine

/-- `L_DST` as a byte address (R67). -/
def dstAddr (s : State) : Nat := s.lat.dst.toNat
/-- `L_SRC` as a byte address (R67). -/
def srcAddr (s : State) : Nat := s.lat.src.toNat
/-- `L_LEN`: a byte count, or `k` (R67). -/
def lenArg (s : State) : Nat := s.lat.len.toNat
/-- `L_KEY` as a byte address (R67). -/
def keyAddr (s : State) : Nat := s.lat.key.toNat
/-- `L_IV` as a byte address (R67). -/
def ivAddr (s : State) : Nat := s.lat.iv.toNat
/-- `L_DIG` as a byte address (R67). -/
def digAddr (s : State) : Nat := s.lat.dig.toNat

/-- `fits(a, n)`: the buffer ends within the address space, computed without wrap (R53). -/
def fits (a n : Nat) : Bool := decide (a + n ≤ 2 ^ 32)

/-- The direction that `L_MODE` codes, if any (R71). -/
def directionOf (mode : Word) : Option Direction :=
  if mode = 1 then some .encrypt else if mode = 2 then some .decrypt else none

/-- The number of data blocks, `L_LEN / 8` (R83). -/
def blockCount (s : State) : Nat := lenArg s / 8

/-- A buffer: its first address and its length. -/
abbrev Buffer := Nat × Nat

/-- Is `a` an address of the buffer? -/
def inBuffer (b : Buffer) (a : Nat) : Bool := decide (b.1 ≤ a) && decide (a < b.1 + b.2)

/-- The buffers a command reads, by R37's table. -/
def inputBuffers (P : Params) (s : State) : Instr → List Buffer
  | .ofbInit _ => [(keyAddr s, P.keyBytes), (ivAddr s, 8)]
  | .ofbCore _ => [(srcAddr s, lenArg s)]
  | .ofbFinish _ => []
  | .ofbOneshot _ => [(keyAddr s, P.keyBytes), (ivAddr s, 8), (srcAddr s, lenArg s)]
  | .pkcs1Encode _ => [(digAddr s, P.hashLen)]
  | .pkcs1Verify _ => [(srcAddr s, lenArg s), (digAddr s, P.hashLen)]

/-- The buffers a command writes, by R37's table. -/
def outputBuffers (s : State) : Instr → List Buffer
  | .ofbInit _ => []
  | .ofbCore _ => [(dstAddr s, lenArg s)]
  | .ofbFinish _ => []
  | .ofbOneshot _ => [(dstAddr s, lenArg s)]
  | .pkcs1Encode _ => [(dstAddr s, lenArg s)]
  | .pkcs1Verify _ => []

/-- Is `a` in a buffer that the command word `CMD` writes? -/
def inOutput (s : State) (a : Nat) : Bool :=
  match decode s.cmd with
  | .command i => (outputBuffers s i).any (inBuffer · a)
  | .illegal _ => false

/-- Is `a` in a buffer of the command word `CMD`, read or written (R60, R134)? -/
def inSomeBuffer (P : Params) (s : State) (a : Nat) : Bool :=
  match decode s.cmd with
  | .command i => (inputBuffers P s i ++ outputBuffers s i).any (inBuffer · a)
  | .illegal _ => false

end Sys2Proof.Machine
end

