-- ==== Sys2Proof/Machine/Ofb.lean ====
section
/-! DEFINITION. The OFB driver's commands (spec/40_ofb.md R78 to R92). Each has its checks (`…Check`), its
phases, and its meaning `exec…`: the whole command, from its checks to `complete` (R57). -/

namespace Sys2Proof.Machine

/-- Bytewise exclusive or of two blocks: 8 independent lanes (R10, R88). -/
def xorBlock (a b : Block) : Block := Vector.ofFn (fun i : Fin 8 => a[i] ^^^ b[i])

/-- The keystream step (R78): the output block and the new feedback value. -/
def ofbStep (P : Params) (ks : List Byte) (fb d : Block) : Block × Block :=
  (xorBlock d (P.E ks fb), P.E ks fb)

/-- One pass of the block loop of R83 and R91, on key `ks` and feedback value `fb`: data block `j` is read,
then output block `j` is written (R56). Answers the new feedback value. A bus error at block `j`, of its read or of
its write, leaves output block `j` unspecified (R83, I5). DEDUCED (notes/assumptions 15): where the read fails, the
value a byte would have got is computed from the bytes that the read would have returned. -/
def ofbBlock (P : Params) (ks : List Byte) (fb : Block) (j : Nat) (s : State) : Except State (Block × State) :=
  match readBlock P s (srcAddr s + 8 * j) with
  | none =>
    .error (tornBlock P (useFree s 8) (dstAddr s + 8 * j) (ofbStep P ks fb (blockBytes P s (srcAddr s + 8 * j))).1)
  | some (d, s') =>
    match writeBlock P s' (dstAddr s + 8 * j) (ofbStep P ks fb d).1 with
    | .error s'' => .error s''
    | .ok s'' => .ok ((ofbStep P ks fb d).2, s'')

/-! ### OFB_INIT -/

/-- The checks of OFB_INIT, in order (R81, R82). -/
def initCheck (P : Params) (c : Nat) (s : State) : Verdict :=
  if P.numCtx ≤ c then .reject .invalidOutput
  else if (slotAt P s c).state = .initialized then .fault .seq
  else if s.lat.key = 0 then .reject .invalidInput
  else if s.lat.iv = 0 then .reject .invalidInput
  else if directionOf s.lat.mode = none then .reject .invalidMode
  else if !fits (keyAddr s) P.keyBytes || !fits (ivAddr s) 8 then .reject .invalidArg
  else .pass

/-- The key, then the IV, as OFB_INIT and OFB_ONESHOT read them; a bus error changes nothing (R81, R111). -/
def readKeyIv (P : Params) (s : State) : Option (List Byte × Block × State) :=
  match readBytes P s (keyAddr s) P.keyBytes with
  | none => none
  | some (kb, s') =>
    match readBlock P s' (ivAddr s) with
    | none => none
    | some (iv, s'') => some (kb, iv, s'')

/-- OFB_INIT after its checks (R81). -/
def initBind (P : Params) (c : Nat) (s : State) : State :=
  match readKeyIv P s with
  | none => busFault s
  | some (kb, iv, s') =>
    complete
      (setSlot s' c
        { state := .initialized, mode := (directionOf s.lat.mode).getD .encrypt, key := kb, fb := iv })
      .ok

/-- OFB_INIT (R81). -/
def ofbInit (P : Params) (c : Nat) (s : State) : State := guarded (initCheck P c s) (initBind P c) s

/-- OFB_INIT on slot `c` (R81). -/
def execOfbInit (c : Nat) (s : State) : Host.Outcome State Fault Refusal := .next (ofbInit Config.chip c s)

/-! ### OFB_CORE -/

/-- The checks of OFB_CORE, in order (R83). -/
def coreCheck (P : Params) (c : Nat) (s : State) : Verdict :=
  if P.numCtx ≤ c then .reject .invalidOutput
  else if (slotAt P s c).state ≠ .initialized then .fault .seq
  else if s.lat.src = 0 then .reject .invalidInput
  else if s.lat.dst = 0 then .reject .invalidOutput
  else if lenArg s = 0 ∨ lenArg s % 8 ≠ 0 then .reject .invalidArg
  else if !fits (srcAddr s) (lenArg s) || !fits (dstAddr s) (lenArg s) then .reject .invalidArg
  else .pass

/-- The loop body of OFB_CORE (R83): `slot[c].mode` is not read (R84). -/
def coreBody (P : Params) (c j : Nat) (s : State) : Except State State :=
  match ofbBlock P (slotAt P s c).key (slotAt P s c).fb j s with
  | .error s' => .error s'
  | .ok (f, s') => .ok (setSlotFb P s' c f)

/-- What follows the loop of OFB_CORE. -/
def coreDone (s : State) : State := complete s .ok

/-- OFB_CORE from data block `j` on (R83). -/
def coreFrom (P : Params) (c j : Nat) (s : State) : State :=
  andThen (forLoop (coreBody P c) (blockCount s - j) j s) busFault coreDone

/-- OFB_CORE (R83). -/
def ofbCore (P : Params) (c : Nat) (s : State) : State := guarded (coreCheck P c s) (coreFrom P c 0) s

/-- OFB_CORE on slot `c` (R83). -/
def execOfbCore (c : Nat) (s : State) : Host.Outcome State Fault Refusal := .next (ofbCore Config.chip c s)

/-! ### OFB_FINISH -/

/-- The checks of OFB_FINISH, in order (R89). -/
def finishCheck (P : Params) (c : Nat) (s : State) : Verdict :=
  if P.numCtx ≤ c then .reject .invalidOutput
  else if (slotAt P s c).state = .finished then .fault .seq
  else .pass

/-- OFB_FINISH after its checks: the slot is zeroized in place (R89, R90). -/
def finishZeroize (P : Params) (c : Nat) (s : State) : State :=
  complete (setSlot s c { emptySlot P with state := .finished }) .ok

/-- OFB_FINISH (R89). -/
def ofbFinish (P : Params) (c : Nat) (s : State) : State := guarded (finishCheck P c s) (finishZeroize P c) s

/-- OFB_FINISH on slot `c` (R89). -/
def execOfbFinish (c : Nat) (s : State) : Host.Outcome State Fault Refusal := .next (ofbFinish Config.chip c s)

/-! ### OFB_ONESHOT -/

/-- The checks of OFB_ONESHOT, init's then core's (R91, R80). -/
def oneshotCheck (P : Params) (s : State) : Verdict :=
  if s.lat.key = 0 then .reject .invalidInput
  else if s.lat.iv = 0 then .reject .invalidInput
  else if directionOf s.lat.mode = none then .reject .invalidMode
  else if !fits (keyAddr s) P.keyBytes || !fits (ivAddr s) 8 then .reject .invalidArg
  else if s.lat.src = 0 then .reject .invalidInput
  else if s.lat.dst = 0 then .reject .invalidOutput
  else if lenArg s = 0 ∨ lenArg s % 8 ≠ 0 then .reject .invalidArg
  else if !fits (srcAddr s) (lenArg s) || !fits (dstAddr s) (lenArg s) then .reject .invalidArg
  else .pass

/-- The end that a bus error gives OFB_ONESHOT: the scratch context is zeroized first (R111). -/
def oneshotFault (P : Params) (s : State) : State := busFault (setScratch s (zeroScratch P))

/-- The finish of OFB_ONESHOT: the scratch context is zeroized (R91). -/
def oneshotDone (P : Params) (s : State) : State := complete (setScratch s (zeroScratch P)) .ok

/-- The init of OFB_ONESHOT: key and IV go to the scratch context (R91). -/
def oneshotBind (P : Params) (s : State) : Except State State :=
  match readKeyIv P s with
  | none => .error s
  | some (kb, iv, s') => .ok (setScratch s' { key := kb, fb := iv })

/-- The loop body of OFB_ONESHOT (R91). -/
def oneshotBody (P : Params) (j : Nat) (s : State) : Except State State :=
  match ofbBlock P s.scratch.key s.scratch.fb j s with
  | .error s' => .error s'
  | .ok (f, s') => .ok (setScratch s' { s'.scratch with fb := f })

/-- OFB_ONESHOT from data block `j` on (R91). -/
def oneshotFrom (P : Params) (j : Nat) (s : State) : State :=
  andThen (forLoop (oneshotBody P) (blockCount s - j) j s) (oneshotFault P) (oneshotDone P)

/-- OFB_ONESHOT after its checks (R91). -/
def oneshotRun (P : Params) (s : State) : State :=
  andThen (oneshotBind P s) (oneshotFault P) (oneshotFrom P 0)

/-- OFB_ONESHOT (R91). -/
def ofbOneshot (P : Params) (s : State) : State := guarded (oneshotCheck P s) (oneshotRun P) s

/-- OFB_ONESHOT (R91); the number in bits 11:8 has no effect (R69). -/
def execOfbOneshot (s : State) : Host.Outcome State Fault Refusal := .next (ofbOneshot Config.chip s)

end Sys2Proof.Machine
end

