-- ==== Sys2Proof/Machine/Pkcs1.lean ====
section
/-! DEFINITION. The PKCS#1 v1.5 padding codec's commands (spec/41_pkcs1.md R93 to R104). -/

namespace Sys2Proof.Machine

/-- `DigestInfo(dg) = DI_PREFIX || dg` (R93). -/
def digestInfo (P : Params) (dg : List Byte) : List Byte := P.diPrefix ++ dg

/-- The least `k` for which the padded block is defined, `DI_LEN + 11` (R95). -/
def minK (P : Params) : Nat := P.diLen + 11

/-- The padded block `pad(dg, k)` (R94). -/
def pad (P : Params) (dg : List Byte) (k : Nat) : List Byte :=
  [0x00, 0x01] ++ List.replicate (k - 3 - P.diLen) 0xFF ++ [0x00] ++ digestInfo P dg

/-- The phases of the byte-construction FSM, in their order (R96). -/
inductive PadPhase
  | hdr
  | bt
  | ps
  | sep
  | algid
  | digest
  deriving DecidableEq, Repr

/-- The phase of index `i` (R96), with `p = k - DI_LEN` and `h = k - HASH_LEN`. -/
def padPhase (P : Params) (k i : Nat) : PadPhase :=
  if i = 0 then .hdr
  else if i = 1 then .bt
  else if i + 2 ≤ k - P.diLen then .ps
  else if i + 1 = k - P.diLen then .sep
  else if i < k - P.hashLen then .algid
  else .digest

/-- `expected(i, k, dg)` (R96). -/
def expectedByte (P : Params) (k : Nat) (dg : List Byte) (i : Nat) : Byte :=
  match padPhase P k i with
  | .hdr => 0x00
  | .bt => 0x01
  | .ps => 0xFF
  | .sep => 0x00
  | .algid => P.diPrefix.getD (i - (k - P.diLen)) 0
  | .digest => dg.getD (i - (k - P.hashLen)) 0

/-- Digest capture: `dbuf <- MemRead(L_DIG, HASH_LEN)` (R97). -/
def captureDigest (P : Params) (s : State) : Except State State :=
  match readBytes P s (digAddr s) P.hashLen with
  | none => .error s
  | some (dg, s') => .ok (setDbuf s' dg)

/-! ### PKCS1_ENCODE -/

/-- The checks of PKCS1_ENCODE, in order (R98). -/
def encodeCheck (P : Params) (s : State) : Verdict :=
  if s.lat.dig = 0 then .reject .invalidInput
  else if s.lat.dst = 0 then .reject .invalidOutput
  else if lenArg s < minK P then .reject .invalidArg
  else if !fits (digAddr s) P.hashLen || !fits (dstAddr s) (lenArg s) then .reject .invalidArg
  else .pass

/-- The loop body of PKCS1_ENCODE (R98). -/
def encodeBody (P : Params) (i : Nat) (s : State) : Except State State :=
  writeByte P s (dstAddr s + i) (expectedByte P (lenArg s) s.dbuf i)

/-- What follows the loop of PKCS1_ENCODE. -/
def encodeDone (s : State) : State := complete s .ok

/-- PKCS1_ENCODE from EM byte `i` on (R98). -/
def encodeFrom (P : Params) (i : Nat) (s : State) : State :=
  andThen (forLoop (encodeBody P) (lenArg s - i) i s) busFault encodeDone

/-- PKCS1_ENCODE after its checks (R98). -/
def encodeRun (P : Params) (s : State) : State := andThen (captureDigest P s) busFault (encodeFrom P 0)

/-- PKCS1_ENCODE (R98). -/
def pkcs1Encode (P : Params) (s : State) : State := guarded (encodeCheck P s) (encodeRun P) s

/-- PKCS1_ENCODE (R98); the number in bits 11:8 has no effect (R69). -/
def execPkcs1Encode (s : State) : Host.Outcome State Fault Refusal := .next (pkcs1Encode Config.chip s)

/-! ### PKCS1_VERIFY -/

/-- The checks of PKCS1_VERIFY, in order (R99). -/
def verifyCheck (P : Params) (s : State) : Verdict :=
  if s.lat.src = 0 then .reject .invalidInput
  else if lenArg s < minK P then .reject .invalidArg
  else if s.lat.dig = 0 then .reject .invalidInput
  else if !fits (srcAddr s) (lenArg s) || !fits (digAddr s) P.hashLen then .reject .invalidArg
  else .pass

/-- Digest capture of PKCS1_VERIFY and `diff <- 0x00` (R97, R99). -/
def verifyCapture (P : Params) (s : State) : Except State State :=
  match captureDigest P s with
  | .error s' => .error s'
  | .ok s' => .ok (setDiff s' 0)

/-- The loop body of PKCS1_VERIFY: no early exit (R99, R101). -/
def verifyBody (P : Params) (i : Nat) (s : State) : Except State State :=
  match readByte P s (srcAddr s + i) with
  | none => .error s
  | some (b, s') => .ok (setDiff s' (s.diff ||| (b ^^^ expectedByte P (lenArg s) s.dbuf i)))

/-- What follows the loop of PKCS1_VERIFY (R99). -/
def verifyDone (s : State) : State := complete s (if s.diff = 0 then .ok else .verificationFailed)

/-- PKCS1_VERIFY from candidate byte `i` on (R99). -/
def verifyFrom (P : Params) (i : Nat) (s : State) : State :=
  andThen (forLoop (verifyBody P) (lenArg s - i) i s) busFault verifyDone

/-- PKCS1_VERIFY after its checks (R99). -/
def verifyRun (P : Params) (s : State) : State := andThen (verifyCapture P s) busFault (verifyFrom P 0)

/-- PKCS1_VERIFY (R99). -/
def pkcs1Verify (P : Params) (s : State) : State := guarded (verifyCheck P s) (verifyRun P) s

/-- PKCS1_VERIFY (R99); the number in bits 11:8 has no effect (R69). -/
def execPkcs1Verify (s : State) : Host.Outcome State Fault Refusal := .next (pkcs1Verify Config.chip s)

end Sys2Proof.Machine
end

