-- ==== Sys2Proof/Machine/Dispatch.lean ====
section
/-! DEFINITION. One arm per command (spec/30_encoding.md R68). -/

namespace Sys2Proof.Machine

def exec (i : Instr) (s : State) : Host.Outcome State Fault Refusal :=
  match i with
  | .ofbInit c => Sys2Proof.Machine.execOfbInit c s
  | .ofbCore c => Sys2Proof.Machine.execOfbCore c s
  | .ofbFinish c => Sys2Proof.Machine.execOfbFinish c s
  | .ofbOneshot _ => Sys2Proof.Machine.execOfbOneshot s
  | .pkcs1Encode _ => Sys2Proof.Machine.execPkcs1Encode s
  | .pkcs1Verify _ => Sys2Proof.Machine.execPkcs1Verify s

end Sys2Proof.Machine
end

