-- ==== Sys2Proof/Machine/HostPort.lean ====
section
/-! DEFINITION. What a host access does: the register window (spec/10_state.md R21 to R32, R37) and the host's
own reads and writes of data memory (spec/00_scope.md R18; spec/20_memory.md R57 to R60). -/

namespace Sys2Proof.Machine

/-- The sixteen positions of the window (R21). -/
inductive RegName
  | cfg0 | cfg1 | ctrl | status | faults | ctxStat | ctxMode | unmapped
  | cmd | dst | src | len | key | iv | mode | dig
  deriving DecidableEq, Repr

/-- The byte offset of a position (R21). -/
def regOffset : RegName → Nat
  | .cfg0 => 0x00 | .cfg1 => 0x04 | .ctrl => 0x08 | .status => 0x0C
  | .faults => 0x10 | .ctxStat => 0x14 | .ctxMode => 0x18 | .unmapped => 0x1C
  | .cmd => 0x20 | .dst => 0x24 | .src => 0x28 | .len => 0x2C
  | .key => 0x30 | .iv => 0x34 | .mode => 0x38 | .dig => 0x3C

/-- The position at a byte offset, for the offsets of aligned 32-bit accesses (R21, R22). -/
def regAt : Nat → Option RegName
  | 0x00 => some .cfg0 | 0x04 => some .cfg1 | 0x08 => some .ctrl | 0x0C => some .status
  | 0x10 => some .faults | 0x14 => some .ctxStat | 0x18 => some .ctxMode | 0x1C => some .unmapped
  | 0x20 => some .cmd | 0x24 => some .dst | 0x28 => some .src | 0x2C => some .len
  | 0x30 => some .key | 0x34 => some .iv | 0x38 => some .mode | 0x3C => some .dig
  | _ => none

/-- The value a register read returns (R23 to R32, R37). -/
def readReg (P : Params) (s : State) : RegName → Word
  | .cfg0 => cfg0Word P
  | .cfg1 => cfg1Word P
  | .ctrl => ctrlWord s
  | .status => statusWord s
  | .faults => faultsWord s
  | .ctxStat => ctxStatWord P s
  | .ctxMode => ctxModeWord P s
  | .unmapped => 0
  | .cmd => s.cmd
  | .dst => s.opr.dst
  | .src => s.opr.src
  | .len => s.opr.len
  | .key => s.opr.key
  | .iv => s.opr.iv
  | .mode => s.opr.mode
  | .dig => s.opr.dig

/-- A write of CMD (R32): discarded with CMD_BUSY while a command runs, else accepted. -/
def writeCmd (s : State) (w : Word) : State := if s.busy then setFault s .cmdBusy else accept s w

/-- The effect of a register write (R23, R26, R28, R32, R37); a write to a read-only register is ignored. -/
def writeReg (s : State) (r : RegName) (v : Word) : State :=
  match r with
  | .ctrl => { s with irqEn := v.getLsbD 0 }
  | .status => if v.getLsbD 1 then acknowledge s else s
  | .cmd => writeCmd s v
  | .dst => { s with opr := { s.opr with dst := v } }
  | .src => { s with opr := { s.opr with src := v } }
  | .len => { s with opr := { s.opr with len := v } }
  | .key => { s with opr := { s.opr with key := v } }
  | .iv => { s with opr := { s.opr with iv := v } }
  | .mode => { s with opr := { s.opr with mode := v } }
  | .dig => { s with opr := { s.opr with dig := v } }
  | .cfg0 => s
  | .cfg1 => s
  | .faults => s
  | .ctxStat => s
  | .ctxMode => s
  | .unmapped => s

/-- What a host-bus access of `width` bits at `addr` reaches. -/
inductive Target
  /-- Not the window: the block does not answer. -/
  | elsewhere
  /-- In the window, but narrow, wide or misaligned (R22). -/
  | badAccess
  /-- A register position. -/
  | register (r : RegName)
  deriving DecidableEq, Repr

/-- Does an access of `width` bits at `addr` touch a byte of the window (R21)? -/
def touchesWindow (P : Params) (addr width : Nat) : Bool :=
  decide (P.base < addr + (width + 7) / 8) && decide (addr < P.base + 64)

/-- Only naturally aligned 32-bit accesses of the window are admitted (R22). -/
def target (P : Params) (addr width : Nat) : Target :=
  if touchesWindow P addr width then
    if width = 32 ∧ P.base ≤ addr then
      match regAt (addr - P.base) with
      | some r => .register r
      | none => .badAccess
    else .badAccess
  else .elsewhere

/-- The response to a host access is recorded; nothing else changes. -/
def respond (s : State) (r : HostResp) : State := { s with resp := r }

/-- A host read (R22, R23). -/
def hostRead (P : Params) (addr width : Nat) (s : State) : State :=
  match target P addr width with
  | .elsewhere => respond s .unclaimed
  | .badAccess => respond s .busError
  | .register r => respond s (.data (readReg P s r))

/-- A host write (R22, R23). -/
def hostWrite (P : Params) (addr width : Nat) (v : Word) (s : State) : State :=
  match target P addr width with
  | .elsewhere => respond s .unclaimed
  | .badAccess => respond s .busError
  | .register r => respond (writeReg s r v) .written

/-- The values a host's read of a byte of the running command's output may return: the value at acceptance, the
value now, and every value that a host's write there replaced or stored since (R60). -/
def outputChoices (s : State) (a : Nat) : List Byte := memGet s.accMem a :: readChoices s a

/-- A host's read of one data-memory byte: any value where the read has a side effect (R55); while a command runs, a
byte of its output buffer by a free value among `outputChoices` (R60). -/
def hostMemRead (P : Params) (a : Nat) (s : State) : State :=
  if backed P s.ram a then
    if hasReadEffect s.volatile a then respond (useFree s 1) (.byte (BitVec.ofNat 8 (P.free s.free)))
    else if s.busy && inOutput s a then respond (useFree s 1) (.byte (freeChoice P s.free (outputChoices s a)))
    else respond s (.byte (memGet s.mem a))
  else respond s .busError

/-- A host's write of one data-memory byte. While a command runs, a write to a byte of its buffers breaks the
duty of R134: the value before and the value written are kept among those a later read may return (R60). -/
def hostMemWrite (P : Params) (a : Nat) (b : Byte) (s : State) : State :=
  if backed P s.ram a then
    let raced :=
      if s.busy && inSomeBuffer P s a then (a, b) :: (a, memGet s.mem a) :: s.raced else s.raced
    respond { setMem s (memSet s.mem a b) with raced := raced } .written
  else respond s .busError

/-- A host access (R18). -/
def hostAccess (P : Params) (op : HostOp) (s : State) : State :=
  match op with
  | .read addr width => hostRead P addr width s
  | .write addr width v => hostWrite P addr width v s
  | .memRead a => hostMemRead P a s
  | .memWrite a b => hostMemWrite P a b s

end Sys2Proof.Machine
end

