-- ==== Sys2Proof/Machine/Engine.lean ====
section
/-! DEFINITION. The engine's moves (spec/10_state.md R41; spec/20_memory.md R56, R57), reset and power
(spec/70_reset_and_hazards.md R126 to R128), and one move of the whole machine, over any configuration and
any meaning of the commands. -/

namespace Sys2Proof.Machine

/-- The first move of a decoded command: its checks, after which its first phase is next. -/
def startMove (P : Params) (i : Instr) (s : State) : State :=
  match i with
  | .ofbInit c => guarded (initCheck P c s) (fun s' => setProgress s' (.initReads c)) s
  | .ofbCore c => guarded (coreCheck P c s) (fun s' => setProgress s' (.core c 0)) s
  | .ofbFinish c => ofbFinish P c s
  | .ofbOneshot _ => guarded (oneshotCheck P s) (fun s' => setProgress s' .oneshotReads) s
  | .pkcs1Encode _ => guarded (encodeCheck P s) (fun s' => setProgress s' .encodeDigest) s
  | .pkcs1Verify _ => guarded (verifyCheck P s) (fun s' => setProgress s' .verifyDigest) s

/-- One move of the engine at its position (R41): the finest steps in which the model shows a command. -/
def tick (P : Params) (s : State) : State :=
  match s.progress with
  | .idle => s
  | .accepted =>
    match decode s.cmd with
    | .illegal _ => raiseCmdFault s .illegal
    | .command i => startMove P i s
  | .initReads c => initBind P c s
  | .core c j => loopMove (coreBody P c) (blockCount s) j (.core c) busFault coreDone s
  | .oneshotReads => andThen (oneshotBind P s) (oneshotFault P) (fun s' => setProgress s' (.oneshot 0))
  | .oneshot j => loopMove (oneshotBody P) (blockCount s) j .oneshot (oneshotFault P) (oneshotDone P) s
  | .encodeDigest => andThen (captureDigest P s) busFault (fun s' => setProgress s' (.encode 0))
  | .encode i => loopMove (encodeBody P) (lenArg s) i .encode busFault encodeDone s
  | .verifyDigest => andThen (verifyCapture P s) busFault (fun s' => setProgress s' (.verify 0))
  | .verify i => loopMove (verifyBody P) (lenArg s) i .verify busFault verifyDone s

/-- The command in progress from its position to its end, once it is past its checks (R57). -/
def resume (P : Params) (s : State) : State :=
  match s.progress with
  | .idle => s
  | .accepted => s
  | .initReads c => initBind P c s
  | .core c j => coreFrom P c j s
  | .oneshotReads => oneshotRun P s
  | .oneshot j => oneshotFrom P j s
  | .encodeDigest => encodeRun P s
  | .encode i => encodeFrom P i s
  | .verifyDigest => verifyRun P s
  | .verify i => verifyFrom P i s

/-- The engine runs to the end of the command in progress: an accepted word is decoded (R72), an illegal one
raises CmdFault(ILLEGAL) (R73), a command has its meaning `ex`; an idle engine does nothing (R129). -/
def engineRun (P : Params) (ex : Instr → State → Host.Outcome State Fault Refusal) (s : State) :
    Host.Outcome State Fault Refusal :=
  match s.progress with
  | .accepted =>
    match decode s.cmd with
    | .illegal _ => .next (raiseCmdFault s .illegal)
    | .command i => ex i s
  | _ => .next (resume P s)

/-! ### Reset and power -/

/-- The data-memory write that the engine's position has in progress, if any: first address and length. -/
def writeInProgress (s : State) : Option Buffer :=
  match s.progress with
  | .core _ j => if j < blockCount s then some (dstAddr s + 8 * j, 8) else none
  | .oneshot j => if j < blockCount s then some (dstAddr s + 8 * j, 8) else none
  | .encode i => if i < lenArg s then some (dstAddr s + i, 1) else none
  | .idle | .accepted | .initReads _ | .oneshotReads | .encodeDigest | .verifyDigest | .verify _ => none

/-- A command in progress is abandoned: bytes written stay, those of the write in progress are free values,
no further byte is written (R127, I6). -/
def abandon (P : Params) (s : State) : State :=
  match writeInProgress s with
  | none => { s with progress := .idle, busy := false }
  | some b =>
    { s with
      progress := .idle, busy := false
      mem := scramble P s.ram s.mem b.1 s.free b.2, free := s.free + b.2 }

/-- The reset input is asserted (R126, R127): every piece of the block's state at its reset value; data memory
and what is the outside world's (the memory map among it) stay. -/
def applyReset (P : Params) (s : State) : State :=
  { resetFor P s.ram s.volatile with
    mem := (abandon P s).mem, free := (abandon P s).free, env := s.env, resp := s.resp }

/-- Power or clock is removed (R125, R128): the command in progress is abandoned, and the block has no step
before a reset. R128 calls the block's state, key stores included, unspecified from then to the reset; DESIGN CHOICE
(notes/assumptions 17): BUSY is 0, the engine idle, and every other piece of state, so also `irq`, as it was. -/
def losePower (P : Params) (s : State) : State := { abandon P s with powered := false }

/-- The platform will answer one of the running command's byte accesses with a bus error (R111). -/
def armBusError (n : Nat) (s : State) : State := if s.busy then { s with busErrIn := some n } else s

/-! ### One move of the machine -/

/-- What happens on an event while the block has been reset since power-up. -/
def onEvent (P : Params) (ex : Instr → State → Host.Outcome State Fault Refusal) (e : Event) (s : State) :
    Host.Outcome State Fault Refusal :=
  match e with
  | .host op => .next (hostAccess P op s)
  | .run => engineRun P ex s
  | .tick => .next (tick P s)
  | .reset => .next (applyReset P s)
  | .powerLoss => .next (losePower P s)
  | .busError n => .next (armBusError n s)

/-- What happens on an event before the first reset after power-up: only a reset, or another loss of power,
is a step (R128, I7). -/
def onEventUnpowered (P : Params) (e : Event) (s : State) : Host.Outcome State Fault Refusal :=
  match e with
  | .reset => .next (applyReset P s)
  | .powerLoss => .next s
  | .host _ => .fault .notReset
  | .run => .fault .notReset
  | .tick => .fault .notReset
  | .busError _ => .fault .notReset

/-- One move of the machine: the next event of the outside world; where none is pending, the engine runs the
command in progress to its end (R141), and an idle engine stays idle (R129). -/
def move (P : Params) (ex : Instr → State → Host.Outcome State Fault Refusal) (s : State) :
    Host.Outcome State Fault Refusal :=
  match s.env with
  | [] => if s.powered then engineRun P ex s else .fault .notReset
  | e :: rest =>
    if s.powered then onEvent P ex e { s with env := rest } else onEventUnpowered P e { s with env := rest }

end Sys2Proof.Machine
end

