-- ==== Sys2Proof/Machine/Step.lean ====
section
/-! DEFINITION. One step of the modelled block in its surroundings. -/

namespace Sys2Proof.Machine

/-- One step: one move of the machine under its own configuration and meanings. -/
def step (s : State) : Host.Outcome State Fault Refusal := move Config.chip exec s

/-- `s` with the command word `w` just accepted (R32) and the engine next to move: the very next step decodes
and runs it. The block fetches nothing (R20): this stands for the host's write of CMD. -/
def State.withFetchWord (s : State) (nbits w : Nat) : State :=
  { accept s (BitVec.ofNat 32 (w % 2 ^ nbits)) with env := .run :: s.env, powered := true }

end Sys2Proof.Machine
end

