-- ==== Sys2Proof/Machine/Script.lean ====
section
/-! DEFINITION. The host script of spec/30_encoding.md R76 and the pseudo-instructions of R77, as the events
they make. The syntax is the spec's own and no hardware property (D33). -/

namespace Sys2Proof.Machine

/-- `wr NAME, v` (R76). -/
def scriptWr (P : Params) (r : RegName) (v : Word) : Event := .host (.write (P.base + regOffset r) 32 v)

/-- `rd NAME` (R76). -/
def scriptRd (P : Params) (r : RegName) : Event := .host (.read (P.base + regOffset r) 32)

/-- `wait` (R76): STATUS is read until BUSY is 0. The engine comes to its end (R141), then the read that ends
the spin is made; reads before it change nothing. -/
def scriptWait (P : Params) : List Event := [.run, scriptRd P .status]

/-- `ofb.init cN, key, iv, mode` (R77). -/
def scriptOfbInit (P : Params) (c : Nat) (key iv mode : Word) : List Event :=
  [scriptWr P .key key, scriptWr P .iv iv, scriptWr P .mode mode,
   scriptWr P .cmd (encode (.ofbInit c))] ++ scriptWait P

/-- `ofb.core cN, dst, src, len` (R77). -/
def scriptOfbCore (P : Params) (c : Nat) (dst src len : Word) : List Event :=
  [scriptWr P .dst dst, scriptWr P .src src, scriptWr P .len len,
   scriptWr P .cmd (encode (.ofbCore c))] ++ scriptWait P

/-- `ofb.finish cN` (R77). -/
def scriptOfbFinish (P : Params) (c : Nat) : List Event :=
  scriptWr P .cmd (encode (.ofbFinish c)) :: scriptWait P

/-- `ofb.oneshot dst, src, key, iv, len, mode` (R77). -/
def scriptOfbOneshot (P : Params) (dst src key iv len mode : Word) : List Event :=
  [scriptWr P .dst dst, scriptWr P .src src, scriptWr P .key key, scriptWr P .iv iv,
   scriptWr P .len len, scriptWr P .mode mode, scriptWr P .cmd (encode (.ofbOneshot 0))] ++ scriptWait P

/-- `pkcs1.encode dst, dig, k` (R77). -/
def scriptPkcs1Encode (P : Params) (dst dig k : Word) : List Event :=
  [scriptWr P .dst dst, scriptWr P .dig dig, scriptWr P .len k,
   scriptWr P .cmd (encode (.pkcs1Encode 0))] ++ scriptWait P

/-- `pkcs1.verify src, dig, k` (R77). -/
def scriptPkcs1Verify (P : Params) (src dig k : Word) : List Event :=
  [scriptWr P .src src, scriptWr P .dig dig, scriptWr P .len k,
   scriptWr P .cmd (encode (.pkcs1Verify 0))] ++ scriptWait P

end Sys2Proof.Machine
end

