-- ==== Sys2Proof/Safety.lean ====
section
/-! DEFINITION. What claims call a sound state, a faulted run and a dutiful host (spec/60_exceptions.md R112;
spec/10_state.md R27, R33 to R41; spec/70_reset_and_hazards.md R132 to R138), and the plain situation in which
no access of a command is answered with an error or raced. -/

namespace Sys2Proof

open Sys2Proof.Machine

/-- No fault has been recorded since reset (R112: "claims take `R[FAULTS] = 0` at the end as a premise"). -/
abbrev FaultFree (s : State) : Prop := s.faults = 0

/-- The engine's position fits the slots and the operands (R41, R69, R83). -/
def PositionOk (P : Params) (s : State) : Prop :=
  match s.progress with
  | .initReads c => c < P.numCtx ∧ (slotAt P s c).state ≠ .initialized
  | .core c j => c < P.numCtx ∧ (slotAt P s c).state = .initialized ∧ j ≤ blockCount s
  | .oneshot j => j ≤ blockCount s
  | .encode i => i ≤ lenArg s
  | .verify i => i ≤ lenArg s
  | .idle | .accepted | .oneshotReads | .encodeDigest | .verifyDigest => True

/-- The invariant of the block's own state while it is under power and was reset. -/
structure BlockInv (P : Params) (s : State) : Prop where
  /-- BUSY is 1 exactly while a command is in progress (R27). -/
  busy_iff : s.busy = true ↔ s.progress ≠ .idle
  /-- "`BUSY = 1` and `DONE = 1` never hold together" (R27). -/
  not_both : ¬ (s.busy = true ∧ s.done = true)
  /-- CODE is 0 while a command is in progress (R27). -/
  code_busy : s.busy = true → s.code = .ok
  /-- Every slot's key copy has `KEY_BYTES` bytes (R33). -/
  key_length : ∀ c < 15, (slotAt P s c).key.length = P.keyBytes
  /-- A slot that holds no live context is zeroized (R35, R44, R89). -/
  dead_zero : ∀ c < 15, (slotAt P s c).state ≠ .initialized →
    (slotAt P s c).mode = .encrypt ∧ (slotAt P s c).key = zeros P.keyBytes ∧ (slotAt P s c).fb = zeroBlock
  /-- There is no storage at or above `NUM_CTX` (R33). -/
  no_storage : ∀ c < 15, P.numCtx ≤ c → slotAt P s c = emptySlot P
  /-- Outside an OFB_ONESHOT in progress the scratch context is zero (R39). -/
  scratch_zero : (∀ j, s.progress ≠ .oneshot j) → s.scratch = zeroScratch P
  /-- The scratch key has `KEY_BYTES` bytes (R39). -/
  scratch_length : s.scratch.key.length = P.keyBytes
  /-- The digest buffer has `HASH_LEN` bytes (R40). -/
  dbuf_length : s.dbuf.length = P.hashLen
  /-- The engine's position is one that its command reaches (R41). -/
  position : PositionOk P s

/-- The invariant of every state that a run from reset reaches: data memory keeps its canonical form, and,
between reset and a loss of power, the block's own invariant holds. -/
structure Inv (P : Params) (s : State) : Prop where
  mem_wf : MemWf s.mem
  block : s.powered = true → BlockInv P s

/-! ### The plain situation: no race, no bus error -/

/-- The host kept R134 so far in this command, and the platform has announced no bus error. -/
abbrev Quiet (s : State) : Prop := s.raced = [] ∧ s.busErrIn = none

/-- The `n` bytes from `a` up are backed data memory (R45, R47). -/
abbrev Backed (P : Params) (s : State) (a n : Nat) : Prop := allBacked P s.ram a n = true

/-- The `n` bytes from `a` up are plain memory: reading them has no side effect (R55). -/
abbrev Plain (s : State) (a n : Nat) : Prop := allPlain s.volatile a n = true

/-- A buffer as the host's duty wants an input to be: backed and plain memory (R45, R55). -/
abbrev Readable (P : Params) (s : State) (a n : Nat) : Prop := Backed P s a n ∧ Plain s a n

/-- The bytes in data memory from `a` up, as a string (R12). -/
def memString (m : Memory) (a n : Nat) : List Byte := (List.range n).map (fun i => memGet m (a + i))

/-- The 8 bytes in data memory from `a` up, as a block. -/
def memBlock (m : Memory) (a : Nat) : Block := Vector.ofFn (fun i : Fin 8 => memGet m (a + i.val))

/-- The feedback value after `n` blocks from `fb`: `z_0 = fb`, `z_{i+1} = E(K, z_i)` (R86). -/
def keystream (P : Params) (key : List Byte) (fb : Block) : Nat → Block
  | 0 => fb
  | n + 1 => P.E key (keystream P key fb n)

/-- Two buffers of the same length that are disjoint or the same (D15: "A cautious reader restricts claims to
disjoint or identical buffers"). -/
abbrev DisjointOrSame (a b n : Nat) : Prop := a = b ∨ a + n ≤ b ∨ b + n ≤ a

/-- Two buffers without a common byte. -/
abbrev Disjoint (a m b n : Nat) : Prop := a + m ≤ b ∨ b + n ≤ a

/-- Data memory reads the same everywhere outside the `n` bytes from `a` up. -/
def SameOutside (m m' : Memory) (a n : Nat) : Prop := ∀ x, (x < a ∨ a + n ≤ x) → memGet m' x = memGet m x

/-- Data memory goes from `s` to `t` block by block in the order of R56: content `j + 1` is content `j` with output
block `j` replaced by data block `j` of content `j` XOR keystream block `z_{j+1}`. -/
def PassesInOrder (P : Params) (key : List Byte) (fb : Block) (s t : State) : Prop :=
  ∃ m : Nat → Memory, m 0 = s.mem ∧ t.mem = m (lenArg s / 8) ∧ ∀ j < lenArg s / 8,
    (∀ i : Fin 8, memGet (m (j + 1)) (dstAddr s + 8 * j + i) =
      memGet (m j) (srcAddr s + 8 * j + i) ^^^ (keystream P key fb (j + 1))[i]) ∧
    SameOutside (m j) (m (j + 1)) (dstAddr s + 8 * j) 8

/-- What a bus error at data block `m` leaves in data memory (R83, R111): output blocks before it are data XOR
keystream, each byte of output block `m` has its old value or data XOR keystream (I5; where the read of the block
fails the second value is the model's choice, notes/assumptions 15), and no other byte changes. -/
def TornAtBlock (P : Params) (key : List Byte) (fb : Block) (m : Nat) (s t : State) : Prop :=
  (∀ j (i : Fin 8), j < m →
    memGet t.mem (dstAddr s + 8 * j + i) =
      memGet s.mem (srcAddr s + 8 * j + i) ^^^ (keystream P key fb (j + 1))[i]) ∧
  (∀ i : Fin 8,
    memGet t.mem (dstAddr s + 8 * m + i) = memGet s.mem (dstAddr s + 8 * m + i) ∨
    memGet t.mem (dstAddr s + 8 * m + i) =
      memGet s.mem (srcAddr s + 8 * m + i) ^^^ (keystream P key fb (m + 1))[i]) ∧
  SameOutside s.mem t.mem (dstAddr s) (8 * m + 8)

/-- An engine read of the byte at `a` gives one of the values `vs`, and each of them for some free value. -/
def ReadsOneOf (P : Params) (s : State) (a : Nat) (vs : List Byte) : Prop :=
  (∀ k, engineByte P s a k ∈ vs) ∧ ∀ k, ∀ v ∈ vs, ∃ n, engineByte { P with free := fun _ => n } s a k = v

/-- A host read of the data-memory byte at `a` gives one of the values `vs`, and each of them for some free value. -/
def HostReadsOneOf (P : Params) (s : State) (a : Nat) (vs : List Byte) : Prop :=
  (∃ v ∈ vs, (hostAccess P (.memRead a) s).resp = .byte v) ∧
  ∀ v ∈ vs, ∃ n, (hostAccess { P with free := fun _ => n } (.memRead a) s).resp = .byte v

/-- What a command answers, and then, where it completed with Ok, what the next command answers (R92). -/
def thenIfOk (o : Host.Outcome State Fault Refusal) (next : State → Host.Outcome State Fault Refusal) :
    Host.Outcome State Fault Refusal :=
  match o with
  | .next t => if t.code = .ok then next t else .next t
  | .fault f => .fault f
  | .refused r => .refused r

/-- The condition under which a command raises CmdFault(SEQ) (R109). -/
def SeqCase (P : Params) (s : State) : Instr → Prop
  | .ofbInit c => c < P.numCtx ∧ (slotAt P s c).state = .initialized
  | .ofbCore c => c < P.numCtx ∧ (slotAt P s c).state ≠ .initialized
  | .ofbFinish c => c < P.numCtx ∧ (slotAt P s c).state = .finished
  | .ofbOneshot _ | .pkcs1Encode _ | .pkcs1Verify _ => False

/-- The state with the slots' recorded directions replaced by `ms`, everything else as it is. -/
def withModes (s : State) (ms : Vector Direction 15) : State :=
  { s with slots := Vector.zipWith (fun sl m => { sl with mode := m }) s.slots ms }

/-- The state with every secret replaced: the slots' keys and feedback registers by `ks`, the scratch
context, the digest buffer and the codec's accumulator (R36, R39, R40). -/
def withSecrets (s : State) (ks : Vector (List Byte × Block) 15) (sc : Scratch) (db : List Byte) (df : Byte) :
    State :=
  { s with
    slots := Vector.zipWith (fun sl k => { sl with key := k.1, fb := k.2 }) s.slots ks
    scratch := sc, dbuf := db, diff := df }

/-! ### Host duties -/

/-- R133: no CMD write while a command runs. -/
def DutyOneCommand (P : Params) (e : Event) (s : State) : Prop :=
  ∀ addr width v, e = .host (.write addr width v) → target P addr width = .register .cmd → s.busy = false

/-- R134: while a command runs, no write to its buffers and no read of its output buffer. -/
def DutyBuffers (P : Params) (e : Event) (s : State) : Prop :=
  s.busy = true →
    (∀ a b, e = .host (.memWrite a b) → inSomeBuffer P s a = false) ∧
    (∀ a, e = .host (.memRead a) → inOutput s a = false)

/-- R137: the sequence of OFB commands on a slot, for an accepted word that decodes to one. -/
def DutySequence (P : Params) (i : Instr) (s : State) : Prop :=
  match i with
  | .ofbInit c => (slotAt P s c).state ≠ .initialized
  | .ofbCore c => (slotAt P s c).state = .initialized
  | .ofbFinish c => (slotAt P s c).state ≠ .finished
  | .ofbOneshot _ | .pkcs1Encode _ | .pkcs1Verify _ => True

end Sys2Proof
end

