-- ==== Sys2Proof/Certificates/Slice0/Obligations.lean ====
section
/-! DEFINITION. The statements about the model, one `def Obligations.<Name> : Prop` each. "Plain situation" in a
docstring means `Quiet s` (no race, no bus error announced by the platform), every buffer byte backed, and every input
byte plain memory (R55; notes/assumptions 28). What the outside world does is an event at the head of `env`, which the
step that takes it consumes, and the answer to a host access stands in `resp`: that form is the model's
(notes/assumptions 4, 10, 12). The codec's `dbuf` and `diff` between commands are the model's too, since R40 and R44
leave `dbuf` unspecified there and no rule gives `diff` a value: where a statement says that they stay, or that nothing
else changes, it is the model's choice for these two (notes/assumptions 6, 7). -/

open Sys2Proof Sys2Proof.Machine

/-! ### The command word -/

/-- R66 to R68, R72: no bit of a command word is dropped. -/
def Obligations.DecodeOfEncode : Prop :=
  ∀ i : Instr, i.WellFormed → decode (encode i) = .command i

/-- R66, R68, R72: a word that decodes to a command is that command's word, and the command is well formed. -/
def Obligations.EncodeOfDecode : Prop :=
  ∀ (w : Word) (i : Instr), decode w = .command i → i.WellFormed ∧ encode i = w

/-- R75 and the encoding vectors of 95_test_vectors.md section 3. -/
def Obligations.SpecWordsDecode : Prop :=
  decode 0x00000001 = .command (.ofbInit 0) ∧ decode 0x00000E01 = .command (.ofbInit 14) ∧
  decode 0x00000202 = .command (.ofbCore 2) ∧ decode 0x00000303 = .command (.ofbFinish 3) ∧
  decode 0x00000704 = .command (.ofbOneshot 7) ∧ decode 0x00000010 = .command (.pkcs1Encode 0) ∧
  decode 0x00000011 = .command (.pkcs1Verify 0) ∧ decode 0x00001001 = .illegal .reservedBits

/-- R73: exactly the words listed there are illegal, and the step that meets one, accepted, raises
CmdFault(ILLEGAL) and changes nothing but the status: with no event pending, on either event by which the engine
moves, and on a word placed by `withFetchWord`. The events, the size of a move and `withFetchWord` are the model's
form (notes/assumptions 10, 11, 19). -/
def Obligations.IllegalWordsFault : Prop :=
  ∀ w : Word,
    ((∃ why, decode w = .illegal why) ↔
      (w.extractLsb' 12 20 ≠ 0 ∨ w.extractLsb' 0 8 = 0x00 ∨
        (0x05 ≤ (w.extractLsb' 0 8).toNat ∧ (w.extractLsb' 0 8).toNat ≤ 0x0F) ∨
        0x12 ≤ (w.extractLsb' 0 8).toNat)) ∧
    ((∃ why, decode w = .illegal why) →
      (∀ s : State, s.powered = true → s.env = [] → s.progress = .accepted → s.cmd = w →
        step s = .next
          { s with
            faults := s.faults ||| 0b0010, code := .cmdFault, busy := false, done := true, progress := .idle
            accMem := [], raced := [], busErrIn := none }) ∧
      (∀ (s : State) (rest : List Event), s.powered = true → s.env = .run :: rest ∨ s.env = .tick :: rest →
        s.progress = .accepted → s.cmd = w →
        step s = .next
          { s with
            env := rest
            faults := s.faults ||| 0b0010, code := .cmdFault, busy := false, done := true, progress := .idle
            accMem := [], raced := [], busErrIn := none }) ∧
      (∀ s : State,
        step (s.withFetchWord 32 w.toNat) = .next
          { s with
            powered := true, cmd := w, lat := s.opr
            faults := s.faults ||| 0b0010, code := .cmdFault, busy := false, done := true, progress := .idle
            accMem := [], raced := [], busErrIn := none }))

/-- A step runs the decoded command (R57, R72): when the accepted word decodes to a command, the step is that
command's meaning, the pending event `run` (where there is one) consumed; and a word placed by `withFetchWord`
is run by the very next step, from the state that its acceptance makes. Events and `withFetchWord` are the model's
form (notes/assumptions 10, 19). -/
def Obligations.StepRunsDecoded : Prop :=
  (∀ (s : State) (i : Instr), s.powered = true → s.progress = .accepted → decode s.cmd = .command i →
    (s.env = [] → step s = exec i s) ∧
    (∀ rest, s.env = .run :: rest → step s = exec i { s with env := rest })) ∧
  (∀ (s : State) (w : Word) (i : Instr), decode w = .command i →
    step (s.withFetchWord 32 w.toNat) = exec i { accept s w with powered := true })

/-! ### Acceptance and registers -/

/-- R32: a CMD read, a CMD write while busy, a CMD write while idle, and what the engine then does. -/
def Obligations.CmdAccess : Prop :=
  ∀ (s : State) (w : Word) (rest : List Event), s.powered = true →
    (s.env = .host (.read (Config.chip.base + 0x20) 32) :: rest →
      step s = .next { s with env := rest, resp := .data s.cmd }) ∧
    (s.env = .host (.write (Config.chip.base + 0x20) 32 w) :: rest →
      (s.busy = true →
        step s = .next { s with env := rest, resp := .written, faults := s.faults ||| 0b0100 }) ∧
      (s.busy = false →
        ∃ t, step s = .next t ∧
          t = { s with
                env := rest, resp := .written, cmd := w, lat := s.opr, done := false, code := .ok
                busy := true, progress := .accepted, accMem := s.mem, raced := [], busErrIn := none } ∧
          (rest = [] → ∀ i, decode w = .command i → step t = exec i t)))

/-- R27, R70: the fields of STATUS, CODE by its number. -/
def Obligations.StatusFields : Prop :=
  ∀ s : State,
    (statusWord s).extractLsb' 0 1 = BitVec.ofBool s.busy ∧
    (statusWord s).extractLsb' 1 1 = BitVec.ofBool s.done ∧
    (statusWord s).extractLsb' 2 2 = 0 ∧
    (statusWord s).extractLsb' 4 3 =
      (if s.code = .ok then 0 else if s.code = .invalidInput then 1 else if s.code = .invalidOutput then 2
        else if s.code = .invalidArg then 3 else if s.code = .invalidMode then 4
        else if s.code = .verificationFailed then 5 else 7) ∧
    (statusWord s).extractLsb' 7 1 = 0 ∧
    (statusWord s).extractLsb' 8 1 = BitVec.ofBool (s.faults ≠ 0) ∧
    (statusWord s).extractLsb' 9 23 = 0

/-- R28: a host write of `v` to STATUS. -/
def Obligations.StatusWriteClearsDone : Prop :=
  ∀ (s : State) (v : Word) (rest : List Event), s.powered = true →
    s.env = .host (.write (Config.chip.base + 0x0C) 32 v) :: rest →
    step s = .next
      { s with env := rest, resp := .written, done := if v.getLsbD 1 then false else s.done }

/-- R22: an access to the window that is not a naturally aligned 32-bit one changes no state of the block and
gets a bus error response. That an access which covers window bytes together with others counts as one to the
window is the model's reading (notes/assumptions 13). -/
def Obligations.NarrowAccessRefused : Prop :=
  ∀ (s : State) (addr width : Nat) (v : Word) (rest : List Event), s.powered = true →
    Config.chip.base < addr + (width + 7) / 8 → addr < Config.chip.base + 64 →
    ¬ (width = 32 ∧ addr % 4 = 0) →
    (s.env = .host (.read addr width) :: rest ∨ s.env = .host (.write addr width v) :: rest) →
    step s = .next { s with env := rest, resp := .busError }

/-- R23, R26: writes to the read-only and unmapped positions change nothing, CTRL keeps bit 0 only, and offset
0x1C reads 0. -/
def Obligations.ReadOnlyAndReserved : Prop :=
  ∀ (s : State) (v : Word) (rest : List Event), s.powered = true →
    (∀ off ∈ [0x00, 0x04, 0x10, 0x14, 0x18, 0x1C],
      s.env = .host (.write (Config.chip.base + off) 32 v) :: rest →
      step s = .next { s with env := rest, resp := .written }) ∧
    (s.env = .host (.write (Config.chip.base + 0x08) 32 v) :: rest →
      ∃ t, step s = .next t ∧ t = { s with env := rest, resp := .written, irqEn := v.getLsbD 0 } ∧
        readReg Config.chip t .ctrl = if v.getLsbD 0 then 1 else 0) ∧
    (s.env = .host (.read (Config.chip.base + 0x1C) 32) :: rest →
      step s = .next { s with env := rest, resp := .data 0 })

/-- R21, R22: the sixteen positions stand at offsets 0, 4, .. 0x3C in the order of R21's table, and an aligned
32-bit read of a position returns its value and changes nothing of the block. The value of each position is the
register's: the configuration words (R24, R25), CTRL (R26), STATUS (R27), the four cause bits under 28 reserved zeros
(R29), CTXSTAT (R30), CTXMODE (R31), 0 (R23), CMD (R32) and the operand registers (R37). -/
def Obligations.RegisterMapReads : Prop :=
  [RegName.cfg0, .cfg1, .ctrl, .status, .faults, .ctxStat, .ctxMode, .unmapped, .cmd, .dst, .src, .len, .key,
    .iv, .mode, .dig].map regOffset = (List.range 16).map (4 * ·) ∧
  (∀ (s : State) (r : RegName) (rest : List Event), s.powered = true →
    s.env = .host (.read (Config.chip.base + regOffset r) 32) :: rest →
    step s = .next { s with env := rest, resp := .data (readReg Config.chip s r) }) ∧
  ∀ (P : Params) (s : State),
    readReg P s .cfg0 = cfg0Word P ∧ readReg P s .cfg1 = cfg1Word P ∧
    readReg P s .ctrl = (if s.irqEn then 1 else 0) ∧ readReg P s .status = statusWord s ∧
    (readReg P s .faults).extractLsb' 0 4 = s.faults ∧ (readReg P s .faults).extractLsb' 4 28 = 0 ∧
    readReg P s .ctxStat = ctxStatWord P s ∧ readReg P s .ctxMode = ctxModeWord P s ∧
    readReg P s .unmapped = 0 ∧ readReg P s .cmd = s.cmd ∧
    readReg P s .dst = s.opr.dst ∧ readReg P s .src = s.opr.src ∧ readReg P s .len = s.opr.len ∧
    readReg P s .key = s.opr.key ∧ readReg P s .iv = s.opr.iv ∧ readReg P s .mode = s.opr.mode ∧
    readReg P s .dig = s.opr.dig

/-- R21, R37, R140: the step that takes an aligned 32-bit host write at an operand register's offset writes that
register and nothing else of the block; the register reads as it was last written, at once and also while a command
runs, and the other positions and the latched operands are as before. -/
def Obligations.OperandRegisterReadBack : Prop :=
  (∀ (P : Params) (s : State) (r r' : RegName) (v : Word),
    r ∈ [RegName.dst, .src, .len, .key, .iv, .mode, .dig] →
    readReg P (writeReg s r v) r = v ∧ (writeReg s r v).lat = s.lat ∧
    (r' ≠ r → readReg P (writeReg s r v) r' = readReg P s r')) ∧
  (∀ (s : State) (r : RegName) (v : Word) (rest : List Event), s.powered = true →
    r ∈ [RegName.dst, .src, .len, .key, .iv, .mode, .dig] →
    s.env = .host (.write (Config.chip.base + regOffset r) 32 v) :: rest →
    step s = .next { writeReg s r v with env := rest, resp := .written }) ∧
  ∀ (s : State) (v : Word),
    writeReg s .dst v = { s with opr := { s.opr with dst := v } } ∧
    writeReg s .src v = { s with opr := { s.opr with src := v } } ∧
    writeReg s .len v = { s with opr := { s.opr with len := v } } ∧
    writeReg s .key v = { s with opr := { s.opr with key := v } } ∧
    writeReg s .iv v = { s with opr := { s.opr with iv := v } } ∧
    writeReg s .mode v = { s with opr := { s.opr with mode := v } } ∧
    writeReg s .dig v = { s with opr := { s.opr with dig := v } }

/-- R30, R34: CTXSTAT holds the state of each slot by its number, and 0 above. -/
def Obligations.CtxStatFields : Prop :=
  (∀ (P : Params) (s : State) (j : Nat), j < 16 →
    (ctxStatWord P s).extractLsb' (2 * j) 2 =
      if j < P.numCtx then
        if (slotAt P s j).state = .uninit then 0 else if (slotAt P s j).state = .initialized then 1 else 2
      else 0) ∧
  ctxStatWord Config.chip State.reset = 0

/-- R31, R71: CTXMODE holds the mode bit of each slot, Encrypt 0 and Decrypt 1, and 0 above. -/
def Obligations.CtxModeFields : Prop :=
  (∀ (P : Params) (s : State) (j : Nat), j < 32 →
    (ctxModeWord P s).extractLsb' j 1 =
      if j < P.numCtx then if (slotAt P s j).mode = .encrypt then 0 else 1 else 0) ∧
  ctxModeWord Config.chip State.reset = 0

/-- R24, R25: CFG0 and CFG1 report the configuration. -/
def Obligations.ConfigurationWords : Prop :=
  ∀ P : Params,
    ((cfg0Word P).extractLsb' 0 4).toNat = P.numCtx ∧ (cfg0Word P).extractLsb' 4 4 = 0 ∧
    ((cfg0Word P).extractLsb' 8 8).toNat = P.hashLen ∧ ((cfg0Word P).extractLsb' 16 8).toNat = P.diLen ∧
    ((cfg0Word P).extractLsb' 24 8).toNat = 8 ∧
    ((cfg1Word P).extractLsb' 0 16).toNat = P.keyBytes ∧ (cfg1Word P).extractLsb' 16 16 = 0

/-- R36: no register read depends on a key, a feedback register, the scratch context or the digest buffer. -/
def Obligations.RegisterReadsHideSecrets : Prop :=
  ∀ (P : Params) (s : State) (ks : Vector (List Byte × Block) 15) (sc : Scratch) (db : List Byte) (df : Byte)
    (r : RegName), readReg P (withSecrets s ks sc db df) r = readReg P s r

/-! ### What every command does -/

/-- R105: every command, from every state, ends with one completion: the engine is idle, BUSY is 0, DONE is 1,
and CMD, the operand registers, the latched operands, CTRL and the outside world are as before. -/
def Obligations.EveryCommandCompletes : Prop :=
  ∀ (i : Instr) (s : State), ∃ t, exec i s = .next t ∧
    t.busy = false ∧ t.done = true ∧ t.progress = .idle ∧
    t.cmd = s.cmd ∧ t.opr = s.opr ∧ t.lat = s.lat ∧ t.irqEn = s.irqEn ∧
    t.env = s.env ∧ t.resp = s.resp ∧ t.powered = s.powered ∧ t.ram = s.ram ∧ t.volatile = s.volatile

/-- R42, R113: IRQ follows completion, acknowledge, acceptance and the mask. -/
def Obligations.InterruptFollowsDone : Prop :=
  (∀ (i : Instr) (s t : State), exec i s = .next t → irq t = s.irqEn) ∧
  (∀ (s : State) (v : Word), v.getLsbD 1 = true → irq (writeReg s .status v) = false) ∧
  (∀ (s : State) (w : Word), s.busy = false → irq (writeReg s .cmd w) = false) ∧
  (∀ (s : State) (v : Word), v.getLsbD 0 = false →
    irq (writeReg s .ctrl v) = false ∧ (writeReg s .ctrl v).done = s.done)

/-- R79, R106: a command that ends with a validation error has changed nothing but the status. -/
def Obligations.ValidationPrecedesMutation : Prop :=
  ∀ (i : Instr) (s t : State), exec i s = .next t →
    t.code ∈ [StatusCode.invalidInput, .invalidOutput, .invalidArg, .invalidMode] → t = complete s t.code

/-- R108, R110: code 7 comes with exactly one new cause, SEQ or BUS_ERROR, and no other code touches FAULTS;
VerificationFailed comes from PKCS1_VERIFY only (R106). -/
def Obligations.FaultsRecordCode7 : Prop :=
  ∀ (i : Instr) (s t : State), exec i s = .next t →
    (t.code = .cmdFault → t.faults = s.faults ||| 0b0001 ∨ t.faults = s.faults ||| 0b1000) ∧
    (t.code ≠ .cmdFault → t.faults = s.faults) ∧
    (t.code = .verificationFailed → ∃ x, i = .pkcs1Verify x)

/-- R109: CmdFault(SEQ) is raised in exactly the cases listed there, and changes nothing but the status. -/
def Obligations.SequenceFaultsExactly : Prop :=
  ∀ (i : Instr) (s t : State), s.faults = 0 → exec i s = .next t →
    (t.faults = 0b0001 ↔ SeqCase Config.chip s i) ∧
    (SeqCase Config.chip s i →
      t = { s with
            faults := 0b0001, code := .cmdFault, busy := false, done := true, progress := .idle
            accMem := [], raced := [], busErrIn := none })

/-- R35: the slot state machine has exactly the transitions of its table. -/
def Obligations.SlotTransitions : Prop :=
  ∀ (i : Instr) (s t : State) (c : Nat), exec i s = .next t → c < 15 →
    (slotAt Config.chip t c).state = (slotAt Config.chip s c).state ∨
    (i = .ofbInit c ∧ (slotAt Config.chip s c).state ≠ .initialized ∧
      (slotAt Config.chip t c).state = .initialized ∧ t.code = .ok) ∨
    (i = .ofbFinish c ∧ (slotAt Config.chip s c).state ≠ .finished ∧
      slotAt Config.chip t c = { emptySlot Config.chip with state := .finished } ∧ t.code = .ok)

/-- R84: no command's memory, feedback value, key or status depends on the recorded directions. -/
def Obligations.ModeIndependence : Prop :=
  ∀ (i : Instr) (s t t' : State) (ms : Vector Direction 15),
    exec i s = .next t → exec i (withModes s ms) = .next t' →
    t'.mem = t.mem ∧ t'.code = t.code ∧ t'.faults = t.faults ∧ t'.scratch = t.scratch ∧
    ∀ c < 15, (slotAt Config.chip t' c).fb = (slotAt Config.chip t c).fb ∧
      (slotAt Config.chip t' c).key = (slotAt Config.chip t c).key ∧
      (slotAt Config.chip t' c).state = (slotAt Config.chip t c).state

/-- Frames of the commands that store nothing, from every state: OFB_INIT, OFB_FINISH and PKCS1_VERIFY. That `dbuf` and
`diff` stay is the model's choice (notes/assumptions 6, 7). -/
def Obligations.FrameWithoutStore : Prop :=
  (∀ (c : Nat) (s t : State), exec (.ofbInit c) s = .next t ∨ exec (.ofbFinish c) s = .next t →
    t.mem = s.mem ∧ t.scratch = s.scratch ∧ t.dbuf = s.dbuf ∧ t.diff = s.diff ∧
    ∀ d, d ≠ c → slotAt Config.chip t d = slotAt Config.chip s d) ∧
  (∀ (x : Nat) (s t : State), exec (.pkcs1Verify x) s = .next t →
    t.mem = s.mem ∧ t.scratch = s.scratch ∧ t.slots = s.slots)

/-- Frames of the commands that store, from every state, a bus error included: OFB_CORE, OFB_ONESHOT and
PKCS1_ENCODE write no byte outside the `L_LEN` bytes at `L_DST`. That `dbuf` and `diff` stay where the command does not
fill them is the model's choice (notes/assumptions 6, 7). -/
def Obligations.FrameWithStore : Prop :=
  (∀ (c : Nat) (s t : State), exec (.ofbCore c) s = .next t →
    SameOutside s.mem t.mem (dstAddr s) (lenArg s) ∧ t.scratch = s.scratch ∧ t.dbuf = s.dbuf ∧
    t.diff = s.diff ∧ (∀ d, d ≠ c → slotAt Config.chip t d = slotAt Config.chip s d) ∧
    slotAt Config.chip t c = { slotAt Config.chip s c with fb := (slotAt Config.chip t c).fb }) ∧
  (∀ (x : Nat) (s t : State), exec (.ofbOneshot x) s = .next t →
    SameOutside s.mem t.mem (dstAddr s) (lenArg s) ∧ t.slots = s.slots ∧ t.dbuf = s.dbuf ∧
    t.diff = s.diff ∧ (t.scratch = s.scratch ∨ t.scratch = zeroScratch Config.chip)) ∧
  (∀ (x : Nat) (s t : State), exec (.pkcs1Encode x) s = .next t →
    SameOutside s.mem t.mem (dstAddr s) (lenArg s) ∧ t.slots = s.slots ∧ t.scratch = s.scratch ∧
    t.diff = s.diff)

/-! ### The OFB driver -/

/-- R81: OFB_INIT, all checks passing, binds key, IV and mode in the plain situation. -/
def Obligations.InitBinds : Prop :=
  ∀ (c : Nat) (s : State), c < Config.chip.numCtx → (slotAt Config.chip s c).state ≠ .initialized →
    s.lat.key ≠ 0 → s.lat.iv ≠ 0 → (s.lat.mode = 1 ∨ s.lat.mode = 2) → Quiet s →
    Readable Config.chip s (keyAddr s) Config.chip.keyBytes → Readable Config.chip s (ivAddr s) 8 →
    exec (.ofbInit c) s = .next
      { s with
        slots := s.slots.setIfInBounds c
          { state := .initialized, mode := if s.lat.mode = 2 then .decrypt else .encrypt
            key := memString s.mem (keyAddr s) Config.chip.keyBytes, fb := memBlock s.mem (ivAddr s) }
        code := .ok, busy := false, done := true, progress := .idle
        accMem := [], raced := [], busErrIn := none }

/-- R81, R80, R107: the outcome of OFB_INIT in the order of its checks; past them it is Ok, or a bus error that
changes no slot (R111). -/
def Obligations.InitOutcomes : Prop :=
  ∀ (c : Nat) (s : State), ∃ t, exec (.ofbInit c) s = .next t ∧
    if Config.chip.numCtx ≤ c then t = complete s .invalidOutput
    else if (slotAt Config.chip s c).state = .initialized then t = raiseCmdFault s .seq
    else if s.lat.key = 0 ∨ s.lat.iv = 0 then t = complete s .invalidInput
    else if s.lat.mode ≠ 1 ∧ s.lat.mode ≠ 2 then t = complete s .invalidMode
    else if 2 ^ 32 < keyAddr s + Config.chip.keyBytes ∨ 2 ^ 32 < ivAddr s + 8 then
      t = complete s .invalidArg
    else if accessFails Config.chip s (keyAddr s) Config.chip.keyBytes = true then
      t = raiseCmdFault s .busError
    else t.code = .ok ∧ t.faults = s.faults ∧ (slotAt Config.chip t c).state = .initialized ∨
      t = raiseCmdFault s .busError

/-- R82: OFB_INIT on a live context raises CmdFault(SEQ) and changes nothing. -/
def Obligations.ReinitRefused : Prop :=
  ∀ (c : Nat) (s : State), c < Config.chip.numCtx → (slotAt Config.chip s c).state = .initialized →
    exec (.ofbInit c) s = .next
      { s with
        faults := s.faults ||| 0b0001, code := .cmdFault, busy := false, done := true, progress := .idle
        accMem := [], raced := [], busErrIn := none }

/-- R83, R78, R86: OFB_CORE, all checks passing, in the plain situation and with the data buffers disjoint or
the same: data block `j` is XORed with keystream block `z_{j+1}`, the feedback register is `z_n`, and nothing
else changes. -/
def Obligations.CoreStreams : Prop :=
  ∀ (c : Nat) (s : State), c < Config.chip.numCtx → (slotAt Config.chip s c).state = .initialized →
    s.lat.src ≠ 0 → s.lat.dst ≠ 0 → lenArg s ≠ 0 → lenArg s % 8 = 0 → Quiet s →
    Readable Config.chip s (srcAddr s) (lenArg s) → Backed Config.chip s (dstAddr s) (lenArg s) →
    DisjointOrSame (srcAddr s) (dstAddr s) (lenArg s) →
    ∃ t, exec (.ofbCore c) s = .next t ∧
      t = complete { s with mem := t.mem, slots := t.slots } .ok ∧
      (∀ j (i : Fin 8), j < lenArg s / 8 →
        memGet t.mem (dstAddr s + 8 * j + i) =
          memGet s.mem (srcAddr s + 8 * j + i) ^^^
            (keystream Config.chip (slotAt Config.chip s c).key (slotAt Config.chip s c).fb (j + 1))[i]) ∧
      SameOutside s.mem t.mem (dstAddr s) (lenArg s) ∧
      slotAt Config.chip t c =
        { slotAt Config.chip s c with
          fb := keystream Config.chip (slotAt Config.chip s c).key (slotAt Config.chip s c).fb
            (lenArg s / 8) } ∧
      ∀ d, d ≠ c → slotAt Config.chip t d = slotAt Config.chip s d

/-- R83, R80, R107: the outcome of OFB_CORE in the order of its checks; past them it is Ok or a bus error. -/
def Obligations.CoreOutcomes : Prop :=
  ∀ (c : Nat) (s : State), ∃ t, exec (.ofbCore c) s = .next t ∧
    if Config.chip.numCtx ≤ c then t = complete s .invalidOutput
    else if (slotAt Config.chip s c).state ≠ .initialized then t = raiseCmdFault s .seq
    else if s.lat.src = 0 then t = complete s .invalidInput
    else if s.lat.dst = 0 then t = complete s .invalidOutput
    else if lenArg s = 0 ∨ lenArg s % 8 ≠ 0 then t = complete s .invalidArg
    else if 2 ^ 32 < srcAddr s + lenArg s ∨ 2 ^ 32 < dstAddr s + lenArg s then
      t = complete s .invalidArg
    else if accessFails Config.chip s (srcAddr s) 8 = true then
      t.code = .cmdFault ∧ t.faults = s.faults ||| 0b1000 ∧ t.slots = s.slots
    else t.code = .ok ∧ t.faults = s.faults ∨ t.code = .cmdFault ∧ t.faults = s.faults ||| 0b1000

/-- Streaming: OFB_CORE of `L1` bytes and then of the next `L2` bytes on the same slot leaves the same output bytes and
the same feedback register as one OFB_CORE of `L1 + L2` bytes. For buffers that do not overlap this is R85, which says
no more; for those that do, it follows from R83's corner case ("partially overlapping buffers give the result of the
access order of R56") and R56, the spec's choice D15, which cautions a reader to restrict claims to disjoint or identical
buffers. -/
def Obligations.Streaming : Prop :=
  ∀ (c : Nat) (s t1 t2 t : State) (l1 l2 : Nat), c < Config.chip.numCtx →
    (slotAt Config.chip s c).state = .initialized → s.lat.src ≠ 0 → s.lat.dst ≠ 0 →
    0 < l1 → l1 % 8 = 0 → 0 < l2 → l2 % 8 = 0 → l1 + l2 < 2 ^ 32 → Quiet s →
    Readable Config.chip s (srcAddr s) (l1 + l2) → Backed Config.chip s (dstAddr s) (l1 + l2) →
    exec (.ofbCore c) { s with lat := { s.lat with len := BitVec.ofNat 32 l1 } } = .next t1 →
    exec (.ofbCore c)
      { t1 with lat := { t1.lat with
                         src := s.lat.src + BitVec.ofNat 32 l1, dst := s.lat.dst + BitVec.ofNat 32 l1
                         len := BitVec.ofNat 32 l2 } } = .next t2 →
    exec (.ofbCore c) { s with lat := { s.lat with len := BitVec.ofNat 32 (l1 + l2) } } = .next t →
    t1.code = .ok ∧ t2.code = .ok ∧ t.code = .ok ∧ t2.mem = t.mem ∧ t2.slots = t.slots

/-- R87: the round trip. What OFB_CORE wrote, processed again by a fresh context of the same key and IV, in
either direction, is the data that OFB_CORE read, whatever the cipher is. -/
def Obligations.RoundTrip : Prop :=
  ∀ (c d : Nat) (s t u : State) (mode : Direction) (dst2 : Word),
    c < Config.chip.numCtx → d < Config.chip.numCtx → (slotAt Config.chip s c).state = .initialized →
    s.lat.src ≠ 0 → s.lat.dst ≠ 0 → dst2 ≠ 0 → lenArg s ≠ 0 → lenArg s % 8 = 0 → Quiet s →
    Readable Config.chip s (srcAddr s) (lenArg s) → Readable Config.chip s (dstAddr s) (lenArg s) →
    Backed Config.chip s dst2.toNat (lenArg s) →
    DisjointOrSame (srcAddr s) (dstAddr s) (lenArg s) → DisjointOrSame (dstAddr s) dst2.toNat (lenArg s) →
    exec (.ofbCore c) s = .next t →
    exec (.ofbCore d)
      { setSlot t d
          { state := .initialized, mode := mode, key := (slotAt Config.chip s c).key
            fb := (slotAt Config.chip s c).fb } with
        lat := { s.lat with src := s.lat.dst, dst := dst2 } } = .next u →
    u.code = .ok ∧ memString u.mem dst2.toNat (lenArg s) = memString s.mem (srcAddr s) (lenArg s)

/-- R88: the XOR acts on 8 independent byte lanes. -/
def Obligations.ByteLanes : Prop :=
  ∀ (P : Params) (ks : List Byte) (fb d : Block) (i : Fin 8),
    (ofbStep P ks fb d).1[i] = d[i] ^^^ (P.E ks fb)[i] ∧ (ofbStep P ks fb d).2 = P.E ks fb

/-- R89, R90: OFB_FINISH on a present slot that is not FINISHED has no outcome but the zeroization and Ok. -/
def Obligations.FinishZeroizes : Prop :=
  ∀ (c : Nat) (s : State), c < Config.chip.numCtx → (slotAt Config.chip s c).state ≠ .finished →
    exec (.ofbFinish c) s = .next
      { s with
        slots := s.slots.setIfInBounds c
          { state := .finished, mode := .encrypt
            key := List.replicate Config.chip.keyBytes 0, fb := Vector.replicate 8 0 }
        code := .ok, busy := false, done := true, progress := .idle
        accMem := [], raced := [], busErrIn := none }

/-- R89, R107: the errors of OFB_FINISH: a missing context, and CmdFault(SEQ) on a FINISHED slot. -/
def Obligations.FinishErrors : Prop :=
  ∀ (c : Nat) (s : State),
    (Config.chip.numCtx ≤ c → exec (.ofbFinish c) s = .next (complete s .invalidOutput)) ∧
    (c < Config.chip.numCtx → (slotAt Config.chip s c).state = .finished →
      exec (.ofbFinish c) s = .next (raiseCmdFault s .seq))

/-- R91: OFB_ONESHOT, all checks passing, in the plain situation and with the data buffers disjoint or the
same: the data is XORed with the keystream of the key and IV in memory, the scratch context ends zero, and no
slot changes. The output may overlap key and IV. -/
def Obligations.OneshotRuns : Prop :=
  ∀ (x : Nat) (s : State), s.lat.key ≠ 0 → s.lat.iv ≠ 0 → (s.lat.mode = 1 ∨ s.lat.mode = 2) →
    s.lat.src ≠ 0 → s.lat.dst ≠ 0 → lenArg s ≠ 0 → lenArg s % 8 = 0 → Quiet s →
    Readable Config.chip s (keyAddr s) Config.chip.keyBytes → Readable Config.chip s (ivAddr s) 8 →
    Readable Config.chip s (srcAddr s) (lenArg s) → Backed Config.chip s (dstAddr s) (lenArg s) →
    DisjointOrSame (srcAddr s) (dstAddr s) (lenArg s) →
    ∃ t, exec (.ofbOneshot x) s = .next t ∧
      t = complete { s with mem := t.mem, scratch := zeroScratch Config.chip } .ok ∧
      (∀ j (i : Fin 8), j < lenArg s / 8 →
        memGet t.mem (dstAddr s + 8 * j + i) =
          memGet s.mem (srcAddr s + 8 * j + i) ^^^
            (keystream Config.chip (memString s.mem (keyAddr s) Config.chip.keyBytes)
              (memBlock s.mem (ivAddr s)) (j + 1))[i]) ∧
      SameOutside s.mem t.mem (dstAddr s) (lenArg s)

/-- R56, R83, R91: the order of accesses, which decides the result for every overlap of the data buffers, and of the
output with key and IV. In the plain situation data memory passes through `L_LEN / 8 + 1` contents, the first as before
the command and the last as after it: pass `j` reads data block `j` from content `j` and changes output block `j` only. -/
def Obligations.OverlapFollowsOrder : Prop :=
  (∀ (c : Nat) (s : State), c < Config.chip.numCtx → (slotAt Config.chip s c).state = .initialized →
    s.lat.src ≠ 0 → s.lat.dst ≠ 0 → lenArg s ≠ 0 → lenArg s % 8 = 0 → Quiet s →
    Readable Config.chip s (srcAddr s) (lenArg s) → Backed Config.chip s (dstAddr s) (lenArg s) →
    ∃ t, exec (.ofbCore c) s = .next t ∧ t = complete { s with mem := t.mem, slots := t.slots } .ok ∧
      slotAt Config.chip t c =
        { slotAt Config.chip s c with
          fb := keystream Config.chip (slotAt Config.chip s c).key (slotAt Config.chip s c).fb (lenArg s / 8) } ∧
      (∀ d, d ≠ c → slotAt Config.chip t d = slotAt Config.chip s d) ∧
      PassesInOrder Config.chip (slotAt Config.chip s c).key (slotAt Config.chip s c).fb s t) ∧
  (∀ (x : Nat) (s : State), s.lat.key ≠ 0 → s.lat.iv ≠ 0 → (s.lat.mode = 1 ∨ s.lat.mode = 2) →
    s.lat.src ≠ 0 → s.lat.dst ≠ 0 → lenArg s ≠ 0 → lenArg s % 8 = 0 → Quiet s →
    Readable Config.chip s (keyAddr s) Config.chip.keyBytes → Readable Config.chip s (ivAddr s) 8 →
    Readable Config.chip s (srcAddr s) (lenArg s) → Backed Config.chip s (dstAddr s) (lenArg s) →
    ∃ t, exec (.ofbOneshot x) s = .next t ∧
      t = complete { s with mem := t.mem, scratch := zeroScratch Config.chip } .ok ∧
      PassesInOrder Config.chip (memString s.mem (keyAddr s) Config.chip.keyBytes) (memBlock s.mem (ivAddr s)) s t)

/-- R91, R80, R107: the outcome of OFB_ONESHOT in the order of its checks, init's before core's; past them it is
Ok or a bus error, and the scratch context is zero either way (R111). -/
def Obligations.OneshotOutcomes : Prop :=
  ∀ (x : Nat) (s : State), ∃ t, exec (.ofbOneshot x) s = .next t ∧
    if s.lat.key = 0 ∨ s.lat.iv = 0 then t = complete s .invalidInput
    else if s.lat.mode ≠ 1 ∧ s.lat.mode ≠ 2 then t = complete s .invalidMode
    else if 2 ^ 32 < keyAddr s + Config.chip.keyBytes ∨ 2 ^ 32 < ivAddr s + 8 then
      t = complete s .invalidArg
    else if s.lat.src = 0 then t = complete s .invalidInput
    else if s.lat.dst = 0 then t = complete s .invalidOutput
    else if lenArg s = 0 ∨ lenArg s % 8 ≠ 0 then t = complete s .invalidArg
    else if 2 ^ 32 < srcAddr s + lenArg s ∨ 2 ^ 32 < dstAddr s + lenArg s then
      t = complete s .invalidArg
    else if accessFails Config.chip s (keyAddr s) Config.chip.keyBytes = true then
      t = raiseCmdFault { s with scratch := zeroScratch Config.chip } .busError
    else t.scratch = zeroScratch Config.chip ∧
      (t.code = .ok ∧ t.faults = s.faults ∨ t.code = .cmdFault ∧ t.faults = s.faults ||| 0b1000)

/-- R39, R91, R111: whatever its outcome, OFB_ONESHOT leaves a zero scratch context zero and every slot as it
was. -/
def Obligations.OneshotLeavesNoSecret : Prop :=
  ∀ (x : Nat) (s t : State), s.scratch = zeroScratch Config.chip → exec (.ofbOneshot x) s = .next t →
    t.scratch = zeroScratch Config.chip ∧ t.slots = s.slots

/-- R92: one-shot equals the sequence. -/
def Obligations.OneshotEqualsSequence : Prop :=
  ∀ (c x : Nat) (s t u : State), c < Config.chip.numCtx → (slotAt Config.chip s c).state = .uninit →
    Quiet s → s.faults = 0 →
    Plain s (keyAddr s) Config.chip.keyBytes → Plain s (ivAddr s) 8 → Plain s (srcAddr s) (lenArg s) →
    exec (.ofbOneshot x) s = .next t →
    thenIfOk (exec (.ofbInit c) s) (fun s1 => thenIfOk (exec (.ofbCore c) s1) (exec (.ofbFinish c))) =
      .next u →
    t.faults.getLsbD 3 = false → u.faults.getLsbD 3 = false →
    t.mem = u.mem ∧ t.code = u.code

/-! ### The padding codec -/

/-- R94, R96: the construction FSM builds the padded block, and its phases are those of the table. -/
def Obligations.ExpectedIsPad : Prop :=
  ∀ (P : Params) (dg : List Byte) (k : Nat), dg.length = P.hashLen → P.diLen + 11 ≤ k →
    (pad P dg k).length = k ∧
    ∀ i < k, (pad P dg k)[i]? = some (expectedByte P k dg i) ∧
      (padPhase P k i = .hdr ↔ i = 0) ∧ (padPhase P k i = .bt ↔ i = 1) ∧
      (padPhase P k i = .ps ↔ 2 ≤ i ∧ i ≤ k - P.diLen - 2) ∧
      (padPhase P k i = .sep ↔ i = k - P.diLen - 1) ∧
      (padPhase P k i = .algid ↔ k - P.diLen ≤ i ∧ i < k - P.hashLen) ∧
      (padPhase P k i = .digest ↔ k - P.hashLen ≤ i)

/-- R98: PKCS1_ENCODE, all checks passing, in the plain situation: the `k` bytes at `L_DST` are the padded
block of the digest as it was before the command, wherever the output lies, and nothing else changes. -/
def Obligations.EncodeWritesPad : Prop :=
  ∀ (x : Nat) (s : State), s.lat.dig ≠ 0 → s.lat.dst ≠ 0 → Config.chip.diLen + 11 ≤ lenArg s → Quiet s →
    Readable Config.chip s (digAddr s) Config.chip.hashLen → Backed Config.chip s (dstAddr s) (lenArg s) →
    ∃ t, exec (.pkcs1Encode x) s = .next t ∧
      t = complete
        { s with mem := t.mem, dbuf := memString s.mem (digAddr s) Config.chip.hashLen } .ok ∧
      memString t.mem (dstAddr s) (lenArg s) =
        pad Config.chip (memString s.mem (digAddr s) Config.chip.hashLen) (lenArg s) ∧
      SameOutside s.mem t.mem (dstAddr s) (lenArg s)

/-- R98, R95, R80, R107: the outcome of PKCS1_ENCODE in the order of its checks; past them it is Ok or a bus
error. -/
def Obligations.EncodeOutcomes : Prop :=
  ∀ (x : Nat) (s : State), ∃ t, exec (.pkcs1Encode x) s = .next t ∧
    if s.lat.dig = 0 then t = complete s .invalidInput
    else if s.lat.dst = 0 then t = complete s .invalidOutput
    else if lenArg s < Config.chip.diLen + 11 then t = complete s .invalidArg
    else if 2 ^ 32 < digAddr s + Config.chip.hashLen ∨ 2 ^ 32 < dstAddr s + lenArg s then
      t = complete s .invalidArg
    else if accessFails Config.chip s (digAddr s) Config.chip.hashLen = true then
      t = raiseCmdFault s .busError
    else t.code = .ok ∧ t.faults = s.faults ∨ t.code = .cmdFault ∧ t.faults = s.faults ||| 0b1000

/-- R99, R100: PKCS1_VERIFY, all checks passing, in the plain situation: Ok if and only if the candidate is the
padded block byte for byte, else VerificationFailed; nothing but the status, `dbuf` and `diff` changes. -/
def Obligations.VerifyDecides : Prop :=
  ∀ (x : Nat) (s : State), s.lat.src ≠ 0 → Config.chip.diLen + 11 ≤ lenArg s → s.lat.dig ≠ 0 → Quiet s →
    Readable Config.chip s (srcAddr s) (lenArg s) → Readable Config.chip s (digAddr s) Config.chip.hashLen →
    ∃ t, exec (.pkcs1Verify x) s = .next t ∧
      t = complete { s with dbuf := memString s.mem (digAddr s) Config.chip.hashLen, diff := t.diff } t.code ∧
      (t.code = .ok ∨ t.code = .verificationFailed) ∧
      (t.code = .ok ↔
        memString s.mem (srcAddr s) (lenArg s) =
          pad Config.chip (memString s.mem (digAddr s) Config.chip.hashLen) (lenArg s))

/-- R99, R95, R80, R107: the outcome of PKCS1_VERIFY in the order of its checks; past them it is Ok,
VerificationFailed or a bus error, never a validation error. -/
def Obligations.VerifyOutcomes : Prop :=
  ∀ (x : Nat) (s : State), ∃ t, exec (.pkcs1Verify x) s = .next t ∧
    if s.lat.src = 0 then t = complete s .invalidInput
    else if lenArg s < Config.chip.diLen + 11 then t = complete s .invalidArg
    else if s.lat.dig = 0 then t = complete s .invalidInput
    else if 2 ^ 32 < srcAddr s + lenArg s ∨ 2 ^ 32 < digAddr s + Config.chip.hashLen then
      t = complete s .invalidArg
    else if accessFails Config.chip s (digAddr s) Config.chip.hashLen = true then
      t = raiseCmdFault s .busError
    else (t.code = .ok ∨ t.code = .verificationFailed) ∧ t.faults = s.faults ∨
      t.code = .cmdFault ∧ t.faults = s.faults ||| 0b1000

/-- R103: PKCS1_VERIFY of what PKCS1_ENCODE wrote, with the same digest, gives Ok; with any one bit of those
bytes or of the digest flipped, VerificationFailed. -/
def Obligations.EncodeVerifyAgree : Prop :=
  ∀ (x y : Nat) (s t : State), s.lat.dig ≠ 0 → s.lat.dst ≠ 0 → Config.chip.diLen + 11 ≤ lenArg s → Quiet s →
    Readable Config.chip s (digAddr s) Config.chip.hashLen → Readable Config.chip s (dstAddr s) (lenArg s) →
    Disjoint (digAddr s) Config.chip.hashLen (dstAddr s) (lenArg s) →
    exec (.pkcs1Encode x) s = .next t →
    (∃ u, exec (.pkcs1Verify y) { t with lat := { s.lat with src := s.lat.dst } } = .next u ∧
      u.code = .ok) ∧
    (∀ (a : Nat) (b : Fin 8),
      (dstAddr s ≤ a ∧ a < dstAddr s + lenArg s ∨
        digAddr s ≤ a ∧ a < digAddr s + Config.chip.hashLen) →
      ∃ u, exec (.pkcs1Verify y)
          { t with
            lat := { s.lat with src := s.lat.dst }
            mem := memSet t.mem a (memGet t.mem a ^^^ (1#8 <<< b.val)) } = .next u ∧
        u.code = .verificationFailed)

/-! ### Bus errors -/

/-- R111, R81: OFB_INIT whose key or IV read gets a bus error changes no slot. -/
def Obligations.InitBusError : Prop :=
  ∀ (c : Nat) (s : State), c < Config.chip.numCtx → (slotAt Config.chip s c).state ≠ .initialized →
    s.lat.key ≠ 0 → s.lat.iv ≠ 0 → (s.lat.mode = 1 ∨ s.lat.mode = 2) →
    keyAddr s + Config.chip.keyBytes ≤ 2 ^ 32 → ivAddr s + 8 ≤ 2 ^ 32 →
    (¬ Backed Config.chip s (keyAddr s) Config.chip.keyBytes ∨ ¬ Backed Config.chip s (ivAddr s) 8) →
    exec (.ofbInit c) s = .next (raiseCmdFault s .busError)

/-- R111, R83, R91: OFB_CORE and OFB_ONESHOT with a bus error at data block `m`: blocks before it are written, those
after it are not; OFB_CORE's feedback register advanced `m` times, OFB_ONESHOT's scratch context is zero. Where the
WRITE of output block `m` fails, each of its bytes has its old value or the value it would have got (I5). Where the READ
of data block `m` fails, R83 and R111 call output block `m` unspecified and no rule gives a value it would have got: that
the second value is then the data bytes as memory holds them XOR keystream is the model's choice
(notes/assumptions 15). -/
def Obligations.CoreBusError : Prop :=
  (∀ (c m : Nat) (s : State), c < Config.chip.numCtx → (slotAt Config.chip s c).state = .initialized →
    s.lat.src ≠ 0 → s.lat.dst ≠ 0 → lenArg s ≠ 0 → lenArg s % 8 = 0 →
    srcAddr s + lenArg s ≤ 2 ^ 32 → dstAddr s + lenArg s ≤ 2 ^ 32 → Quiet s → m < lenArg s / 8 →
    Plain s (srcAddr s) (8 * m + 8) →
    Backed Config.chip s (srcAddr s) (8 * m) → Backed Config.chip s (dstAddr s) (8 * m) →
    (¬ Backed Config.chip s (srcAddr s + 8 * m) 8 ∨ ¬ Backed Config.chip s (dstAddr s + 8 * m) 8) →
    DisjointOrSame (srcAddr s) (dstAddr s) (lenArg s) →
    ∃ t, exec (.ofbCore c) s = .next t ∧
      t = raiseCmdFault { s with mem := t.mem, slots := t.slots, free := t.free } .busError ∧
      TornAtBlock Config.chip (slotAt Config.chip s c).key (slotAt Config.chip s c).fb m s t ∧
      slotAt Config.chip t c =
        { slotAt Config.chip s c with
          fb := keystream Config.chip (slotAt Config.chip s c).key (slotAt Config.chip s c).fb m } ∧
      ∀ d, d ≠ c → slotAt Config.chip t d = slotAt Config.chip s d) ∧
  (∀ (x m : Nat) (s : State), s.lat.key ≠ 0 → s.lat.iv ≠ 0 → (s.lat.mode = 1 ∨ s.lat.mode = 2) →
    s.lat.src ≠ 0 → s.lat.dst ≠ 0 → lenArg s ≠ 0 → lenArg s % 8 = 0 →
    srcAddr s + lenArg s ≤ 2 ^ 32 → dstAddr s + lenArg s ≤ 2 ^ 32 → Quiet s → m < lenArg s / 8 →
    Readable Config.chip s (keyAddr s) Config.chip.keyBytes → Readable Config.chip s (ivAddr s) 8 →
    Plain s (srcAddr s) (8 * m + 8) →
    Backed Config.chip s (srcAddr s) (8 * m) → Backed Config.chip s (dstAddr s) (8 * m) →
    (¬ Backed Config.chip s (srcAddr s + 8 * m) 8 ∨ ¬ Backed Config.chip s (dstAddr s + 8 * m) 8) →
    DisjointOrSame (srcAddr s) (dstAddr s) (lenArg s) →
    ∃ t, exec (.ofbOneshot x) s = .next t ∧
      t = raiseCmdFault { s with mem := t.mem, scratch := zeroScratch Config.chip, free := t.free } .busError ∧
      TornAtBlock Config.chip (memString s.mem (keyAddr s) Config.chip.keyBytes) (memBlock s.mem (ivAddr s)) m s t)

/-- R111, R98: PKCS1_ENCODE with a bus error at byte `m` has written the EM bytes before it and no other. -/
def Obligations.EncodeBusError : Prop :=
  ∀ (x m : Nat) (s : State), s.lat.dig ≠ 0 → s.lat.dst ≠ 0 → Config.chip.diLen + 11 ≤ lenArg s →
    digAddr s + Config.chip.hashLen ≤ 2 ^ 32 → dstAddr s + lenArg s ≤ 2 ^ 32 → Quiet s → m < lenArg s →
    Readable Config.chip s (digAddr s) Config.chip.hashLen → Backed Config.chip s (dstAddr s) m →
    ¬ Backed Config.chip s (dstAddr s + m) 1 →
    ∃ t, exec (.pkcs1Encode x) s = .next t ∧ t.code = .cmdFault ∧ t.faults = s.faults ||| 0b1000 ∧
      memString t.mem (dstAddr s) m =
        (pad Config.chip (memString s.mem (digAddr s) Config.chip.hashLen) (lenArg s)).take m ∧
      SameOutside s.mem t.mem (dstAddr s) m

/-! ### Reset, power, races, moves -/

/-- R44, R126, R129: the reset state is idle: with nothing from outside, it steps to itself (notes/assumptions 10); its
registers but CFG0 and CFG1 read 0, its slots are UNINIT and zero, its scratch context and its latched operands are zero,
and IRQ is 0. -/
def Obligations.ResetState : Prop :=
  step State.reset = .next State.reset ∧ irq State.reset = false ∧
  (∀ r : RegName, r ≠ .cfg0 → r ≠ .cfg1 → readReg Config.chip State.reset r = 0) ∧
  (∀ c < 15, slotAt Config.chip State.reset c = emptySlot Config.chip) ∧
  State.reset.scratch = zeroScratch Config.chip ∧ State.reset.lat = zeroOperands

/-- R126, R127: a reset at any moment puts every piece of the block's state at its reset value; data memory
changes at most in the bytes of the write in progress, and not at all where there is none. Which write is in progress
is the model's reading (notes/assumptions 16). That `dbuf` is then zeros and `diff` 0 is the model's choice: R44 leaves
`dbuf` unspecified and does not name `diff` (notes/assumptions 6, 7). The records of races, announced bus errors and
power are the model's (notes/assumptions 9, 17, 18). -/
def Obligations.ResetAtAnyMoment : Prop :=
  ∀ (s : State) (rest : List Event), s.env = .reset :: rest →
    ∃ t, step s = .next t ∧
      t = { State.reset with
          mem := t.mem, ram := s.ram, volatile := s.volatile, env := rest, resp := s.resp, free := t.free } ∧
      (∀ a n, writeInProgress s = some (a, n) → SameOutside s.mem t.mem a n) ∧
      (writeInProgress s = none → t.mem = s.mem)

/-- R125, R128, I7: between a loss of power and the next reset the machine has no step but another loss of power and
the reset. The field `powered` and the fault are the model's form of I7's "stuck" (notes/assumptions 17). -/
def Obligations.NoStepBeforeReset : Prop :=
  (∀ (s : State) (rest : List Event), s.powered = true → s.env = .powerLoss :: rest →
    ∃ t, step s = .next t ∧ t.powered = false ∧ t.env = rest) ∧
  (∀ s : State, s.powered = false → s.env = [] → step s = .fault .notReset) ∧
  (∀ (s : State) (e : Event) (rest : List Event), s.powered = false → s.env = e :: rest →
    e ≠ .reset → e ≠ .powerLoss → step s = .fault .notReset) ∧
  (∀ (s : State) (rest : List Event), s.powered = false → s.env = .reset :: rest →
    ∃ t, step s = .next t ∧ t.powered = true)

/-- R55, R60: what a read may return, every outcome admitted by some free value. A plain byte that no host raced
reads as it is, and an address with read side effects gives any value. After a host wrote `b` to a byte of a running
command's buffer, the engine reads the old or the new value; and when the engine then writes `e` there, a later engine
read gives any of the three, and a host read of an output byte any of them or the value at acceptance. The lists that
remember the values and the regions with read side effects are the model's form (notes/assumptions 9, 28). -/
def Obligations.RacesGiveOldOrNew : Prop :=
  (∀ (P : Params) (s : State) (a k : Nat), hasReadEffect s.volatile a = false → s.raced = [] →
    engineByte P s a k = memGet s.mem a) ∧
  (∀ (P : Params) (s : State) (a k : Nat) (v : Byte), hasReadEffect s.volatile a = true →
    ∃ n, engineByte { P with free := fun _ => n } s a k = v) ∧
  (∀ (P : Params) (s : State) (a : Nat) (b : Byte), s.busy = true → inSomeBuffer P s a = true →
    s.raced = [] → backed P s.ram a = true → hasReadEffect s.volatile a = false →
    let t := hostAccess P (.memWrite a b) s
    memGet t.mem a = b ∧
    ReadsOneOf P t a [b, memGet s.mem a] ∧
    (∀ x k, x ≠ a → hasReadEffect s.volatile x = false → engineByte P t x k = memGet s.mem x) ∧
    ∀ e : Byte,
      let u := setMem t (memSet t.mem a e)
      ReadsOneOf P u a [e, b, memGet s.mem a] ∧
      (inOutput s a = true → HostReadsOneOf P u a [memGet s.accMem a, e, b, memGet s.mem a])) ∧
  (∀ (P : Params) (s : State) (a : Nat), s.busy = true → inOutput s a = true → backed P s.ram a = true →
    hasReadEffect s.volatile a = false → s.raced = [] →
    HostReadsOneOf P s a [memGet s.accMem a, memGet s.mem a])

/-- R134, R57: while the host keeps its duty on the buffers, no byte is raced; and where the platform announces no
bus error either, the state stays `Quiet`. The records `raced` and `busErrIn` are the model's
(notes/assumptions 9, 18), and so is the step with no event pending (notes/assumptions 10). -/
def Obligations.DutyKeepsQuiet : Prop :=
  (∀ (s t : State) (e : Event) (rest : List Event), s.powered = true → s.env = e :: rest →
    DutyBuffers Config.chip e s → s.raced = [] → step s = .next t →
    t.raced = [] ∧ ((∀ n, e ≠ .busError n) → s.busErrIn = none → Quiet t)) ∧
  (∀ s t : State, s.powered = true → s.env = [] → Quiet s → step s = .next t → Quiet t)

/-- R29, R110: no step but a reset clears a FAULTS bit. That a loss of power keeps them until the reset is the
model's choice (R128 leaves them unspecified there; notes/assumptions 17). -/
def Obligations.FaultsSticky : Prop :=
  ∀ s t : State, step s = .next t → (∀ rest, s.env ≠ .reset :: rest) → s.faults &&& t.faults = s.faults

/-- R37, R38: a write to an operand register during a command has no effect on it: it commutes with every move
of the engine (the size of a move is the model's, notes/assumptions 11). -/
def Obligations.OperandWritesDuringCommand : Prop :=
  ∀ (P : Params) (s : State) (r : RegName) (v : Word),
    r ∈ [RegName.dst, .src, .len, .key, .iv, .mode, .dig] →
    tick P (writeReg s r v) = writeReg (tick P s) r v

/-- R57: the moves of the engine, one after the other, reach exactly the state that the command's meaning
gives as one indivisible step. The size of a move is the model's (notes/assumptions 11). -/
def Obligations.MovesReachMeaning : Prop :=
  ∀ (s t : State) (i : Instr), s.progress = .accepted → decode s.cmd = .command i → exec i s = .next t →
    ∃ n, (tick Config.chip)^[n] s = t

/-- R101: from its digest capture on, PKCS1_VERIFY makes exactly `k + 2` moves, whatever the candidate and the
digest are: after `m + 1` moves it stands at candidate byte `m`, with no early exit. A move is the
model's, and no duration is meant (notes/assumptions 11, 22). -/
def Obligations.VerifyMovesFixed : Prop :=
  ∀ s : State, s.progress = .verifyDigest → Quiet s →
    Backed Config.chip s (srcAddr s) (lenArg s) → Backed Config.chip s (digAddr s) Config.chip.hashLen →
    (∀ m ≤ lenArg s, ((tick Config.chip)^[m + 1] s).progress = .verify m) ∧
    ((tick Config.chip)^[lenArg s + 2] s).progress = .idle

/-! ### The invariant -/

/-- The invariant holds after reset. -/
def Obligations.InvariantAtReset : Prop := Inv Config.chip State.reset

/-- Every step keeps the invariant: memory canonical (the model's form, notes/assumptions 3); BUSY exactly while a
command is in progress and never with DONE, CODE 0 meanwhile (R27); dead slots, absent slots and the idle scratch context zero (R33, R35, R39,
R44, R89); key copies of `KEY_BYTES` bytes; the engine's position one its command reaches (R41). -/
def Obligations.StepKeepsInvariant : Prop :=
  ∀ s t : State, Inv Config.chip s → step s = .next t → Inv Config.chip t
end

