-- ==== Sys2Proof/Laws/Checks.lean ====
section
/-! SUPPORT. The checks of the commands: their verdicts on numbers, and which verdicts there are. -/

namespace Sys2Proof.Machine

/-- The extent check of two buffers, on numbers (R53). -/
theorem not_fits_or (a m b n : Nat) : (!fits a m || !fits b n) = true ↔ (2 ^ 32 < a + m ∨ 2 ^ 32 < b + n) := by
  simp [fits]

/-- The checks of OFB_INIT, on numbers (R81). -/
theorem initCheck_eq (P : Params) (c : Nat) (s : State) : initCheck P c s =
    if P.numCtx ≤ c then .reject .invalidOutput
    else if (slotAt P s c).state = .initialized then .fault .seq
    else if s.lat.key = 0 ∨ s.lat.iv = 0 then .reject .invalidInput
    else if s.lat.mode ≠ 1 ∧ s.lat.mode ≠ 2 then .reject .invalidMode
    else if 2 ^ 32 < keyAddr s + P.keyBytes ∨ 2 ^ 32 < ivAddr s + 8 then .reject .invalidArg
    else .pass := by
  have hd : directionOf s.lat.mode = none ↔ s.lat.mode ≠ 1 ∧ s.lat.mode ≠ 2 := by
    unfold directionOf
    split
    · simp_all
    · split <;> simp_all
  have hf : (!fits (keyAddr s) P.keyBytes || !fits (ivAddr s) 8) = true ↔
      (2 ^ 32 < keyAddr s + P.keyBytes ∨ 2 ^ 32 < ivAddr s + 8) := not_fits_or _ _ _ _
  unfold initCheck
  simp only [hd, hf]
  by_cases h1 : s.lat.key = 0 <;> by_cases h2 : s.lat.iv = 0 <;>
    simp only [h1, h2, if_true, if_false, true_or, or_true, or_self]

/-- The checks of OFB_CORE, on numbers (R83). -/
theorem coreCheck_eq (P : Params) (c : Nat) (s : State) : coreCheck P c s =
    if P.numCtx ≤ c then .reject .invalidOutput
    else if (slotAt P s c).state ≠ .initialized then .fault .seq
    else if s.lat.src = 0 then .reject .invalidInput
    else if s.lat.dst = 0 then .reject .invalidOutput
    else if lenArg s = 0 ∨ lenArg s % 8 ≠ 0 then .reject .invalidArg
    else if 2 ^ 32 < srcAddr s + lenArg s ∨ 2 ^ 32 < dstAddr s + lenArg s then .reject .invalidArg
    else .pass := by
  have hf : (!fits (srcAddr s) (lenArg s) || !fits (dstAddr s) (lenArg s)) = true ↔
      (2 ^ 32 < srcAddr s + lenArg s ∨ 2 ^ 32 < dstAddr s + lenArg s) := not_fits_or _ _ _ _
  unfold coreCheck
  simp only [hf]

/-- The checks of OFB_ONESHOT, on numbers (R91). -/
theorem oneshotCheck_eq (P : Params) (s : State) : oneshotCheck P s =
    if s.lat.key = 0 ∨ s.lat.iv = 0 then .reject .invalidInput
    else if s.lat.mode ≠ 1 ∧ s.lat.mode ≠ 2 then .reject .invalidMode
    else if 2 ^ 32 < keyAddr s + P.keyBytes ∨ 2 ^ 32 < ivAddr s + 8 then .reject .invalidArg
    else if s.lat.src = 0 then .reject .invalidInput
    else if s.lat.dst = 0 then .reject .invalidOutput
    else if lenArg s = 0 ∨ lenArg s % 8 ≠ 0 then .reject .invalidArg
    else if 2 ^ 32 < srcAddr s + lenArg s ∨ 2 ^ 32 < dstAddr s + lenArg s then .reject .invalidArg
    else .pass := by
  have hd : directionOf s.lat.mode = none ↔ s.lat.mode ≠ 1 ∧ s.lat.mode ≠ 2 := by
    unfold directionOf
    split
    · simp_all
    · split <;> simp_all
  have hf : (!fits (keyAddr s) P.keyBytes || !fits (ivAddr s) 8) = true ↔
      (2 ^ 32 < keyAddr s + P.keyBytes ∨ 2 ^ 32 < ivAddr s + 8) := not_fits_or _ _ _ _
  have hf' : (!fits (srcAddr s) (lenArg s) || !fits (dstAddr s) (lenArg s)) = true ↔
      (2 ^ 32 < srcAddr s + lenArg s ∨ 2 ^ 32 < dstAddr s + lenArg s) := not_fits_or _ _ _ _
  unfold oneshotCheck
  simp only [hd, hf, hf']
  by_cases h1 : s.lat.key = 0 <;> by_cases h2 : s.lat.iv = 0 <;>
    simp only [h1, h2, if_true, if_false, true_or, or_true, or_self]

/-- The checks of PKCS1_ENCODE, on numbers (R98). -/
theorem encodeCheck_eq (P : Params) (s : State) : encodeCheck P s =
    if s.lat.dig = 0 then .reject .invalidInput
    else if s.lat.dst = 0 then .reject .invalidOutput
    else if lenArg s < P.diLen + 11 then .reject .invalidArg
    else if 2 ^ 32 < digAddr s + P.hashLen ∨ 2 ^ 32 < dstAddr s + lenArg s then .reject .invalidArg
    else .pass := by
  have hf : (!fits (digAddr s) P.hashLen || !fits (dstAddr s) (lenArg s)) = true ↔
      (2 ^ 32 < digAddr s + P.hashLen ∨ 2 ^ 32 < dstAddr s + lenArg s) := not_fits_or _ _ _ _
  unfold encodeCheck minK
  simp only [hf]

/-- The checks of PKCS1_VERIFY, on numbers (R99). -/
theorem verifyCheck_eq (P : Params) (s : State) : verifyCheck P s =
    if s.lat.src = 0 then .reject .invalidInput
    else if lenArg s < P.diLen + 11 then .reject .invalidArg
    else if s.lat.dig = 0 then .reject .invalidInput
    else if 2 ^ 32 < srcAddr s + lenArg s ∨ 2 ^ 32 < digAddr s + P.hashLen then .reject .invalidArg
    else .pass := by
  have hf : (!fits (srcAddr s) (lenArg s) || !fits (digAddr s) P.hashLen) = true ↔
      (2 ^ 32 < srcAddr s + lenArg s ∨ 2 ^ 32 < digAddr s + P.hashLen) := not_fits_or _ _ _ _
  unfold verifyCheck minK
  simp only [hf]

/-- A verdict that the checks of a command reach: a validation code or SEQ. -/
def verdictOk : Verdict → Prop
  | .reject code => code = .invalidInput ∨ code = .invalidOutput ∨ code = .invalidArg ∨ code = .invalidMode
  | .fault n => n = .seq
  | .pass => True

/-- A check keeps the verdicts of its branches. -/
theorem verdictOk_ite {p : Prop} [Decidable p] {a b : Verdict} (ha : verdictOk a) (hb : verdictOk b) :
    verdictOk (if p then a else b) := by
  split <;> assumption

theorem initCheck_ok (P : Params) (c : Nat) (s : State) : verdictOk (initCheck P c s) := by
  rw [initCheck_eq]
  repeat' apply verdictOk_ite
  all_goals simp [verdictOk]

theorem coreCheck_ok (P : Params) (c : Nat) (s : State) : verdictOk (coreCheck P c s) := by
  rw [coreCheck_eq]
  repeat' apply verdictOk_ite
  all_goals simp [verdictOk]

theorem finishCheck_ok (P : Params) (c : Nat) (s : State) : verdictOk (finishCheck P c s) := by
  unfold finishCheck
  repeat' apply verdictOk_ite
  all_goals simp [verdictOk]

theorem oneshotCheck_ok (P : Params) (s : State) : verdictOk (oneshotCheck P s) := by
  rw [oneshotCheck_eq]
  repeat' apply verdictOk_ite
  all_goals simp [verdictOk]

theorem encodeCheck_ok (P : Params) (s : State) : verdictOk (encodeCheck P s) := by
  rw [encodeCheck_eq]
  repeat' apply verdictOk_ite
  all_goals simp [verdictOk]

theorem verifyCheck_ok (P : Params) (s : State) : verdictOk (verifyCheck P s) := by
  rw [verifyCheck_eq]
  repeat' apply verdictOk_ite
  all_goals simp [verdictOk]

end Sys2Proof.Machine
end

