-- ==== Sys2Proof/Laws/Loop.lean ====
section
/-! SUPPORT. The loop of a command: its induction packaged once, its split, and its failing pass. -/

namespace Sys2Proof.Machine

variable {body : Nat → State → Except State State}

/-- A property that every pass of the body keeps holds at the end of the loop. -/
theorem forLoop_keeps (I : Nat → State → Prop) {n j : Nat} {s s' : State}
    (hstep : ∀ i t t', j ≤ i → i < j + n → I i t → body i t = .ok t' → I (i + 1) t')
    (h0 : I j s) (h : forLoop body n j s = .ok s') : I (j + n) s' := by
  induction n generalizing j s with
  | zero =>
    simp only [forLoop, Except.ok.injEq] at h
    exact h ▸ h0
  | succ n ih =>
    rw [forLoop] at h
    cases hb : body j s with
    | error e => simp [hb] at h
    | ok t =>
      simp only [hb] at h
      have := ih (j := j + 1) (fun i t t' h1 h2 => hstep i t t' (by omega) (by omega))
        (hstep j s t (by omega) (by omega) h0 hb) h
      rwa [show j + 1 + n = j + (n + 1) by omega] at this

/-- A loop whose every pass succeeds and keeps a property succeeds, and the property holds at its end. -/
theorem forLoop_runs (I : Nat → State → Prop) {n j : Nat} {s : State}
    (hstep : ∀ i t, j ≤ i → i < j + n → I i t → ∃ t', body i t = .ok t' ∧ I (i + 1) t') (h0 : I j s) :
    ∃ s', forLoop body n j s = .ok s' ∧ I (j + n) s' := by
  induction n generalizing j s with
  | zero => exact ⟨s, rfl, h0⟩
  | succ n ih =>
    obtain ⟨t, hb, ht⟩ := hstep j s (by omega) (by omega) h0
    obtain ⟨s', h1, h2⟩ := ih (j := j + 1) (fun i t h1 h2 => hstep i t (by omega) (by omega)) ht
    refine ⟨s', by simp [forLoop, hb, h1], ?_⟩
    rwa [show j + 1 + n = j + (n + 1) by omega] at h2

/-- A loop of `m + n` passes is a loop of `m` passes, then one of `n`. -/
theorem forLoop_add (m n j : Nat) (s : State) :
    forLoop body (m + n) j s =
      match forLoop body m j s with
      | .error e => .error e
      | .ok t => forLoop body n (j + m) t := by
  induction m generalizing j s with
  | zero => simp [forLoop]
  | succ m ih =>
    rw [show m + 1 + n = (m + n) + 1 by omega, forLoop, forLoop]
    cases body j s with
    | error e => rfl
    | ok t =>
      simp only [ih]
      rw [show j + 1 + m = j + (m + 1) by omega]

/-- Where a loop stops with an error, the passes before one index succeeded and the pass at that index is
what failed. -/
theorem forLoop_error {n j : Nat} {s e : State} (h : forLoop body n j s = .error e) :
    ∃ m t, m < n ∧ forLoop body m j s = .ok t ∧ body (j + m) t = .error e := by
  induction n generalizing j s with
  | zero => simp [forLoop] at h
  | succ n ih =>
    rw [forLoop] at h
    cases hb : body j s with
    | error e' =>
      simp only [hb, Except.error.injEq] at h
      exact ⟨0, s, by omega, rfl, by simpa [h] using hb⟩
    | ok t =>
      simp only [hb] at h
      obtain ⟨m, t', hm, h1, h2⟩ := ih h
      refine ⟨m + 1, t', by omega, by simp [forLoop, hb, h1], ?_⟩
      rwa [show j + (m + 1) = j + 1 + m by omega]

end Sys2Proof.Machine
end

