-- ==== Sys2Proof/Laws/Memory.lean ====
section
/-! SUPPORT. Data memory: a read after a write, the writes of strings, and the canonical form. -/

namespace Sys2Proof.Machine

@[simp] theorem memGet_nil (a : Nat) : memGet [] a = unlistedByte := rfl

theorem memGet_filter_same (m : Memory) (a : Nat) :
    memGet (m.filter (fun c => c.1 != a)) a = unlistedByte := by
  induction m with
  | nil => rfl
  | cons c m ih =>
    obtain ⟨x, v⟩ := c
    by_cases h : x = a
    · simp [h, ih]
    · simp [h, memGet, ih]

theorem memGet_filter_other (m : Memory) {a x : Nat} (h : x ≠ a) :
    memGet (m.filter (fun c => c.1 != a)) x = memGet m x := by
  induction m with
  | nil => rfl
  | cons c m ih =>
    obtain ⟨y, v⟩ := c
    by_cases hy : y = a
    · have : y ≠ x := by omega
      simp [hy, memGet, ih, hy ▸ this]
    · simp [hy, memGet, ih]

theorem memGet_insertCell_other (m : Memory) {a x : Nat} (b : Byte) (h : x ≠ a) :
    memGet (insertCell (a, b) m) x = memGet m x := by
  induction m with
  | nil => simp [insertCell, memGet, h.symm]
  | cons c m ih =>
    obtain ⟨y, v⟩ := c
    by_cases hy : a < y
    · simp [insertCell, hy, memGet, h.symm]
    · simp [insertCell, hy, memGet, ih]

theorem memGet_insertCell_same (m : Memory) (a : Nat) (b : Byte) (h : ∀ c ∈ m, c.1 ≠ a) :
    memGet (insertCell (a, b) m) a = b := by
  induction m with
  | nil => simp [insertCell, memGet]
  | cons c m ih =>
    obtain ⟨y, v⟩ := c
    have hy : y ≠ a := h (y, v) (by simp)
    by_cases hlt : a < y
    · simp [insertCell, hlt, memGet]
    · simp [insertCell, hlt, memGet, hy, ih (fun c hc => h c (by simp [hc]))]

/-- A byte reads as it was last written. -/
@[simp] theorem memGet_memSet_same (m : Memory) (a : Nat) (b : Byte) : memGet (memSet m a b) a = b := by
  unfold memSet
  by_cases h : b = unlistedByte
  · simp [h, memGet_filter_same]
  · simp only [h, if_false]
    exact memGet_insertCell_same _ _ _ (by simp)

/-- A write leaves every other byte alone. -/
theorem memGet_memSet_other (m : Memory) {a x : Nat} (b : Byte) (h : x ≠ a) :
    memGet (memSet m a b) x = memGet m x := by
  unfold memSet
  by_cases hb : b = unlistedByte
  · simp [hb, memGet_filter_other m h]
  · simp only [hb, if_false]
    rw [memGet_insertCell_other _ _ h, memGet_filter_other m h]

/-- Writing a string leaves every byte outside it alone. -/
theorem memGet_memSetBytes_out (m : Memory) (a : Nat) (bs : List Byte) {x : Nat}
    (h : x < a ∨ a + bs.length ≤ x) : memGet (memSetBytes m a bs) x = memGet m x := by
  induction bs generalizing m a with
  | nil => rfl
  | cons b bs ih =>
    simp only [List.length_cons] at h
    rw [memSetBytes, ih _ _ (by omega), memGet_memSet_other _ _ (by omega)]

/-- A string reads as it was written. -/
theorem memGet_memSetBytes_in (m : Memory) (a : Nat) (bs : List Byte) (i : Nat) (h : i < bs.length) :
    memGet (memSetBytes m a bs) (a + i) = bs[i] := by
  induction bs generalizing m a i with
  | nil => simp at h
  | cons b bs ih =>
    rw [memSetBytes]
    cases i with
    | zero =>
      rw [memGet_memSetBytes_out _ _ _ (by omega)]
      simp
    | succ i =>
      have := ih (memSet m a b) (a + 1) i (by simpa using h)
      rw [show a + (i + 1) = a + 1 + i by omega, this]
      simp

/-! ### The canonical form -/

theorem memWf_nil : MemWf [] := ⟨List.Pairwise.nil, by simp⟩

theorem memWf_filter {m : Memory} (h : MemWf m) (p : Host.Cell → Bool) : MemWf (m.filter p) :=
  ⟨h.1.filter p, fun c hc => h.2 c (List.mem_of_mem_filter hc)⟩

theorem mem_insertCell {c x : Host.Cell} {m : Memory} : x ∈ insertCell c m ↔ x = c ∨ x ∈ m := by
  induction m with
  | nil => simp [insertCell]
  | cons y m ih =>
    by_cases h : c.1 < y.1
    · simp [insertCell, h]
    · simp only [insertCell, h, if_false, List.mem_cons, ih]
      tauto

theorem pairwise_insertCell {c : Host.Cell} {m : Memory} (h : m.Pairwise (fun x y => x.1 < y.1))
    (hc : ∀ x ∈ m, x.1 ≠ c.1) : (insertCell c m).Pairwise (fun x y => x.1 < y.1) := by
  induction m with
  | nil => simp [insertCell]
  | cons y m ih =>
    obtain ⟨hy, hm⟩ := List.pairwise_cons.mp h
    by_cases hlt : c.1 < y.1
    · simp only [insertCell, hlt, if_true]
      exact List.pairwise_cons.mpr ⟨fun x hx => by
        rcases List.mem_cons.mp hx with rfl | hx
        · exact hlt
        · exact Nat.lt_trans hlt (hy x hx), h⟩
    · simp only [insertCell, hlt, if_false]
      refine List.pairwise_cons.mpr ⟨fun x hx => ?_, ih hm (fun x hx => hc x (by simp [hx]))⟩
      rcases mem_insertCell.mp hx with rfl | hx
      · have := hc y (by simp)
        omega
      · exact hy x hx

/-- A write within the address space keeps the canonical form. -/
theorem memWf_memSet {m : Memory} (h : MemWf m) {a : Nat} (ha : a < 2 ^ 32) (b : Byte) :
    MemWf (memSet m a b) := by
  unfold memSet
  have hf := memWf_filter h (fun c => c.1 != a)
  by_cases hb : b = unlistedByte
  · simpa [hb] using hf
  · simp only [hb, if_false]
    refine ⟨pairwise_insertCell hf.1 (by simp), fun c hc => ?_⟩
    rcases mem_insertCell.mp hc with rfl | hc
    · exact ⟨ha, hb⟩
    · exact hf.2 c hc

/-- A string written within the address space keeps the canonical form. -/
theorem memWf_memSetBytes {m : Memory} (h : MemWf m) {a : Nat} {bs : List Byte}
    (ha : a + bs.length ≤ 2 ^ 32) : MemWf (memSetBytes m a bs) := by
  induction bs generalizing m a with
  | nil => exact h
  | cons b bs ih =>
    simp only [List.length_cons] at ha
    exact ih (memWf_memSet h (by omega) b) (by omega)

theorem backed_lt {P : Params} {ram : List Region} {a : Nat} (h : backed P ram a = true) : a < 2 ^ 32 := by
  simp only [backed, Bool.and_eq_true, decide_eq_true_eq] at h
  exact h.1.1

/-- A torn write keeps the canonical form. -/
theorem memWf_tornWrite (P : Params) (ram : List Region) {m : Memory} (h : MemWf m) (a k : Nat) (bs : List Byte) :
    MemWf (tornWrite P ram m a k bs) := by
  induction bs generalizing m a k with
  | nil => exact h
  | cons b bs ih =>
    refine ih ?_ _ _
    split
    · rename_i hc
      exact memWf_memSet h (backed_lt (Bool.and_eq_true_iff.mp hc).1) b
    · exact h

/-- Scrambled bytes keep the canonical form. -/
theorem memWf_scramble (P : Params) (ram : List Region) {m : Memory} (h : MemWf m) (a k n : Nat) : MemWf (scramble P ram m a k n) := by
  induction n generalizing m a k with
  | zero => exact h
  | succ n ih =>
    refine ih ?_ _ _
    split
    · rename_i hc
      exact memWf_memSet h (backed_lt hc) _
    · exact h

/-- A torn write leaves every byte outside its block alone. -/
theorem memGet_tornWrite_out (P : Params) (ram : List Region) (m : Memory) (a k : Nat) (bs : List Byte) {x : Nat}
    (h : x < a ∨ a + bs.length ≤ x) : memGet (tornWrite P ram m a k bs) x = memGet m x := by
  induction bs generalizing m a k with
  | nil => rfl
  | cons b bs ih =>
    simp only [List.length_cons] at h
    rw [tornWrite, ih _ _ _ (by omega)]
    split
    · exact memGet_memSet_other _ _ (by omega)
    · rfl

/-- Each byte of a torn write has its old value or the value it would have got (I5). -/
theorem memGet_tornWrite_in (P : Params) (ram : List Region) (m : Memory) (a k : Nat) (bs : List Byte) (i : Nat)
    (h : i < bs.length) :
    memGet (tornWrite P ram m a k bs) (a + i) = memGet m (a + i) ∨
      memGet (tornWrite P ram m a k bs) (a + i) = bs[i] := by
  induction bs generalizing m a k i with
  | nil => simp at h
  | cons b bs ih =>
    rw [tornWrite]
    cases i with
    | zero =>
      rw [memGet_tornWrite_out _ _ _ _ _ _ (by omega)]
      split <;> simp
    | succ i =>
      rw [show a + (i + 1) = a + 1 + i by omega]
      rcases ih (if (backed P ram a && P.free k % 2 == 1) = true then memSet m a b else m) (a + 1) (k + 1) i
        (by simpa using h) with h' | h'
      · left
        rw [h']
        split
        · exact memGet_memSet_other _ _ (by omega)
        · rfl
      · right
        simpa using h'

/-- Scrambling leaves every byte outside its range alone. -/
theorem memGet_scramble_out (P : Params) (ram : List Region) (m : Memory) (a k n : Nat) {x : Nat}
    (h : x < a ∨ a + n ≤ x) : memGet (scramble P ram m a k n) x = memGet m x := by
  induction n generalizing m a k with
  | zero => rfl
  | succ n ih =>
    rw [scramble, ih _ _ _ (by omega)]
    split
    · exact memGet_memSet_other _ _ (by omega)
    · rfl

theorem memGet_of_lt {m : Memory} {a : Nat} (h : ∀ c ∈ m, a < c.1) : memGet m a = unlistedByte := by
  induction m with
  | nil => rfl
  | cons c m ih =>
    obtain ⟨x, v⟩ := c
    have hx : a < x := h (x, v) (by simp)
    have : x ≠ a := by omega
    simp [memGet, this, ih (fun c hc => h c (by simp [hc]))]

/-- Canonical memories that read alike are equal. -/
theorem memWf_ext {m m' : Memory} (h : MemWf m) (h' : MemWf m') (he : ∀ a, memGet m a = memGet m' a) :
    m = m' := by
  induction m generalizing m' with
  | nil =>
    cases m' with
    | nil => rfl
    | cons c m' =>
      obtain ⟨x, v⟩ := c
      have := he x
      simp only [memGet, if_true] at this
      exact absurd this.symm (h'.2 (x, v) (by simp)).2
  | cons c m ih =>
    obtain ⟨x, v⟩ := c
    obtain ⟨hx, hm⟩ := List.pairwise_cons.mp h.1
    cases m' with
    | nil =>
      have := he x
      simp only [memGet, if_true] at this
      exact absurd this (h.2 (x, v) (by simp)).2
    | cons c' m' =>
      obtain ⟨x', v'⟩ := c'
      obtain ⟨hx', hm'⟩ := List.pairwise_cons.mp h'.1
      have hxx : x = x' := by
        rcases Nat.lt_trichotomy x x' with hl | he' | hl
        · have h1 := he x
          rw [memGet_of_lt (m := (x', v') :: m') (a := x)] at h1
          · simp only [memGet, if_true] at h1
            exact absurd h1 (h.2 (x, v) (by simp)).2
          · intro c hc
            rcases List.mem_cons.mp hc with rfl | hc
            · exact hl
            · exact Nat.lt_trans hl (hx' c hc)
        · exact he'
        · have h1 := he x'
          rw [memGet_of_lt (m := (x, v) :: m) (a := x')] at h1
          · simp only [memGet, if_true] at h1
            exact absurd h1.symm (h'.2 (x', v') (by simp)).2
          · intro c hc
            rcases List.mem_cons.mp hc with rfl | hc
            · exact hl
            · exact Nat.lt_trans hl (hx c hc)
      subst hxx
      have hv : v = v' := by simpa [memGet] using he x
      subst hv
      congr 1
      refine ih ⟨hm, fun c hc => h.2 c (by simp [hc])⟩ ⟨hm', fun c hc => h'.2 c (by simp [hc])⟩ fun a => ?_
      by_cases ha : x = a
      · subst ha
        rw [memGet_of_lt hx, memGet_of_lt hx']
      · simpa [memGet, ha] using he a

end Sys2Proof.Machine
end

