-- ==== Sys2Proof/Laws/State.lean ====
section
/-! SUPPORT. One lemma per field per named update of `State`, all true by `rfl` (or the definition), so that no
proof unfolds a record update. -/

namespace Sys2Proof.Machine

/-! ### afterAccess -/

@[simp] theorem afterAccess_irqEn (s : State) (n : Nat) :
    (afterAccess s n).irqEn = s.irqEn := rfl
@[simp] theorem afterAccess_busy (s : State) (n : Nat) :
    (afterAccess s n).busy = s.busy := rfl
@[simp] theorem afterAccess_done (s : State) (n : Nat) :
    (afterAccess s n).done = s.done := rfl
@[simp] theorem afterAccess_code (s : State) (n : Nat) :
    (afterAccess s n).code = s.code := rfl
@[simp] theorem afterAccess_faults (s : State) (n : Nat) :
    (afterAccess s n).faults = s.faults := rfl
@[simp] theorem afterAccess_cmd (s : State) (n : Nat) :
    (afterAccess s n).cmd = s.cmd := rfl
@[simp] theorem afterAccess_opr (s : State) (n : Nat) :
    (afterAccess s n).opr = s.opr := rfl
@[simp] theorem afterAccess_lat (s : State) (n : Nat) :
    (afterAccess s n).lat = s.lat := rfl
@[simp] theorem afterAccess_slots (s : State) (n : Nat) :
    (afterAccess s n).slots = s.slots := rfl
@[simp] theorem afterAccess_scratch (s : State) (n : Nat) :
    (afterAccess s n).scratch = s.scratch := rfl
@[simp] theorem afterAccess_dbuf (s : State) (n : Nat) :
    (afterAccess s n).dbuf = s.dbuf := rfl
@[simp] theorem afterAccess_diff (s : State) (n : Nat) :
    (afterAccess s n).diff = s.diff := rfl
@[simp] theorem afterAccess_progress (s : State) (n : Nat) :
    (afterAccess s n).progress = s.progress := rfl
@[simp] theorem afterAccess_mem (s : State) (n : Nat) :
    (afterAccess s n).mem = s.mem := rfl
@[simp] theorem afterAccess_ram (s : State) (n : Nat) :
    (afterAccess s n).ram = s.ram := rfl
@[simp] theorem afterAccess_volatile (s : State) (n : Nat) :
    (afterAccess s n).volatile = s.volatile := rfl
@[simp] theorem afterAccess_powered (s : State) (n : Nat) :
    (afterAccess s n).powered = s.powered := rfl
@[simp] theorem afterAccess_env (s : State) (n : Nat) :
    (afterAccess s n).env = s.env := rfl
@[simp] theorem afterAccess_resp (s : State) (n : Nat) :
    (afterAccess s n).resp = s.resp := rfl
@[simp] theorem afterAccess_accMem (s : State) (n : Nat) :
    (afterAccess s n).accMem = s.accMem := rfl
@[simp] theorem afterAccess_raced (s : State) (n : Nat) :
    (afterAccess s n).raced = s.raced := rfl
@[simp] theorem afterAccess_busErrIn (s : State) (n : Nat) :
    (afterAccess s n).busErrIn = s.busErrIn.map (· - n) := rfl
@[simp] theorem afterAccess_free (s : State) (n : Nat) :
    (afterAccess s n).free = s.free := rfl

/-! ### afterRead -/

@[simp] theorem afterRead_irqEn (s : State) (a n : Nat) :
    (afterRead s a n).irqEn = s.irqEn := by
  unfold afterRead; split <;> rfl
@[simp] theorem afterRead_busy (s : State) (a n : Nat) :
    (afterRead s a n).busy = s.busy := by
  unfold afterRead; split <;> rfl
@[simp] theorem afterRead_done (s : State) (a n : Nat) :
    (afterRead s a n).done = s.done := by
  unfold afterRead; split <;> rfl
@[simp] theorem afterRead_code (s : State) (a n : Nat) :
    (afterRead s a n).code = s.code := by
  unfold afterRead; split <;> rfl
@[simp] theorem afterRead_faults (s : State) (a n : Nat) :
    (afterRead s a n).faults = s.faults := by
  unfold afterRead; split <;> rfl
@[simp] theorem afterRead_cmd (s : State) (a n : Nat) :
    (afterRead s a n).cmd = s.cmd := by
  unfold afterRead; split <;> rfl
@[simp] theorem afterRead_opr (s : State) (a n : Nat) :
    (afterRead s a n).opr = s.opr := by
  unfold afterRead; split <;> rfl
@[simp] theorem afterRead_lat (s : State) (a n : Nat) :
    (afterRead s a n).lat = s.lat := by
  unfold afterRead; split <;> rfl
@[simp] theorem afterRead_slots (s : State) (a n : Nat) :
    (afterRead s a n).slots = s.slots := by
  unfold afterRead; split <;> rfl
@[simp] theorem afterRead_scratch (s : State) (a n : Nat) :
    (afterRead s a n).scratch = s.scratch := by
  unfold afterRead; split <;> rfl
@[simp] theorem afterRead_dbuf (s : State) (a n : Nat) :
    (afterRead s a n).dbuf = s.dbuf := by
  unfold afterRead; split <;> rfl
@[simp] theorem afterRead_diff (s : State) (a n : Nat) :
    (afterRead s a n).diff = s.diff := by
  unfold afterRead; split <;> rfl
@[simp] theorem afterRead_progress (s : State) (a n : Nat) :
    (afterRead s a n).progress = s.progress := by
  unfold afterRead; split <;> rfl
@[simp] theorem afterRead_mem (s : State) (a n : Nat) :
    (afterRead s a n).mem = s.mem := by
  unfold afterRead; split <;> rfl
@[simp] theorem afterRead_ram (s : State) (a n : Nat) :
    (afterRead s a n).ram = s.ram := by
  unfold afterRead; split <;> rfl
@[simp] theorem afterRead_volatile (s : State) (a n : Nat) :
    (afterRead s a n).volatile = s.volatile := by
  unfold afterRead; split <;> rfl
@[simp] theorem afterRead_powered (s : State) (a n : Nat) :
    (afterRead s a n).powered = s.powered := by
  unfold afterRead; split <;> rfl
@[simp] theorem afterRead_env (s : State) (a n : Nat) :
    (afterRead s a n).env = s.env := by
  unfold afterRead; split <;> rfl
@[simp] theorem afterRead_resp (s : State) (a n : Nat) :
    (afterRead s a n).resp = s.resp := by
  unfold afterRead; split <;> rfl
@[simp] theorem afterRead_accMem (s : State) (a n : Nat) :
    (afterRead s a n).accMem = s.accMem := by
  unfold afterRead; split <;> rfl
@[simp] theorem afterRead_raced (s : State) (a n : Nat) :
    (afterRead s a n).raced = s.raced := by
  unfold afterRead; split <;> rfl
@[simp] theorem afterRead_busErrIn (s : State) (a n : Nat) :
    (afterRead s a n).busErrIn = s.busErrIn.map (· - n) := by
  unfold afterRead; split <;> rfl
@[simp] theorem afterRead_free (s : State) (a n : Nat) :
    (afterRead s a n).free =
      if s.raced = [] ∧ allPlain s.volatile a n = true then s.free else s.free + n := by
  unfold afterRead; split <;> rfl

/-! ### setMem -/

@[simp] theorem setMem_irqEn (s : State) (m : Memory) :
    (setMem s m).irqEn = s.irqEn := rfl
@[simp] theorem setMem_busy (s : State) (m : Memory) :
    (setMem s m).busy = s.busy := rfl
@[simp] theorem setMem_done (s : State) (m : Memory) :
    (setMem s m).done = s.done := rfl
@[simp] theorem setMem_code (s : State) (m : Memory) :
    (setMem s m).code = s.code := rfl
@[simp] theorem setMem_faults (s : State) (m : Memory) :
    (setMem s m).faults = s.faults := rfl
@[simp] theorem setMem_cmd (s : State) (m : Memory) :
    (setMem s m).cmd = s.cmd := rfl
@[simp] theorem setMem_opr (s : State) (m : Memory) :
    (setMem s m).opr = s.opr := rfl
@[simp] theorem setMem_lat (s : State) (m : Memory) :
    (setMem s m).lat = s.lat := rfl
@[simp] theorem setMem_slots (s : State) (m : Memory) :
    (setMem s m).slots = s.slots := rfl
@[simp] theorem setMem_scratch (s : State) (m : Memory) :
    (setMem s m).scratch = s.scratch := rfl
@[simp] theorem setMem_dbuf (s : State) (m : Memory) :
    (setMem s m).dbuf = s.dbuf := rfl
@[simp] theorem setMem_diff (s : State) (m : Memory) :
    (setMem s m).diff = s.diff := rfl
@[simp] theorem setMem_progress (s : State) (m : Memory) :
    (setMem s m).progress = s.progress := rfl
@[simp] theorem setMem_mem (s : State) (m : Memory) :
    (setMem s m).mem = m := rfl
@[simp] theorem setMem_ram (s : State) (m : Memory) :
    (setMem s m).ram = s.ram := rfl
@[simp] theorem setMem_volatile (s : State) (m : Memory) :
    (setMem s m).volatile = s.volatile := rfl
@[simp] theorem setMem_powered (s : State) (m : Memory) :
    (setMem s m).powered = s.powered := rfl
@[simp] theorem setMem_env (s : State) (m : Memory) :
    (setMem s m).env = s.env := rfl
@[simp] theorem setMem_resp (s : State) (m : Memory) :
    (setMem s m).resp = s.resp := rfl
@[simp] theorem setMem_accMem (s : State) (m : Memory) :
    (setMem s m).accMem = s.accMem := rfl
@[simp] theorem setMem_raced (s : State) (m : Memory) :
    (setMem s m).raced = s.raced := rfl
@[simp] theorem setMem_busErrIn (s : State) (m : Memory) :
    (setMem s m).busErrIn = s.busErrIn := rfl
@[simp] theorem setMem_free (s : State) (m : Memory) :
    (setMem s m).free = s.free := rfl

/-! ### useFree -/

@[simp] theorem useFree_irqEn (s : State) (n : Nat) :
    (useFree s n).irqEn = s.irqEn := rfl
@[simp] theorem useFree_busy (s : State) (n : Nat) :
    (useFree s n).busy = s.busy := rfl
@[simp] theorem useFree_done (s : State) (n : Nat) :
    (useFree s n).done = s.done := rfl
@[simp] theorem useFree_code (s : State) (n : Nat) :
    (useFree s n).code = s.code := rfl
@[simp] theorem useFree_faults (s : State) (n : Nat) :
    (useFree s n).faults = s.faults := rfl
@[simp] theorem useFree_cmd (s : State) (n : Nat) :
    (useFree s n).cmd = s.cmd := rfl
@[simp] theorem useFree_opr (s : State) (n : Nat) :
    (useFree s n).opr = s.opr := rfl
@[simp] theorem useFree_lat (s : State) (n : Nat) :
    (useFree s n).lat = s.lat := rfl
@[simp] theorem useFree_slots (s : State) (n : Nat) :
    (useFree s n).slots = s.slots := rfl
@[simp] theorem useFree_scratch (s : State) (n : Nat) :
    (useFree s n).scratch = s.scratch := rfl
@[simp] theorem useFree_dbuf (s : State) (n : Nat) :
    (useFree s n).dbuf = s.dbuf := rfl
@[simp] theorem useFree_diff (s : State) (n : Nat) :
    (useFree s n).diff = s.diff := rfl
@[simp] theorem useFree_progress (s : State) (n : Nat) :
    (useFree s n).progress = s.progress := rfl
@[simp] theorem useFree_mem (s : State) (n : Nat) :
    (useFree s n).mem = s.mem := rfl
@[simp] theorem useFree_ram (s : State) (n : Nat) :
    (useFree s n).ram = s.ram := rfl
@[simp] theorem useFree_volatile (s : State) (n : Nat) :
    (useFree s n).volatile = s.volatile := rfl
@[simp] theorem useFree_powered (s : State) (n : Nat) :
    (useFree s n).powered = s.powered := rfl
@[simp] theorem useFree_env (s : State) (n : Nat) :
    (useFree s n).env = s.env := rfl
@[simp] theorem useFree_resp (s : State) (n : Nat) :
    (useFree s n).resp = s.resp := rfl
@[simp] theorem useFree_accMem (s : State) (n : Nat) :
    (useFree s n).accMem = s.accMem := rfl
@[simp] theorem useFree_raced (s : State) (n : Nat) :
    (useFree s n).raced = s.raced := rfl
@[simp] theorem useFree_busErrIn (s : State) (n : Nat) :
    (useFree s n).busErrIn = s.busErrIn := rfl
@[simp] theorem useFree_free (s : State) (n : Nat) :
    (useFree s n).free = s.free + n := rfl

/-! ### setDbuf -/

@[simp] theorem setDbuf_irqEn (s : State) (d : List Byte) :
    (setDbuf s d).irqEn = s.irqEn := rfl
@[simp] theorem setDbuf_busy (s : State) (d : List Byte) :
    (setDbuf s d).busy = s.busy := rfl
@[simp] theorem setDbuf_done (s : State) (d : List Byte) :
    (setDbuf s d).done = s.done := rfl
@[simp] theorem setDbuf_code (s : State) (d : List Byte) :
    (setDbuf s d).code = s.code := rfl
@[simp] theorem setDbuf_faults (s : State) (d : List Byte) :
    (setDbuf s d).faults = s.faults := rfl
@[simp] theorem setDbuf_cmd (s : State) (d : List Byte) :
    (setDbuf s d).cmd = s.cmd := rfl
@[simp] theorem setDbuf_opr (s : State) (d : List Byte) :
    (setDbuf s d).opr = s.opr := rfl
@[simp] theorem setDbuf_lat (s : State) (d : List Byte) :
    (setDbuf s d).lat = s.lat := rfl
@[simp] theorem setDbuf_slots (s : State) (d : List Byte) :
    (setDbuf s d).slots = s.slots := rfl
@[simp] theorem setDbuf_scratch (s : State) (d : List Byte) :
    (setDbuf s d).scratch = s.scratch := rfl
@[simp] theorem setDbuf_dbuf (s : State) (d : List Byte) :
    (setDbuf s d).dbuf = d := rfl
@[simp] theorem setDbuf_diff (s : State) (d : List Byte) :
    (setDbuf s d).diff = s.diff := rfl
@[simp] theorem setDbuf_progress (s : State) (d : List Byte) :
    (setDbuf s d).progress = s.progress := rfl
@[simp] theorem setDbuf_mem (s : State) (d : List Byte) :
    (setDbuf s d).mem = s.mem := rfl
@[simp] theorem setDbuf_ram (s : State) (d : List Byte) :
    (setDbuf s d).ram = s.ram := rfl
@[simp] theorem setDbuf_volatile (s : State) (d : List Byte) :
    (setDbuf s d).volatile = s.volatile := rfl
@[simp] theorem setDbuf_powered (s : State) (d : List Byte) :
    (setDbuf s d).powered = s.powered := rfl
@[simp] theorem setDbuf_env (s : State) (d : List Byte) :
    (setDbuf s d).env = s.env := rfl
@[simp] theorem setDbuf_resp (s : State) (d : List Byte) :
    (setDbuf s d).resp = s.resp := rfl
@[simp] theorem setDbuf_accMem (s : State) (d : List Byte) :
    (setDbuf s d).accMem = s.accMem := rfl
@[simp] theorem setDbuf_raced (s : State) (d : List Byte) :
    (setDbuf s d).raced = s.raced := rfl
@[simp] theorem setDbuf_busErrIn (s : State) (d : List Byte) :
    (setDbuf s d).busErrIn = s.busErrIn := rfl
@[simp] theorem setDbuf_free (s : State) (d : List Byte) :
    (setDbuf s d).free = s.free := rfl

/-! ### setDiff -/

@[simp] theorem setDiff_irqEn (s : State) (d : Byte) :
    (setDiff s d).irqEn = s.irqEn := rfl
@[simp] theorem setDiff_busy (s : State) (d : Byte) :
    (setDiff s d).busy = s.busy := rfl
@[simp] theorem setDiff_done (s : State) (d : Byte) :
    (setDiff s d).done = s.done := rfl
@[simp] theorem setDiff_code (s : State) (d : Byte) :
    (setDiff s d).code = s.code := rfl
@[simp] theorem setDiff_faults (s : State) (d : Byte) :
    (setDiff s d).faults = s.faults := rfl
@[simp] theorem setDiff_cmd (s : State) (d : Byte) :
    (setDiff s d).cmd = s.cmd := rfl
@[simp] theorem setDiff_opr (s : State) (d : Byte) :
    (setDiff s d).opr = s.opr := rfl
@[simp] theorem setDiff_lat (s : State) (d : Byte) :
    (setDiff s d).lat = s.lat := rfl
@[simp] theorem setDiff_slots (s : State) (d : Byte) :
    (setDiff s d).slots = s.slots := rfl
@[simp] theorem setDiff_scratch (s : State) (d : Byte) :
    (setDiff s d).scratch = s.scratch := rfl
@[simp] theorem setDiff_dbuf (s : State) (d : Byte) :
    (setDiff s d).dbuf = s.dbuf := rfl
@[simp] theorem setDiff_diff (s : State) (d : Byte) :
    (setDiff s d).diff = d := rfl
@[simp] theorem setDiff_progress (s : State) (d : Byte) :
    (setDiff s d).progress = s.progress := rfl
@[simp] theorem setDiff_mem (s : State) (d : Byte) :
    (setDiff s d).mem = s.mem := rfl
@[simp] theorem setDiff_ram (s : State) (d : Byte) :
    (setDiff s d).ram = s.ram := rfl
@[simp] theorem setDiff_volatile (s : State) (d : Byte) :
    (setDiff s d).volatile = s.volatile := rfl
@[simp] theorem setDiff_powered (s : State) (d : Byte) :
    (setDiff s d).powered = s.powered := rfl
@[simp] theorem setDiff_env (s : State) (d : Byte) :
    (setDiff s d).env = s.env := rfl
@[simp] theorem setDiff_resp (s : State) (d : Byte) :
    (setDiff s d).resp = s.resp := rfl
@[simp] theorem setDiff_accMem (s : State) (d : Byte) :
    (setDiff s d).accMem = s.accMem := rfl
@[simp] theorem setDiff_raced (s : State) (d : Byte) :
    (setDiff s d).raced = s.raced := rfl
@[simp] theorem setDiff_busErrIn (s : State) (d : Byte) :
    (setDiff s d).busErrIn = s.busErrIn := rfl
@[simp] theorem setDiff_free (s : State) (d : Byte) :
    (setDiff s d).free = s.free := rfl

/-! ### setSlot -/

@[simp] theorem setSlot_irqEn (s : State) (c : Nat) (v : Slot) :
    (setSlot s c v).irqEn = s.irqEn := rfl
@[simp] theorem setSlot_busy (s : State) (c : Nat) (v : Slot) :
    (setSlot s c v).busy = s.busy := rfl
@[simp] theorem setSlot_done (s : State) (c : Nat) (v : Slot) :
    (setSlot s c v).done = s.done := rfl
@[simp] theorem setSlot_code (s : State) (c : Nat) (v : Slot) :
    (setSlot s c v).code = s.code := rfl
@[simp] theorem setSlot_faults (s : State) (c : Nat) (v : Slot) :
    (setSlot s c v).faults = s.faults := rfl
@[simp] theorem setSlot_cmd (s : State) (c : Nat) (v : Slot) :
    (setSlot s c v).cmd = s.cmd := rfl
@[simp] theorem setSlot_opr (s : State) (c : Nat) (v : Slot) :
    (setSlot s c v).opr = s.opr := rfl
@[simp] theorem setSlot_lat (s : State) (c : Nat) (v : Slot) :
    (setSlot s c v).lat = s.lat := rfl
@[simp] theorem setSlot_slots (s : State) (c : Nat) (v : Slot) :
    (setSlot s c v).slots = s.slots.setIfInBounds c v := rfl
@[simp] theorem setSlot_scratch (s : State) (c : Nat) (v : Slot) :
    (setSlot s c v).scratch = s.scratch := rfl
@[simp] theorem setSlot_dbuf (s : State) (c : Nat) (v : Slot) :
    (setSlot s c v).dbuf = s.dbuf := rfl
@[simp] theorem setSlot_diff (s : State) (c : Nat) (v : Slot) :
    (setSlot s c v).diff = s.diff := rfl
@[simp] theorem setSlot_progress (s : State) (c : Nat) (v : Slot) :
    (setSlot s c v).progress = s.progress := rfl
@[simp] theorem setSlot_mem (s : State) (c : Nat) (v : Slot) :
    (setSlot s c v).mem = s.mem := rfl
@[simp] theorem setSlot_ram (s : State) (c : Nat) (v : Slot) :
    (setSlot s c v).ram = s.ram := rfl
@[simp] theorem setSlot_volatile (s : State) (c : Nat) (v : Slot) :
    (setSlot s c v).volatile = s.volatile := rfl
@[simp] theorem setSlot_powered (s : State) (c : Nat) (v : Slot) :
    (setSlot s c v).powered = s.powered := rfl
@[simp] theorem setSlot_env (s : State) (c : Nat) (v : Slot) :
    (setSlot s c v).env = s.env := rfl
@[simp] theorem setSlot_resp (s : State) (c : Nat) (v : Slot) :
    (setSlot s c v).resp = s.resp := rfl
@[simp] theorem setSlot_accMem (s : State) (c : Nat) (v : Slot) :
    (setSlot s c v).accMem = s.accMem := rfl
@[simp] theorem setSlot_raced (s : State) (c : Nat) (v : Slot) :
    (setSlot s c v).raced = s.raced := rfl
@[simp] theorem setSlot_busErrIn (s : State) (c : Nat) (v : Slot) :
    (setSlot s c v).busErrIn = s.busErrIn := rfl
@[simp] theorem setSlot_free (s : State) (c : Nat) (v : Slot) :
    (setSlot s c v).free = s.free := rfl

/-! ### setSlotFb -/

@[simp] theorem setSlotFb_irqEn (P : Params) (s : State) (c : Nat) (f : Block) :
    (setSlotFb P s c f).irqEn = s.irqEn := rfl
@[simp] theorem setSlotFb_busy (P : Params) (s : State) (c : Nat) (f : Block) :
    (setSlotFb P s c f).busy = s.busy := rfl
@[simp] theorem setSlotFb_done (P : Params) (s : State) (c : Nat) (f : Block) :
    (setSlotFb P s c f).done = s.done := rfl
@[simp] theorem setSlotFb_code (P : Params) (s : State) (c : Nat) (f : Block) :
    (setSlotFb P s c f).code = s.code := rfl
@[simp] theorem setSlotFb_faults (P : Params) (s : State) (c : Nat) (f : Block) :
    (setSlotFb P s c f).faults = s.faults := rfl
@[simp] theorem setSlotFb_cmd (P : Params) (s : State) (c : Nat) (f : Block) :
    (setSlotFb P s c f).cmd = s.cmd := rfl
@[simp] theorem setSlotFb_opr (P : Params) (s : State) (c : Nat) (f : Block) :
    (setSlotFb P s c f).opr = s.opr := rfl
@[simp] theorem setSlotFb_lat (P : Params) (s : State) (c : Nat) (f : Block) :
    (setSlotFb P s c f).lat = s.lat := rfl
@[simp] theorem setSlotFb_slots (P : Params) (s : State) (c : Nat) (f : Block) :
    (setSlotFb P s c f).slots = s.slots.setIfInBounds c { slotAt P s c with fb := f } := rfl
@[simp] theorem setSlotFb_scratch (P : Params) (s : State) (c : Nat) (f : Block) :
    (setSlotFb P s c f).scratch = s.scratch := rfl
@[simp] theorem setSlotFb_dbuf (P : Params) (s : State) (c : Nat) (f : Block) :
    (setSlotFb P s c f).dbuf = s.dbuf := rfl
@[simp] theorem setSlotFb_diff (P : Params) (s : State) (c : Nat) (f : Block) :
    (setSlotFb P s c f).diff = s.diff := rfl
@[simp] theorem setSlotFb_progress (P : Params) (s : State) (c : Nat) (f : Block) :
    (setSlotFb P s c f).progress = s.progress := rfl
@[simp] theorem setSlotFb_mem (P : Params) (s : State) (c : Nat) (f : Block) :
    (setSlotFb P s c f).mem = s.mem := rfl
@[simp] theorem setSlotFb_ram (P : Params) (s : State) (c : Nat) (f : Block) :
    (setSlotFb P s c f).ram = s.ram := rfl
@[simp] theorem setSlotFb_volatile (P : Params) (s : State) (c : Nat) (f : Block) :
    (setSlotFb P s c f).volatile = s.volatile := rfl
@[simp] theorem setSlotFb_powered (P : Params) (s : State) (c : Nat) (f : Block) :
    (setSlotFb P s c f).powered = s.powered := rfl
@[simp] theorem setSlotFb_env (P : Params) (s : State) (c : Nat) (f : Block) :
    (setSlotFb P s c f).env = s.env := rfl
@[simp] theorem setSlotFb_resp (P : Params) (s : State) (c : Nat) (f : Block) :
    (setSlotFb P s c f).resp = s.resp := rfl
@[simp] theorem setSlotFb_accMem (P : Params) (s : State) (c : Nat) (f : Block) :
    (setSlotFb P s c f).accMem = s.accMem := rfl
@[simp] theorem setSlotFb_raced (P : Params) (s : State) (c : Nat) (f : Block) :
    (setSlotFb P s c f).raced = s.raced := rfl
@[simp] theorem setSlotFb_busErrIn (P : Params) (s : State) (c : Nat) (f : Block) :
    (setSlotFb P s c f).busErrIn = s.busErrIn := rfl
@[simp] theorem setSlotFb_free (P : Params) (s : State) (c : Nat) (f : Block) :
    (setSlotFb P s c f).free = s.free := rfl

/-! ### setScratch -/

@[simp] theorem setScratch_irqEn (s : State) (v : Scratch) :
    (setScratch s v).irqEn = s.irqEn := rfl
@[simp] theorem setScratch_busy (s : State) (v : Scratch) :
    (setScratch s v).busy = s.busy := rfl
@[simp] theorem setScratch_done (s : State) (v : Scratch) :
    (setScratch s v).done = s.done := rfl
@[simp] theorem setScratch_code (s : State) (v : Scratch) :
    (setScratch s v).code = s.code := rfl
@[simp] theorem setScratch_faults (s : State) (v : Scratch) :
    (setScratch s v).faults = s.faults := rfl
@[simp] theorem setScratch_cmd (s : State) (v : Scratch) :
    (setScratch s v).cmd = s.cmd := rfl
@[simp] theorem setScratch_opr (s : State) (v : Scratch) :
    (setScratch s v).opr = s.opr := rfl
@[simp] theorem setScratch_lat (s : State) (v : Scratch) :
    (setScratch s v).lat = s.lat := rfl
@[simp] theorem setScratch_slots (s : State) (v : Scratch) :
    (setScratch s v).slots = s.slots := rfl
@[simp] theorem setScratch_scratch (s : State) (v : Scratch) :
    (setScratch s v).scratch = v := rfl
@[simp] theorem setScratch_dbuf (s : State) (v : Scratch) :
    (setScratch s v).dbuf = s.dbuf := rfl
@[simp] theorem setScratch_diff (s : State) (v : Scratch) :
    (setScratch s v).diff = s.diff := rfl
@[simp] theorem setScratch_progress (s : State) (v : Scratch) :
    (setScratch s v).progress = s.progress := rfl
@[simp] theorem setScratch_mem (s : State) (v : Scratch) :
    (setScratch s v).mem = s.mem := rfl
@[simp] theorem setScratch_ram (s : State) (v : Scratch) :
    (setScratch s v).ram = s.ram := rfl
@[simp] theorem setScratch_volatile (s : State) (v : Scratch) :
    (setScratch s v).volatile = s.volatile := rfl
@[simp] theorem setScratch_powered (s : State) (v : Scratch) :
    (setScratch s v).powered = s.powered := rfl
@[simp] theorem setScratch_env (s : State) (v : Scratch) :
    (setScratch s v).env = s.env := rfl
@[simp] theorem setScratch_resp (s : State) (v : Scratch) :
    (setScratch s v).resp = s.resp := rfl
@[simp] theorem setScratch_accMem (s : State) (v : Scratch) :
    (setScratch s v).accMem = s.accMem := rfl
@[simp] theorem setScratch_raced (s : State) (v : Scratch) :
    (setScratch s v).raced = s.raced := rfl
@[simp] theorem setScratch_busErrIn (s : State) (v : Scratch) :
    (setScratch s v).busErrIn = s.busErrIn := rfl
@[simp] theorem setScratch_free (s : State) (v : Scratch) :
    (setScratch s v).free = s.free := rfl

/-! ### setProgress -/

@[simp] theorem setProgress_irqEn (s : State) (p : Progress) :
    (setProgress s p).irqEn = s.irqEn := rfl
@[simp] theorem setProgress_busy (s : State) (p : Progress) :
    (setProgress s p).busy = s.busy := rfl
@[simp] theorem setProgress_done (s : State) (p : Progress) :
    (setProgress s p).done = s.done := rfl
@[simp] theorem setProgress_code (s : State) (p : Progress) :
    (setProgress s p).code = s.code := rfl
@[simp] theorem setProgress_faults (s : State) (p : Progress) :
    (setProgress s p).faults = s.faults := rfl
@[simp] theorem setProgress_cmd (s : State) (p : Progress) :
    (setProgress s p).cmd = s.cmd := rfl
@[simp] theorem setProgress_opr (s : State) (p : Progress) :
    (setProgress s p).opr = s.opr := rfl
@[simp] theorem setProgress_lat (s : State) (p : Progress) :
    (setProgress s p).lat = s.lat := rfl
@[simp] theorem setProgress_slots (s : State) (p : Progress) :
    (setProgress s p).slots = s.slots := rfl
@[simp] theorem setProgress_scratch (s : State) (p : Progress) :
    (setProgress s p).scratch = s.scratch := rfl
@[simp] theorem setProgress_dbuf (s : State) (p : Progress) :
    (setProgress s p).dbuf = s.dbuf := rfl
@[simp] theorem setProgress_diff (s : State) (p : Progress) :
    (setProgress s p).diff = s.diff := rfl
@[simp] theorem setProgress_progress (s : State) (p : Progress) :
    (setProgress s p).progress = p := rfl
@[simp] theorem setProgress_mem (s : State) (p : Progress) :
    (setProgress s p).mem = s.mem := rfl
@[simp] theorem setProgress_ram (s : State) (p : Progress) :
    (setProgress s p).ram = s.ram := rfl
@[simp] theorem setProgress_volatile (s : State) (p : Progress) :
    (setProgress s p).volatile = s.volatile := rfl
@[simp] theorem setProgress_powered (s : State) (p : Progress) :
    (setProgress s p).powered = s.powered := rfl
@[simp] theorem setProgress_env (s : State) (p : Progress) :
    (setProgress s p).env = s.env := rfl
@[simp] theorem setProgress_resp (s : State) (p : Progress) :
    (setProgress s p).resp = s.resp := rfl
@[simp] theorem setProgress_accMem (s : State) (p : Progress) :
    (setProgress s p).accMem = s.accMem := rfl
@[simp] theorem setProgress_raced (s : State) (p : Progress) :
    (setProgress s p).raced = s.raced := rfl
@[simp] theorem setProgress_busErrIn (s : State) (p : Progress) :
    (setProgress s p).busErrIn = s.busErrIn := rfl
@[simp] theorem setProgress_free (s : State) (p : Progress) :
    (setProgress s p).free = s.free := rfl

/-! ### accept -/

@[simp] theorem accept_irqEn (s : State) (w : Word) :
    (accept s w).irqEn = s.irqEn := rfl
@[simp] theorem accept_busy (s : State) (w : Word) :
    (accept s w).busy = true := rfl
@[simp] theorem accept_done (s : State) (w : Word) :
    (accept s w).done = false := rfl
@[simp] theorem accept_code (s : State) (w : Word) :
    (accept s w).code = .ok := rfl
@[simp] theorem accept_faults (s : State) (w : Word) :
    (accept s w).faults = s.faults := rfl
@[simp] theorem accept_cmd (s : State) (w : Word) :
    (accept s w).cmd = w := rfl
@[simp] theorem accept_opr (s : State) (w : Word) :
    (accept s w).opr = s.opr := rfl
@[simp] theorem accept_lat (s : State) (w : Word) :
    (accept s w).lat = s.opr := rfl
@[simp] theorem accept_slots (s : State) (w : Word) :
    (accept s w).slots = s.slots := rfl
@[simp] theorem accept_scratch (s : State) (w : Word) :
    (accept s w).scratch = s.scratch := rfl
@[simp] theorem accept_dbuf (s : State) (w : Word) :
    (accept s w).dbuf = s.dbuf := rfl
@[simp] theorem accept_diff (s : State) (w : Word) :
    (accept s w).diff = s.diff := rfl
@[simp] theorem accept_progress (s : State) (w : Word) :
    (accept s w).progress = .accepted := rfl
@[simp] theorem accept_mem (s : State) (w : Word) :
    (accept s w).mem = s.mem := rfl
@[simp] theorem accept_ram (s : State) (w : Word) :
    (accept s w).ram = s.ram := rfl
@[simp] theorem accept_volatile (s : State) (w : Word) :
    (accept s w).volatile = s.volatile := rfl
@[simp] theorem accept_powered (s : State) (w : Word) :
    (accept s w).powered = s.powered := rfl
@[simp] theorem accept_env (s : State) (w : Word) :
    (accept s w).env = s.env := rfl
@[simp] theorem accept_resp (s : State) (w : Word) :
    (accept s w).resp = s.resp := rfl
@[simp] theorem accept_accMem (s : State) (w : Word) :
    (accept s w).accMem = s.mem := rfl
@[simp] theorem accept_raced (s : State) (w : Word) :
    (accept s w).raced = [] := rfl
@[simp] theorem accept_busErrIn (s : State) (w : Word) :
    (accept s w).busErrIn = none := rfl
@[simp] theorem accept_free (s : State) (w : Word) :
    (accept s w).free = s.free := rfl

/-! ### complete -/

@[simp] theorem complete_irqEn (s : State) (k : StatusCode) :
    (complete s k).irqEn = s.irqEn := rfl
@[simp] theorem complete_busy (s : State) (k : StatusCode) :
    (complete s k).busy = false := rfl
@[simp] theorem complete_done (s : State) (k : StatusCode) :
    (complete s k).done = true := rfl
@[simp] theorem complete_code (s : State) (k : StatusCode) :
    (complete s k).code = k := rfl
@[simp] theorem complete_faults (s : State) (k : StatusCode) :
    (complete s k).faults = s.faults := rfl
@[simp] theorem complete_cmd (s : State) (k : StatusCode) :
    (complete s k).cmd = s.cmd := rfl
@[simp] theorem complete_opr (s : State) (k : StatusCode) :
    (complete s k).opr = s.opr := rfl
@[simp] theorem complete_lat (s : State) (k : StatusCode) :
    (complete s k).lat = s.lat := rfl
@[simp] theorem complete_slots (s : State) (k : StatusCode) :
    (complete s k).slots = s.slots := rfl
@[simp] theorem complete_scratch (s : State) (k : StatusCode) :
    (complete s k).scratch = s.scratch := rfl
@[simp] theorem complete_dbuf (s : State) (k : StatusCode) :
    (complete s k).dbuf = s.dbuf := rfl
@[simp] theorem complete_diff (s : State) (k : StatusCode) :
    (complete s k).diff = s.diff := rfl
@[simp] theorem complete_progress (s : State) (k : StatusCode) :
    (complete s k).progress = .idle := rfl
@[simp] theorem complete_mem (s : State) (k : StatusCode) :
    (complete s k).mem = s.mem := rfl
@[simp] theorem complete_ram (s : State) (k : StatusCode) :
    (complete s k).ram = s.ram := rfl
@[simp] theorem complete_volatile (s : State) (k : StatusCode) :
    (complete s k).volatile = s.volatile := rfl
@[simp] theorem complete_powered (s : State) (k : StatusCode) :
    (complete s k).powered = s.powered := rfl
@[simp] theorem complete_env (s : State) (k : StatusCode) :
    (complete s k).env = s.env := rfl
@[simp] theorem complete_resp (s : State) (k : StatusCode) :
    (complete s k).resp = s.resp := rfl
@[simp] theorem complete_accMem (s : State) (k : StatusCode) :
    (complete s k).accMem = [] := rfl
@[simp] theorem complete_raced (s : State) (k : StatusCode) :
    (complete s k).raced = [] := rfl
@[simp] theorem complete_busErrIn (s : State) (k : StatusCode) :
    (complete s k).busErrIn = none := rfl
@[simp] theorem complete_free (s : State) (k : StatusCode) :
    (complete s k).free = s.free := rfl

/-! ### setFault -/

@[simp] theorem setFault_irqEn (s : State) (n : FaultCause) :
    (setFault s n).irqEn = s.irqEn := rfl
@[simp] theorem setFault_busy (s : State) (n : FaultCause) :
    (setFault s n).busy = s.busy := rfl
@[simp] theorem setFault_done (s : State) (n : FaultCause) :
    (setFault s n).done = s.done := rfl
@[simp] theorem setFault_code (s : State) (n : FaultCause) :
    (setFault s n).code = s.code := rfl
@[simp] theorem setFault_faults (s : State) (n : FaultCause) :
    (setFault s n).faults = s.faults ||| causeBit n := rfl
@[simp] theorem setFault_cmd (s : State) (n : FaultCause) :
    (setFault s n).cmd = s.cmd := rfl
@[simp] theorem setFault_opr (s : State) (n : FaultCause) :
    (setFault s n).opr = s.opr := rfl
@[simp] theorem setFault_lat (s : State) (n : FaultCause) :
    (setFault s n).lat = s.lat := rfl
@[simp] theorem setFault_slots (s : State) (n : FaultCause) :
    (setFault s n).slots = s.slots := rfl
@[simp] theorem setFault_scratch (s : State) (n : FaultCause) :
    (setFault s n).scratch = s.scratch := rfl
@[simp] theorem setFault_dbuf (s : State) (n : FaultCause) :
    (setFault s n).dbuf = s.dbuf := rfl
@[simp] theorem setFault_diff (s : State) (n : FaultCause) :
    (setFault s n).diff = s.diff := rfl
@[simp] theorem setFault_progress (s : State) (n : FaultCause) :
    (setFault s n).progress = s.progress := rfl
@[simp] theorem setFault_mem (s : State) (n : FaultCause) :
    (setFault s n).mem = s.mem := rfl
@[simp] theorem setFault_ram (s : State) (n : FaultCause) :
    (setFault s n).ram = s.ram := rfl
@[simp] theorem setFault_volatile (s : State) (n : FaultCause) :
    (setFault s n).volatile = s.volatile := rfl
@[simp] theorem setFault_powered (s : State) (n : FaultCause) :
    (setFault s n).powered = s.powered := rfl
@[simp] theorem setFault_env (s : State) (n : FaultCause) :
    (setFault s n).env = s.env := rfl
@[simp] theorem setFault_resp (s : State) (n : FaultCause) :
    (setFault s n).resp = s.resp := rfl
@[simp] theorem setFault_accMem (s : State) (n : FaultCause) :
    (setFault s n).accMem = s.accMem := rfl
@[simp] theorem setFault_raced (s : State) (n : FaultCause) :
    (setFault s n).raced = s.raced := rfl
@[simp] theorem setFault_busErrIn (s : State) (n : FaultCause) :
    (setFault s n).busErrIn = s.busErrIn := rfl
@[simp] theorem setFault_free (s : State) (n : FaultCause) :
    (setFault s n).free = s.free := rfl

/-! ### raiseCmdFault -/

@[simp] theorem raiseCmdFault_irqEn (s : State) (n : FaultCause) :
    (raiseCmdFault s n).irqEn = s.irqEn := rfl
@[simp] theorem raiseCmdFault_busy (s : State) (n : FaultCause) :
    (raiseCmdFault s n).busy = false := rfl
@[simp] theorem raiseCmdFault_done (s : State) (n : FaultCause) :
    (raiseCmdFault s n).done = true := rfl
@[simp] theorem raiseCmdFault_code (s : State) (n : FaultCause) :
    (raiseCmdFault s n).code = .cmdFault := rfl
@[simp] theorem raiseCmdFault_faults (s : State) (n : FaultCause) :
    (raiseCmdFault s n).faults = s.faults ||| causeBit n := rfl
@[simp] theorem raiseCmdFault_cmd (s : State) (n : FaultCause) :
    (raiseCmdFault s n).cmd = s.cmd := rfl
@[simp] theorem raiseCmdFault_opr (s : State) (n : FaultCause) :
    (raiseCmdFault s n).opr = s.opr := rfl
@[simp] theorem raiseCmdFault_lat (s : State) (n : FaultCause) :
    (raiseCmdFault s n).lat = s.lat := rfl
@[simp] theorem raiseCmdFault_slots (s : State) (n : FaultCause) :
    (raiseCmdFault s n).slots = s.slots := rfl
@[simp] theorem raiseCmdFault_scratch (s : State) (n : FaultCause) :
    (raiseCmdFault s n).scratch = s.scratch := rfl
@[simp] theorem raiseCmdFault_dbuf (s : State) (n : FaultCause) :
    (raiseCmdFault s n).dbuf = s.dbuf := rfl
@[simp] theorem raiseCmdFault_diff (s : State) (n : FaultCause) :
    (raiseCmdFault s n).diff = s.diff := rfl
@[simp] theorem raiseCmdFault_progress (s : State) (n : FaultCause) :
    (raiseCmdFault s n).progress = .idle := rfl
@[simp] theorem raiseCmdFault_mem (s : State) (n : FaultCause) :
    (raiseCmdFault s n).mem = s.mem := rfl
@[simp] theorem raiseCmdFault_ram (s : State) (n : FaultCause) :
    (raiseCmdFault s n).ram = s.ram := rfl
@[simp] theorem raiseCmdFault_volatile (s : State) (n : FaultCause) :
    (raiseCmdFault s n).volatile = s.volatile := rfl
@[simp] theorem raiseCmdFault_powered (s : State) (n : FaultCause) :
    (raiseCmdFault s n).powered = s.powered := rfl
@[simp] theorem raiseCmdFault_env (s : State) (n : FaultCause) :
    (raiseCmdFault s n).env = s.env := rfl
@[simp] theorem raiseCmdFault_resp (s : State) (n : FaultCause) :
    (raiseCmdFault s n).resp = s.resp := rfl
@[simp] theorem raiseCmdFault_accMem (s : State) (n : FaultCause) :
    (raiseCmdFault s n).accMem = [] := rfl
@[simp] theorem raiseCmdFault_raced (s : State) (n : FaultCause) :
    (raiseCmdFault s n).raced = [] := rfl
@[simp] theorem raiseCmdFault_busErrIn (s : State) (n : FaultCause) :
    (raiseCmdFault s n).busErrIn = none := rfl
@[simp] theorem raiseCmdFault_free (s : State) (n : FaultCause) :
    (raiseCmdFault s n).free = s.free := rfl

/-! ### acknowledge -/

@[simp] theorem acknowledge_irqEn (s : State) :
    (acknowledge s).irqEn = s.irqEn := rfl
@[simp] theorem acknowledge_busy (s : State) :
    (acknowledge s).busy = s.busy := rfl
@[simp] theorem acknowledge_done (s : State) :
    (acknowledge s).done = false := rfl
@[simp] theorem acknowledge_code (s : State) :
    (acknowledge s).code = s.code := rfl
@[simp] theorem acknowledge_faults (s : State) :
    (acknowledge s).faults = s.faults := rfl
@[simp] theorem acknowledge_cmd (s : State) :
    (acknowledge s).cmd = s.cmd := rfl
@[simp] theorem acknowledge_opr (s : State) :
    (acknowledge s).opr = s.opr := rfl
@[simp] theorem acknowledge_lat (s : State) :
    (acknowledge s).lat = s.lat := rfl
@[simp] theorem acknowledge_slots (s : State) :
    (acknowledge s).slots = s.slots := rfl
@[simp] theorem acknowledge_scratch (s : State) :
    (acknowledge s).scratch = s.scratch := rfl
@[simp] theorem acknowledge_dbuf (s : State) :
    (acknowledge s).dbuf = s.dbuf := rfl
@[simp] theorem acknowledge_diff (s : State) :
    (acknowledge s).diff = s.diff := rfl
@[simp] theorem acknowledge_progress (s : State) :
    (acknowledge s).progress = s.progress := rfl
@[simp] theorem acknowledge_mem (s : State) :
    (acknowledge s).mem = s.mem := rfl
@[simp] theorem acknowledge_ram (s : State) :
    (acknowledge s).ram = s.ram := rfl
@[simp] theorem acknowledge_volatile (s : State) :
    (acknowledge s).volatile = s.volatile := rfl
@[simp] theorem acknowledge_powered (s : State) :
    (acknowledge s).powered = s.powered := rfl
@[simp] theorem acknowledge_env (s : State) :
    (acknowledge s).env = s.env := rfl
@[simp] theorem acknowledge_resp (s : State) :
    (acknowledge s).resp = s.resp := rfl
@[simp] theorem acknowledge_accMem (s : State) :
    (acknowledge s).accMem = s.accMem := rfl
@[simp] theorem acknowledge_raced (s : State) :
    (acknowledge s).raced = s.raced := rfl
@[simp] theorem acknowledge_busErrIn (s : State) :
    (acknowledge s).busErrIn = s.busErrIn := rfl
@[simp] theorem acknowledge_free (s : State) :
    (acknowledge s).free = s.free := rfl

/-! ### respond -/

@[simp] theorem respond_irqEn (s : State) (r : HostResp) :
    (respond s r).irqEn = s.irqEn := rfl
@[simp] theorem respond_busy (s : State) (r : HostResp) :
    (respond s r).busy = s.busy := rfl
@[simp] theorem respond_done (s : State) (r : HostResp) :
    (respond s r).done = s.done := rfl
@[simp] theorem respond_code (s : State) (r : HostResp) :
    (respond s r).code = s.code := rfl
@[simp] theorem respond_faults (s : State) (r : HostResp) :
    (respond s r).faults = s.faults := rfl
@[simp] theorem respond_cmd (s : State) (r : HostResp) :
    (respond s r).cmd = s.cmd := rfl
@[simp] theorem respond_opr (s : State) (r : HostResp) :
    (respond s r).opr = s.opr := rfl
@[simp] theorem respond_lat (s : State) (r : HostResp) :
    (respond s r).lat = s.lat := rfl
@[simp] theorem respond_slots (s : State) (r : HostResp) :
    (respond s r).slots = s.slots := rfl
@[simp] theorem respond_scratch (s : State) (r : HostResp) :
    (respond s r).scratch = s.scratch := rfl
@[simp] theorem respond_dbuf (s : State) (r : HostResp) :
    (respond s r).dbuf = s.dbuf := rfl
@[simp] theorem respond_diff (s : State) (r : HostResp) :
    (respond s r).diff = s.diff := rfl
@[simp] theorem respond_progress (s : State) (r : HostResp) :
    (respond s r).progress = s.progress := rfl
@[simp] theorem respond_mem (s : State) (r : HostResp) :
    (respond s r).mem = s.mem := rfl
@[simp] theorem respond_ram (s : State) (r : HostResp) :
    (respond s r).ram = s.ram := rfl
@[simp] theorem respond_volatile (s : State) (r : HostResp) :
    (respond s r).volatile = s.volatile := rfl
@[simp] theorem respond_powered (s : State) (r : HostResp) :
    (respond s r).powered = s.powered := rfl
@[simp] theorem respond_env (s : State) (r : HostResp) :
    (respond s r).env = s.env := rfl
@[simp] theorem respond_resp (s : State) (r : HostResp) :
    (respond s r).resp = r := rfl
@[simp] theorem respond_accMem (s : State) (r : HostResp) :
    (respond s r).accMem = s.accMem := rfl
@[simp] theorem respond_raced (s : State) (r : HostResp) :
    (respond s r).raced = s.raced := rfl
@[simp] theorem respond_busErrIn (s : State) (r : HostResp) :
    (respond s r).busErrIn = s.busErrIn := rfl
@[simp] theorem respond_free (s : State) (r : HostResp) :
    (respond s r).free = s.free := rfl

end Sys2Proof.Machine
end

