-- ==== Sys2Proof/Laws/Port.lean ====
section
/-! SUPPORT. The bus-master port: what each access can do, and what it does in the plain situation. -/

namespace Sys2Proof.Machine

theorem allBacked_iff {P : Params} {ram : List Region} {a n : Nat} :
    allBacked P ram a n = true ↔ ∀ i < n, backed P ram (a + i) = true := by
  induction n generalizing a with
  | zero => simp [allBacked]
  | succ n ih =>
    rw [allBacked, Bool.and_eq_true, ih]
    constructor
    · rintro ⟨h0, h⟩ i hi
      cases i with
      | zero => exact h0
      | succ i =>
        have := h i (by omega)
        rwa [show a + 1 + i = a + (i + 1) by omega] at this
    · intro h
      refine ⟨h 0 (by omega), fun i hi => ?_⟩
      have := h (i + 1) (by omega)
      rwa [show a + (i + 1) = a + 1 + i by omega] at this

/-- A part of a backed range is backed. -/
theorem allBacked_mono {P : Params} {ram : List Region} {a n b m : Nat} (h : allBacked P ram a n = true) (hb : a ≤ b)
    (hm : b + m ≤ a + n) : allBacked P ram b m = true := by
  rw [allBacked_iff] at h ⊢
  intro i hi
  have := h (b - a + i) (by omega)
  rwa [show a + (b - a + i) = b + i by omega] at this

/-- A backed range ends within the address space. -/
theorem allBacked_le {P : Params} {ram : List Region} {a n : Nat} (h : allBacked P ram a n = true) (hn : 0 < n) :
    a + n ≤ 2 ^ 32 := by
  have := backed_lt (allBacked_iff.mp h (n - 1) (by omega))
  omega

/-- Plain memory, byte by byte. -/
theorem allPlain_iff {v : List Region} {a n : Nat} :
    allPlain v a n = true ↔ ∀ i < n, hasReadEffect v (a + i) = false := by
  simp [allPlain]

/-- A part of a plain range is plain. -/
theorem allPlain_mono {v : List Region} {a n b m : Nat} (h : allPlain v a n = true) (hb : a ≤ b)
    (hm : b + m ≤ a + n) : allPlain v b m = true := by
  rw [allPlain_iff] at h ⊢
  intro i hi
  have := h (b - a + i) (by omega)
  rwa [show a + (b - a + i) = b + i by omega] at this

/-- A part of a readable range is readable. -/
theorem readable_mono {P : Params} {s : State} {a n b m : Nat} (h : Readable P s a n) (hb : a ≤ b)
    (hm : b + m ≤ a + n) : Readable P s b m := ⟨allBacked_mono h.1 hb hm, allPlain_mono h.2 hb hm⟩

/-- Where an access does not fail, its bytes are backed. -/
theorem allBacked_of_accessFails {P : Params} {s : State} {a n : Nat} (h : accessFails P s a n = false) :
    allBacked P s.ram a n = true := by
  simp only [accessFails, Bool.or_eq_false_iff, Bool.not_eq_false'] at h
  exact h.2

/-! ### What an access can do -/

/-- A free choice among some bytes is one of them. -/
theorem freeChoice_mem (P : Params) (k : Nat) {bs : List Byte} (h : bs ≠ []) : freeChoice P k bs ∈ bs := by
  have hlt := Nat.mod_lt (P.free k) (List.length_pos_iff.mpr h)
  rw [freeChoice, List.getD_eq_getElem?_getD, List.getElem?_eq_getElem hlt]
  exact List.getElem_mem hlt

/-- A free choice among some bytes is each of them, for some free value. -/
theorem freeChoice_reaches {bs : List Byte} {v : Byte} (h : v ∈ bs) :
    ∃ n, ∀ (P : Params) (k : Nat), freeChoice { P with free := fun _ => n } k bs = v := by
  obtain ⟨n, hn, rfl⟩ := List.getElem_of_mem h
  exact ⟨n, fun P k => by simp [freeChoice, Nat.mod_eq_of_lt hn, hn]⟩

/-- Everything an engine read of a byte without read side effects can give. -/
theorem engineByte_mem (P : Params) {s : State} {a : Nat} (k : Nat) (h : hasReadEffect s.volatile a = false) :
    engineByte P s a k ∈ readChoices s a := by
  rw [engineByte, h]
  exact freeChoice_mem P k (by simp [readChoices])

/-- Everything a `MemRead` that answers can do. -/
theorem readBytes_some {P : Params} {s s' : State} {a n : Nat} {bs : List Byte}
    (h : readBytes P s a n = some (bs, s')) :
    accessFails P s a n = false ∧ s' = afterRead s a n ∧ bs.length = n ∧
      ∀ i, i < n → bs[i]? = some (engineByte P s (a + i) (s.free + i)) := by
  unfold readBytes at h
  split at h
  · simp at h
  · rename_i hf
    simp only [Option.some.injEq, Prod.mk.injEq] at h
    obtain ⟨rfl, rfl⟩ := h
    refine ⟨by simpa using hf, rfl, by simp, fun i hi => ?_⟩
    simp [hi]

/-- Everything a block read that answers can do. -/
theorem readBlock_some {P : Params} {s s' : State} {a : Nat} {d : Block}
    (h : readBlock P s a = some (d, s')) :
    accessFails P s a 8 = false ∧ s' = afterRead s a 8 ∧
      d = blockBytes P s a := by
  unfold readBlock at h
  split at h
  · simp at h
  · rename_i hf
    simp only [Option.some.injEq, Prod.mk.injEq] at h
    obtain ⟨rfl, rfl⟩ := h
    exact ⟨by simpa using hf, rfl, rfl⟩

/-- Everything a byte read that answers can do. -/
theorem readByte_some {P : Params} {s s' : State} {a : Nat} {b : Byte}
    (h : readByte P s a = some (b, s')) :
    accessFails P s a 1 = false ∧ s' = afterRead s a 1 ∧ b = engineByte P s a s.free := by
  unfold readByte at h
  split at h
  · simp at h
  · rename_i hf
    simp only [Option.some.injEq, Prod.mk.injEq] at h
    obtain ⟨rfl, rfl⟩ := h
    exact ⟨by simpa using hf, rfl, rfl⟩

/-- Everything a block write can do. -/
theorem writeBlock_cases (P : Params) (s : State) (a : Nat) (blk : Block) :
    (accessFails P s a 8 = false ∧
      writeBlock P s a blk = .ok (afterAccess (setMem s (memSetBytes s.mem a blk.toList)) 8)) ∨
    (accessFails P s a 8 = true ∧
      writeBlock P s a blk =
        .error (useFree (setMem s (tornWrite P s.ram s.mem a s.free blk.toList)) 8)) := by
  unfold writeBlock
  cases h : accessFails P s a 8 <;> simp [tornBlock]

/-- Everything a byte write can do. -/
theorem writeByte_cases (P : Params) (s : State) (a : Nat) (b : Byte) :
    (accessFails P s a 1 = false ∧
      writeByte P s a b = .ok (afterAccess (setMem s (memSet s.mem a b)) 1)) ∨
    (accessFails P s a 1 = true ∧ writeByte P s a b = .error s) := by
  unfold writeByte
  cases h : accessFails P s a 1 <;> simp

/-! ### In the plain situation -/

theorem accessFails_quiet {P : Params} {s : State} {a n : Nat} (hq : Quiet s) (hb : Backed P s a n) :
    accessFails P s a n = false := by
  simp [accessFails, platformError, hq.2, hb]

theorem afterRead_quiet {s : State} {a n : Nat} (hq : Quiet s) (hp : Plain s a n) : afterRead s a n = s := by
  rw [afterRead, if_pos ⟨hq.1, hp⟩]
  obtain ⟨_, h2⟩ := hq
  cases s
  simp_all [afterAccess]

theorem afterAccess_quiet {s : State} (n : Nat) (hq : Quiet s) : afterAccess s n = s := by
  obtain ⟨_, h2⟩ := hq
  cases s
  simp_all [afterAccess]

theorem engineByte_quiet {P : Params} {s : State} {a n : Nat} (hq : Quiet s) (hp : Plain s a n) {i : Nat}
    (hi : i < n) (k : Nat) : engineByte P s (a + i) k = memGet s.mem (a + i) := by
  simp [engineByte, freeChoice, readChoices, allPlain_iff.mp hp i hi, hq.1, Nat.mod_one]

/-- The block that a quiet read of plain memory returns is the block in memory. -/
theorem blockBytes_quiet {P : Params} {s : State} {a : Nat} (hq : Quiet s) (hp : Plain s a 8) :
    blockBytes P s a = memBlock s.mem a := by
  ext i hi
  simp [blockBytes, memBlock, engineByte_quiet hq hp hi]

/-- A backed string of plain memory, quietly read, is the string in memory, and nothing changes. -/
theorem readBytes_quiet {P : Params} {s : State} {a n : Nat} (hq : Quiet s) (hb : Readable P s a n) :
    readBytes P s a n = some (memString s.mem a n, s) := by
  rw [readBytes, accessFails_quiet hq hb.1, if_neg (by simp), afterRead_quiet hq hb.2, memString]
  congr 2
  exact List.map_congr_left fun i hi => engineByte_quiet hq hb.2 (by simpa using hi) _

theorem readBlock_quiet {P : Params} {s : State} {a : Nat} (hq : Quiet s) (hb : Readable P s a 8) :
    readBlock P s a = some (memBlock s.mem a, s) := by
  rw [readBlock, accessFails_quiet hq hb.1, if_neg (by simp), afterRead_quiet hq hb.2, blockBytes_quiet hq hb.2]

theorem readByte_quiet {P : Params} {s : State} {a : Nat} (hq : Quiet s) (hb : Readable P s a 1) :
    readByte P s a = some (memGet s.mem a, s) := by
  rw [readByte, accessFails_quiet hq hb.1, if_neg (by simp), afterRead_quiet hq hb.2]
  exact congrArg (fun b => some (b, s)) (engineByte_quiet (i := 0) hq hb.2 (by omega) _)

/-- A backed block, quietly written, is in memory afterwards, and nothing else changes. -/
theorem writeBlock_quiet {P : Params} {s : State} {a : Nat} (blk : Block) (hq : Quiet s)
    (hb : Backed P s a 8) :
    writeBlock P s a blk = .ok (setMem s (memSetBytes s.mem a blk.toList)) := by
  rw [writeBlock, accessFails_quiet hq hb, if_neg (by simp), afterAccess_quiet]
  exact hq

theorem writeByte_quiet {P : Params} {s : State} {a : Nat} (b : Byte) (hq : Quiet s)
    (hb : Backed P s a 1) : writeByte P s a b = .ok (setMem s (memSet s.mem a b)) := by
  rw [writeByte, accessFails_quiet hq hb, if_neg (by simp), afterAccess_quiet]
  exact hq

/-! ### Slots -/

/-- The slot just written is read back. -/
@[simp] theorem slotAt_setSlot_same (P : Params) (s : State) {c : Nat} (v : Slot) (hc : c < 15) :
    slotAt P (setSlot s c v) c = v := by
  simp [slotAt, setSlot, hc]

/-- Every other slot is as before. -/
theorem slotAt_setSlot_other (P : Params) (s : State) {c d : Nat} (v : Slot) (h : d ≠ c) :
    slotAt P (setSlot s c v) d = slotAt P s d := by
  simp [slotAt, setSlot, h.symm]

/-- A slot is read from the slot file alone. -/
theorem slotAt_congr {P : Params} {s t : State} (h : s.slots = t.slots) (c : Nat) :
    slotAt P s c = slotAt P t c := by
  simp [slotAt, h]

/-- Bytes of a block in memory. -/
@[simp] theorem memBlock_getElem (m : Memory) (a i : Nat) (h : i < 8) :
    (memBlock m a)[i] = memGet m (a + i) := by
  simp [memBlock]

@[simp] theorem memString_length (m : Memory) (a n : Nat) : (memString m a n).length = n := by
  simp [memString]

@[simp] theorem memString_getElem (m : Memory) (a n i : Nat) (h : i < (memString m a n).length) :
    (memString m a n)[i] = memGet m (a + i) := by
  simp [memString]

end Sys2Proof.Machine
end

