-- ==== Sys2Proof/Laws/Ofb.lean ====
section
/-! SUPPORT. The OFB block pass, said once: everything it can do, and what it does in the plain situation. -/

namespace Sys2Proof.Machine

@[simp] theorem xorBlock_getElem (a b : Block) (i : Nat) (h : i < 8) :
    (xorBlock a b)[i] = a[i] ^^^ b[i] := by
  simp [xorBlock]

@[simp] theorem xorBlock_toList_length (a b : Block) : (xorBlock a b).toList.length = 8 := by
  simp

@[simp] theorem ofbStep_fst (P : Params) (ks : List Byte) (fb d : Block) :
    (ofbStep P ks fb d).1 = xorBlock d (P.E ks fb) := rfl

@[simp] theorem ofbStep_snd (P : Params) (ks : List Byte) (fb d : Block) :
    (ofbStep P ks fb d).2 = P.E ks fb := rfl

/-- Everything a block pass that succeeds can do. -/
theorem ofbBlock_ok {P : Params} {ks : List Byte} {fb f : Block} {j : Nat} {s s' : State}
    (h : ofbBlock P ks fb j s = .ok (f, s')) :
    f = P.E ks fb ∧
      s' = afterAccess
        (setMem (afterRead s (srcAddr s + 8 * j) 8)
          (memSetBytes s.mem (dstAddr s + 8 * j) (xorBlock (blockBytes P s (srcAddr s + 8 * j)) f).toList)) 8 := by
  unfold ofbBlock at h
  cases hr : readBlock P s (srcAddr s + 8 * j) with
  | none => simp [hr] at h
  | some r =>
    obtain ⟨d, s1⟩ := r
    obtain ⟨_, rfl, rfl⟩ := readBlock_some hr
    simp only [hr] at h
    rcases writeBlock_cases P (afterRead s (srcAddr s + 8 * j) 8) (dstAddr s + 8 * j)
      (ofbStep P ks fb (blockBytes P s (srcAddr s + 8 * j))).1 with ⟨_, hw⟩ | ⟨_, hw⟩
    · rw [hw] at h
      simp only [Except.ok.injEq, Prod.mk.injEq] at h
      obtain ⟨rfl, rfl⟩ := h
      exact ⟨rfl, by simp⟩
    · rw [hw] at h
      cases h

/-- Everything a block pass that gets a bus error can do: a torn output block, and the model's counters. -/
theorem ofbBlock_error {P : Params} {ks : List Byte} {fb : Block} {j : Nat} {s s' : State}
    (h : ofbBlock P ks fb j s = .error s') :
    ∃ k b f, s' = { s with
      mem := tornWrite P s.ram s.mem (dstAddr s + 8 * j) k
        (xorBlock (blockBytes P s (srcAddr s + 8 * j)) (P.E ks fb)).toList
      busErrIn := b, free := f } ∧ (b = s.busErrIn ∨ b = s.busErrIn.map (· - 8)) := by
  unfold ofbBlock at h
  cases hr : readBlock P s (srcAddr s + 8 * j) with
  | none =>
    simp only [hr, Except.error.injEq] at h
    exact ⟨_, _, _, h.symm, .inl rfl⟩
  | some r =>
    obtain ⟨d, s1⟩ := r
    obtain ⟨_, rfl, rfl⟩ := readBlock_some hr
    simp only [hr] at h
    rcases writeBlock_cases P (afterRead s (srcAddr s + 8 * j) 8) (dstAddr s + 8 * j)
      (ofbStep P ks fb (blockBytes P s (srcAddr s + 8 * j))).1 with ⟨_, hw⟩ | ⟨_, hw⟩
    · rw [hw] at h
      cases h
    · rw [hw] at h
      simp only [Except.error.injEq] at h
      refine ⟨(afterRead s (srcAddr s + 8 * j) 8).free, s.busErrIn.map (· - 8),
        (afterRead s (srcAddr s + 8 * j) 8).free + 8, ?_, .inr rfl⟩
      rw [← h]
      unfold afterRead
      split <;> rfl

/-- A block pass in the plain situation (R78): the output block is data XOR keystream, the new feedback value is
the keystream block, and nothing but the output block changes. -/
theorem ofbBlock_quiet {P : Params} {ks : List Byte} {fb : Block} {j : Nat} {s : State} (hq : Quiet s)
    (hs : Readable P s (srcAddr s + 8 * j) 8) (hd : Backed P s (dstAddr s + 8 * j) 8) :
    ofbBlock P ks fb j s =
      .ok (P.E ks fb,
        setMem s (memSetBytes s.mem (dstAddr s + 8 * j)
          (xorBlock (memBlock s.mem (srcAddr s + 8 * j)) (P.E ks fb)).toList)) := by
  rw [ofbBlock, readBlock_quiet hq hs]
  simp only [ofbStep_fst, writeBlock_quiet _ hq hd, ofbStep_snd]

/-- A block pass that gets a bus error, whichever access got it, in a state without a race and on plain memory: nothing
but output block `j` and the counter of free values changes, and each byte of it has its old value or data XOR
keystream. -/
theorem ofbBlock_error_quiet {P : Params} {ks : List Byte} {fb : Block} {j : Nat} {s s' : State} (hq : Quiet s)
    (hp : Plain s (srcAddr s + 8 * j) 8) (h : ofbBlock P ks fb j s = .error s') :
    s' = { s with mem := s'.mem, free := s'.free } ∧
    SameOutside s.mem s'.mem (dstAddr s + 8 * j) 8 ∧
    ∀ i : Fin 8, memGet s'.mem (dstAddr s + 8 * j + i) = memGet s.mem (dstAddr s + 8 * j + i) ∨
      memGet s'.mem (dstAddr s + 8 * j + i) =
        memGet s.mem (srcAddr s + 8 * j + i) ^^^ (P.E ks fb)[i] := by
  obtain ⟨k, b, f, rfl, hb⟩ := ofbBlock_error h
  obtain rfl : b = s.busErrIn := by rcases hb with rfl | rfl <;> simp [hq.2]
  rw [blockBytes_quiet hq hp]
  refine ⟨rfl, fun x hx => memGet_tornWrite_out _ _ _ _ _ _ (by simpa using hx), fun i => ?_⟩
  refine (memGet_tornWrite_in P s.ram s.mem (dstAddr s + 8 * j) k _ i.val (by simp)).imp id fun h => h.trans ?_
  simp [memBlock]

/-- A block pass fails when its data block or its output block is not backed. -/
theorem ofbBlock_not_backed {P : Params} {ks : List Byte} {fb : Block} {j : Nat} {s : State}
    (h : ¬ Backed P s (srcAddr s + 8 * j) 8 ∨ ¬ Backed P s (dstAddr s + 8 * j) 8) :
    ∃ s', ofbBlock P ks fb j s = .error s' := by
  cases hb : ofbBlock P ks fb j s with
  | error s' => exact ⟨s', rfl⟩
  | ok r =>
    exfalso
    unfold ofbBlock at hb
    cases hr : readBlock P s (srcAddr s + 8 * j) with
    | none => simp [hr] at hb
    | some r =>
      obtain ⟨d, s1⟩ := r
      obtain ⟨h1, rfl, rfl⟩ := readBlock_some hr
      simp only [hr] at hb
      rcases writeBlock_cases P (afterRead s (srcAddr s + 8 * j) 8) (dstAddr s + 8 * j)
        (ofbStep P ks fb (blockBytes P s (srcAddr s + 8 * j))).1 with ⟨h2, hw⟩ | ⟨_, hw⟩
      · have h2 := allBacked_of_accessFails h2
        rw [afterRead_ram] at h2
        exact h.elim (fun h => h (allBacked_of_accessFails h1)) (fun h => h h2)
      · rw [hw] at hb
        cases hb

/-- What OFB_INIT and OFB_ONESHOT read in the plain situation. -/
theorem readKeyIv_quiet {P : Params} {s : State} (hq : Quiet s)
    (hk : Readable P s (keyAddr s) P.keyBytes) (hi : Readable P s (ivAddr s) 8) :
    readKeyIv P s = some (memString s.mem (keyAddr s) P.keyBytes, memBlock s.mem (ivAddr s), s) := by
  rw [readKeyIv, readBytes_quiet hq hk]
  simp only [readBlock_quiet hq hi]

/-- Everything reading key and IV can do, when it answers. -/
theorem readKeyIv_some {P : Params} {s s' : State} {kb : List Byte} {iv : Block}
    (h : readKeyIv P s = some (kb, iv, s')) :
    kb.length = P.keyBytes ∧ s' = afterRead (afterRead s (keyAddr s) P.keyBytes) (ivAddr s) 8 := by
  unfold readKeyIv at h
  cases hr : readBytes P s (keyAddr s) P.keyBytes with
  | none => simp [hr] at h
  | some r =>
    obtain ⟨kb', s1⟩ := r
    obtain ⟨_, rfl, hl, _⟩ := readBytes_some hr
    simp only [hr] at h
    cases hb : readBlock P (afterRead s (keyAddr s) P.keyBytes) (ivAddr s) with
    | none => simp [hb] at h
    | some r' =>
      obtain ⟨iv', s2⟩ := r'
      obtain ⟨_, rfl, _⟩ := readBlock_some hb
      simp only [hb, Option.some.injEq, Prod.mk.injEq] at h
      obtain ⟨rfl, rfl, rfl⟩ := h
      exact ⟨hl, rfl⟩

/-- The verdict that decides a command, from `guarded`. -/
@[simp] theorem guarded_reject (code : StatusCode) (body : State → State) (s : State) :
    guarded (.reject code) body s = complete s code := rfl

@[simp] theorem guarded_fault (n : FaultCause) (body : State → State) (s : State) :
    guarded (.fault n) body s = raiseCmdFault s n := rfl

@[simp] theorem guarded_pass (body : State → State) (s : State) : guarded .pass body s = body s := rfl

@[simp] theorem andThen_error (s : State) (fail next : State → State) :
    andThen (.error s) fail next = fail s := rfl

@[simp] theorem andThen_ok (s : State) (fail next : State → State) :
    andThen (.ok s) fail next = next s := rfl

end Sys2Proof.Machine
end

