-- ==== Sys2Proof/Laws/Frames.lean ====
section
/-! SUPPORT. Frames: what a phase, a pass or a loop of each command can change, whether it succeeds or gets a bus error. -/

namespace Sys2Proof.Machine

/-- Nothing but what a running command may write differs: data memory, slots, scratch, digest buffer, `diff`, and the model's counters. -/
def SameControl (s t : State) : Prop :=
  t = { s with mem := t.mem, slots := t.slots, scratch := t.scratch, dbuf := t.dbuf, diff := t.diff, busErrIn := t.busErrIn, free := t.free }

/-- A state differs from itself in nothing. -/
theorem SameControl.refl (s : State) : SameControl s s := rfl

/-- Two runs of a command's phases, one after the other. -/
theorem SameControl.trans {s t u : State} (h : SameControl s t) (h' : SameControl t u) : SameControl s u := by
  unfold SameControl at *; rw [h', h]

/-- The state in an outcome of a phase. -/
def outState : Except State State → State
  | .ok s => s
  | .error s => s

/-- A property that every pass keeps, whether it succeeds or gets a bus error, holds of what the loop leaves. -/
theorem forLoop_both (I : State → Prop) {body} {n j : Nat} {s : State}
    (hstep : ∀ i t, j ≤ i → i < j + n → I t → I (outState (body i t))) (h0 : I s) :
    I (outState (forLoop body n j s)) := by
  induction n generalizing j s with
  | zero => exact h0
  | succ n ih =>
    rw [forLoop]
    have hb := hstep j s (by omega) (by omega) h0
    cases h : body j s with
    | error e => rw [h] at hb; exact hb
    | ok t => rw [h] at hb; exact ih (fun i t h1 h2 => hstep i t (by omega) (by omega)) hb

/-- A phase ends in what follows its failure or in what follows its success. -/
theorem andThen_outState (r) (fail next : State → State) : andThen r fail next = fail
    (outState r) ∨ andThen r fail next = next (outState r) := by
  cases r <;> simp [outState]

/-- A read changes the model's counters only. -/
theorem afterRead_eq (s : State) (a n : Nat) : afterRead s a n =
    { s with busErrIn := (afterRead s a n).busErrIn, free := (afterRead s a n).free } := by
  unfold afterRead afterAccess useFree; split <;> rfl

/-- Two reads change the model's counters only. -/
theorem afterRead_two (s : State) (a m b n : Nat) :
    afterRead (afterRead s a m) b n =
      { s with
        busErrIn := (afterRead (afterRead s a m) b n).busErrIn, free := (afterRead (afterRead s a m) b n).free } := by
  have h := afterRead_eq (afterRead s a m) b n
  have h' := afterRead_eq s a m
  rw [h'] at h ⊢
  exact h

/-- Memory reads as itself. -/
theorem sameOutside_refl (m : Memory) (a n : Nat) : SameOutside m m a n := fun _ _ => rfl

/-- Two changes inside the same bytes. -/
theorem sameOutside_trans {m m' m'' : Memory} {a n : Nat} (h : SameOutside m m' a n)
    (h' : SameOutside m' m'' a n) : SameOutside m m'' a n :=
  fun x hx => (h' x hx).trans (h x hx)

/-- A change inside some bytes is one inside more bytes. -/
theorem sameOutside_mono {m m' : Memory} {a n b k : Nat} (h : SameOutside m m' a n) (h1 : b ≤ a)
    (h2 : a + n ≤ b + k) : SameOutside m m' b k :=
  fun x hx => h x (by omega)

/-- A write of bytes changes those bytes only. -/
theorem sameOutside_memSetBytes (m : Memory) (a : Nat) (bs : List Byte) : SameOutside m
    (memSetBytes m a bs) a bs.length :=
  fun _ hx => memGet_memSetBytes_out m a bs hx

/-- A write of a byte changes that byte only. -/
theorem sameOutside_memSet (m : Memory) (a : Nat) (b : Byte) : SameOutside m (memSet m a b) a 1 :=
  fun _ hx => memGet_memSet_other m b (by omega)

/-- A block pass changes data memory in its output block only, and the model's counters. -/
theorem ofbBlock_frame_ok {P ks fb j s f s'} (h : ofbBlock P ks fb j s = .ok (f, s')) :
    s' = { s with mem := s'.mem, busErrIn := s'.busErrIn, free := s'.free } ∧
      SameOutside s.mem s'.mem (dstAddr s + 8 * j) 8 ∧ f = P.E ks fb := by
  obtain ⟨rfl, rfl⟩ := ofbBlock_ok h
  refine ⟨?_, ?_, rfl⟩
  · conv_lhs => rw [afterRead_eq]
    rfl
  · simpa using sameOutside_memSetBytes s.mem (dstAddr s + 8 * j) (xorBlock (blockBytes P s (srcAddr s + 8 * j)) (P.E ks fb)).toList

/-- A block pass that gets a bus error changes data memory in its output block only, and the model's counters. -/
theorem ofbBlock_frame_error {P ks fb j s s'} (h : ofbBlock P ks fb j s = .error s') :
    s' = { s with mem := s'.mem, busErrIn := s'.busErrIn, free := s'.free } ∧
      SameOutside s.mem s'.mem (dstAddr s + 8 * j) 8 := by
  obtain ⟨k, b, f, rfl, -⟩ := ofbBlock_error h
  exact ⟨rfl, fun x hx => memGet_tornWrite_out P s.ram s.mem _ _ _ (by simpa using hx)⟩

/-- What one pass of OFB_CORE leaves, whether it succeeds or gets a bus error. -/
theorem coreBody_frame (P : Params) (c j : Nat) (s : State) :
    outState (coreBody P c j s) =
      { s with
        mem := (outState (coreBody P c j s)).mem, slots := (outState (coreBody P c j s)).slots
        busErrIn := (outState (coreBody P c j s)).busErrIn, free := (outState (coreBody P c j s)).free } ∧
    SameOutside s.mem (outState (coreBody P c j s)).mem (dstAddr s + 8 * j) 8 ∧
    ((∃ e, coreBody P c j s = .error e ∧ e.slots = s.slots) ∨ (∃ e, coreBody P c j s = .ok e ∧
    e.slots = (setSlotFb P s c (P.E (slotAt P s c).key (slotAt P s c).fb)).slots)) := by
  unfold coreBody
  cases h : ofbBlock P (slotAt P s c).key (slotAt P s c).fb j s with
  | error e =>
    obtain ⟨h1, h2⟩ := ofbBlock_frame_error h
    refine ⟨?_, h2, .inl ⟨e, rfl, by rw [h1]⟩⟩
    simp only [outState]; rw [h1]
  | ok r =>
    obtain ⟨f, e⟩ := r
    obtain ⟨h1, h2, h3⟩ := ofbBlock_frame_ok h
    refine ⟨?_, by simpa [outState] using h2, .inr ⟨_, rfl, ?_⟩⟩
    · simp only [outState, setSlotFb, setSlot]; rw [h1]
    · rw [h1, h3]; rfl

/-- What one pass of OFB_ONESHOT leaves, whether it succeeds or gets a bus error. -/
theorem oneshotBody_frame (P : Params) (j : Nat) (s : State) :
    outState (oneshotBody P j s) =
      { s with
        mem := (outState (oneshotBody P j s)).mem, scratch := (outState (oneshotBody P j s)).scratch
        busErrIn := (outState (oneshotBody P j s)).busErrIn, free := (outState (oneshotBody P j s)).free } ∧
    SameOutside s.mem (outState (oneshotBody P j s)).mem (dstAddr s + 8 * j) 8 ∧
    (outState (oneshotBody P j s)).scratch.key = s.scratch.key := by
  unfold oneshotBody
  cases h : ofbBlock P s.scratch.key s.scratch.fb j s with
  | error e =>
    obtain ⟨h1, h2⟩ := ofbBlock_frame_error h
    refine ⟨?_, h2, ?_⟩
    · simp only [outState]; rw [h1]
    · simp only [outState]; rw [h1]
  | ok r =>
    obtain ⟨f, e⟩ := r
    obtain ⟨h1, h2, h3⟩ := ofbBlock_frame_ok h
    refine ⟨?_, by simpa [outState] using h2, ?_⟩
    · simp only [outState, setScratch]; rw [h1]
    · simp only [outState, setScratch]; rw [h1]

/-- What one pass of PKCS1_ENCODE leaves, whether it succeeds or gets a bus error. -/
theorem encodeBody_frame (P : Params) (i : Nat) (s : State) :
    outState (encodeBody P i s) =
      { s with mem := (outState (encodeBody P i s)).mem, busErrIn := (outState (encodeBody P i s)).busErrIn } ∧
    SameOutside s.mem (outState (encodeBody P i s)).mem (dstAddr s + i) 1 := by
  unfold encodeBody
  rcases writeByte_cases P s (dstAddr s + i) (expectedByte P (lenArg s) s.dbuf i) with ⟨_, h⟩ | ⟨_, h⟩ <;> rw [h]
  · exact ⟨rfl, by simpa [outState] using sameOutside_memSet _ _ _⟩
  · exact ⟨rfl, sameOutside_refl _ _ _⟩

/-- What one pass of PKCS1_VERIFY leaves, whether it succeeds or gets a bus error. -/
theorem verifyBody_frame (P : Params) (i : Nat) (s : State) :
    outState (verifyBody P i s) =
      { s with
        diff := (outState (verifyBody P i s)).diff, busErrIn := (outState (verifyBody P i s)).busErrIn
        free := (outState (verifyBody P i s)).free } := by
  unfold verifyBody
  cases h : readByte P s (srcAddr s + i) with
  | none => rfl
  | some r =>
    obtain ⟨b, t⟩ := r
    obtain ⟨_, rfl, _⟩ := readByte_some h
    simp only [outState, setDiff]
    conv_lhs => rw [afterRead_eq]

/-- What digest capture leaves, whether it succeeds or gets a bus error. -/
theorem captureDigest_frame (P : Params) (s : State) :
    outState (captureDigest P s) =
      { s with
        dbuf := (outState (captureDigest P s)).dbuf, busErrIn := (outState (captureDigest P s)).busErrIn
        free := (outState (captureDigest P s)).free } ∧
    (captureDigest P s = .error s ∨ (outState (captureDigest P s)).dbuf.length = P.hashLen) := by
  unfold captureDigest
  cases h : readBytes P s (digAddr s) P.hashLen with
  | none => exact ⟨rfl, .inl rfl⟩
  | some r =>
    obtain ⟨b, t⟩ := r
    obtain ⟨_, rfl, hl, _⟩ := readBytes_some h
    refine ⟨?_, .inr hl⟩
    simp only [outState, setDbuf]
    conv_lhs => rw [afterRead_eq]

/-- What the digest capture of PKCS1_VERIFY leaves, whether it succeeds or gets a bus error. -/
theorem verifyCapture_frame (P : Params) (s : State) :
    outState (verifyCapture P s) =
      { s with
        dbuf := (outState (verifyCapture P s)).dbuf, diff := (outState (verifyCapture P s)).diff
        busErrIn := (outState (verifyCapture P s)).busErrIn
        free := (outState (verifyCapture P s)).free } ∧
    (verifyCapture P s = .error s ∨ (outState (verifyCapture P s)).dbuf.length = P.hashLen) := by
  have h := captureDigest_frame P s
  unfold verifyCapture
  cases hc : captureDigest P s with
  | error e =>
    rw [hc] at h
    obtain ⟨h1, h2⟩ := h
    simp only [outState] at *
    refine ⟨by rw [h1], ?_⟩
    rcases h2 with h2 | h2
    · exact .inl h2
    · exact .inr h2
  | ok t =>
    rw [hc] at h
    obtain ⟨h1, h2⟩ := h
    simp only [outState, setDiff] at *
    refine ⟨by rw [h1], .inr ?_⟩
    simpa using h2

/-- What reading key and IV leaves in OFB_ONESHOT. -/
theorem oneshotBind_frame (P : Params) (s : State) :
    oneshotBind P s = .error s ∨ ∃ sc : Scratch, ∃ b f, sc.key.length = P.keyBytes ∧ oneshotBind P s = .ok { s with scratch := sc, busErrIn := b, free := f } := by
  unfold oneshotBind
  cases h : readKeyIv P s with
  | none => exact .inl rfl
  | some r =>
    obtain ⟨kb, iv, t⟩ := r
    obtain ⟨hl, rfl⟩ := readKeyIv_some h
    have e : afterRead (afterRead s (keyAddr s) P.keyBytes) (ivAddr s) 8 = { s with
        busErrIn := (afterRead (afterRead s (keyAddr s) P.keyBytes) (ivAddr s) 8).busErrIn
        free := (afterRead (afterRead s (keyAddr s) P.keyBytes) (ivAddr s) 8).free } := by
      exact afterRead_two s (keyAddr s) P.keyBytes (ivAddr s) 8
    refine .inr ⟨{ key := kb, fb := iv }, (afterRead (afterRead s (keyAddr s) P.keyBytes) (ivAddr s) 8).busErrIn, (afterRead (afterRead s (keyAddr s) P.keyBytes) (ivAddr s) 8).free, hl, ?_⟩
    simp only [setScratch]
    rw [e]

/-- Everything OFB_INIT can do once its checks passed. -/
theorem initBind_frame (P : Params) (c : Nat) (s : State) :
    initBind P c s = busFault s ∨
    ∃ kb iv b f, kb.length = P.keyBytes ∧ initBind P c s = complete { s with
      slots := s.slots.setIfInBounds c { state := .initialized, mode := (directionOf s.lat.mode).getD .encrypt, key := kb, fb := iv }
      busErrIn := b, free := f } .ok := by
  unfold initBind
  cases h : readKeyIv P s with
  | none => exact .inl rfl
  | some r =>
    obtain ⟨kb, iv, t⟩ := r
    obtain ⟨hl, rfl⟩ := readKeyIv_some h
    have e : afterRead (afterRead s (keyAddr s) P.keyBytes) (ivAddr s) 8 = { s with
        busErrIn := (afterRead (afterRead s (keyAddr s) P.keyBytes) (ivAddr s) 8).busErrIn
        free := (afterRead (afterRead s (keyAddr s) P.keyBytes) (ivAddr s) 8).free } := by
      exact afterRead_two s (keyAddr s) P.keyBytes (ivAddr s) 8
    refine .inr ⟨kb, iv, (afterRead (afterRead s (keyAddr s) P.keyBytes) (ivAddr s) 8).busErrIn, (afterRead (afterRead s (keyAddr s) P.keyBytes) (ivAddr s) 8).free, hl, ?_⟩
    simp only [setSlot]
    rw [e]

/-- The slot whose feedback register was written. -/
theorem slotAt_setSlotFb_same (P : Params) (s : State) {c : Nat} (f : Block) (hc : c < 15) :
    slotAt P (setSlotFb P s c f) c = { slotAt P s c with fb := f } :=
  slotAt_setSlot_same P s _ hc

/-- Every other slot is as before. -/
theorem slotAt_setSlotFb_other (P : Params) (s : State) {c d : Nat} (f : Block) (h : d ≠ c) :
    slotAt P (setSlotFb P s c f) d = slotAt P s d := slotAt_setSlot_other P s _ h

/-- Everything the loop of OFB_CORE can leave. -/
theorem coreLoop_frame (P : Params) (c j : Nat) (s : State) :
    let t := outState (forLoop (coreBody P c) (blockCount s - j) j s)
    t = { s with mem := t.mem, slots := t.slots, busErrIn := t.busErrIn, free := t.free } ∧
    SameOutside s.mem t.mem (dstAddr s) (lenArg s) ∧ (∀ d, d ≠ c → slotAt P t d = slotAt P s d) ∧
    (c < 15 → slotAt P t c = { slotAt P s c with fb := (slotAt P t c).fb }) := by
  refine forLoop_both (fun t => t = { s with mem := t.mem, slots := t.slots, busErrIn := t.busErrIn, free := t.free } ∧
    SameOutside s.mem t.mem (dstAddr s) (lenArg s) ∧ (∀ d, d ≠ c → slotAt P t d = slotAt P s d) ∧
    (c < 15 → slotAt P t c = { slotAt P s c with fb := (slotAt P t c).fb })) ?_ ⟨rfl, sameOutside_refl _ _ _, fun _ _ => rfl, fun _ => rfl⟩
  rintro i t h1 h2 ⟨ht, hm, hd, hc⟩
  obtain ⟨g1, g2, g3⟩ := coreBody_frame P c i t
  have hdst : dstAddr t = dstAddr s := by rw [ht]; rfl
  refine ⟨?_, sameOutside_trans hm (sameOutside_mono g2 (by omega) ?_), ?_, ?_⟩
  · rw [g1]; rw [ht]
  · rw [hdst]; simp only [blockCount] at h2; omega
  · intro d hdc
    rw [← hd d hdc]
    rcases g3 with ⟨e, he, hs⟩ | ⟨e, he, hs⟩
    · rw [he]; exact slotAt_congr hs d
    · rw [he, outState, slotAt_congr hs d, slotAt_setSlotFb_other _ _ _ hdc]
  · intro hc15
    have := hc hc15
    rcases g3 with ⟨e, he, hs⟩ | ⟨e, he, hs⟩
    · rw [he, outState, slotAt_congr hs c, this]
    · rw [he, outState, slotAt_congr hs c, slotAt_setSlotFb_same _ _ _ hc15, this]

/-- Everything the loop of OFB_ONESHOT can leave. -/
theorem oneshotLoop_frame (P : Params) (j : Nat) (s : State) :
    let t := outState (forLoop (oneshotBody P) (blockCount s - j) j s)
    t = { s with mem := t.mem, scratch := t.scratch, busErrIn := t.busErrIn, free := t.free } ∧
    SameOutside s.mem t.mem (dstAddr s) (lenArg s) ∧ t.scratch.key = s.scratch.key := by
  refine forLoop_both (fun t => t = { s with mem := t.mem, scratch := t.scratch, busErrIn := t.busErrIn, free := t.free } ∧
    SameOutside s.mem t.mem (dstAddr s) (lenArg s) ∧ t.scratch.key = s.scratch.key) ?_ ⟨rfl, sameOutside_refl _ _ _, rfl⟩
  rintro i t h1 h2 ⟨ht, hm, hk⟩
  obtain ⟨g1, g2, g3⟩ := oneshotBody_frame P i t
  have hdst : dstAddr t = dstAddr s := by rw [ht]; rfl
  refine ⟨?_, sameOutside_trans hm (sameOutside_mono g2 (by omega) ?_), g3.trans hk⟩
  · rw [g1]; rw [ht]
  · rw [hdst]; simp only [blockCount] at h2; omega

/-- Everything the loop of PKCS1_ENCODE can leave. -/
theorem encodeLoop_frame (P : Params) (j : Nat) (s : State) :
    let t := outState (forLoop (encodeBody P) (lenArg s - j) j s)
    t = { s with mem := t.mem, busErrIn := t.busErrIn } ∧
    SameOutside s.mem t.mem (dstAddr s) (lenArg s) := by
  refine forLoop_both (fun t => t = { s with mem := t.mem, busErrIn := t.busErrIn } ∧
    SameOutside s.mem t.mem (dstAddr s) (lenArg s)) ?_ ⟨rfl, sameOutside_refl _ _ _⟩
  rintro i t h1 h2 ⟨ht, hm⟩
  obtain ⟨g1, g2⟩ := encodeBody_frame P i t
  have hdst : dstAddr t = dstAddr s := by rw [ht]; rfl
  refine ⟨?_, sameOutside_trans hm (sameOutside_mono g2 (by omega) ?_)⟩
  · rw [g1]; rw [ht]
  · rw [hdst]; omega

/-- Everything the loop of PKCS1_VERIFY can leave. -/
theorem verifyLoop_frame (P : Params) (n j : Nat) (s : State) :
    let t := outState (forLoop (verifyBody P) n j s)
    t = { s with diff := t.diff, busErrIn := t.busErrIn, free := t.free } := by
  refine forLoop_both (fun t => t = { s with diff := t.diff, busErrIn := t.busErrIn, free := t.free }) ?_ rfl
  rintro i t h1 h2 ht
  have g1 := verifyBody_frame P i t
  rw [g1]; rw [ht]

end Sys2Proof.Machine
end

