-- ==== Sys2Proof/Laws/Commands.lean ====
section
/-! SUPPORT. Whole commands: everything each can answer. -/

namespace Sys2Proof.Machine

/-- A command is turned away by its checks, or runs. -/
theorem guarded_cases (v : Verdict) (body : State → State) (s : State) :
    (∃ code, v = .reject code ∧ guarded v body s = complete s code) ∨
    (∃ n, v = .fault n ∧ guarded v body s = raiseCmdFault s n) ∨ (v = .pass ∧ guarded v body s = body s) := by
  cases v <;> simp

/-- Everything OFB_CORE can do from a data block on. -/
theorem coreFrom_cases (P : Params) (c j : Nat) (s : State) : ∃ t : State,
    t = { s with mem := t.mem, slots := t.slots, busErrIn := t.busErrIn, free := t.free } ∧
    SameOutside s.mem t.mem (dstAddr s) (lenArg s) ∧ (∀ d, d ≠ c → slotAt P t d = slotAt P s d) ∧
    (c < 15 → slotAt P t c = { slotAt P s c with fb := (slotAt P t c).fb }) ∧
    (coreFrom P c j s = busFault t ∨ coreFrom P c j s = complete t .ok) := by
  obtain ⟨h1, h2, h3, h4⟩ := coreLoop_frame P c j s
  exact ⟨_, h1, h2, h3, h4, andThen_outState _ _ _⟩

/-- Everything OFB_ONESHOT can do from a data block on. -/
theorem oneshotFrom_cases (P : Params) (j : Nat) (s : State) : ∃ t : State,
    t = { s with mem := t.mem, scratch := t.scratch, busErrIn := t.busErrIn, free := t.free } ∧
    SameOutside s.mem t.mem (dstAddr s) (lenArg s) ∧
    (oneshotFrom P j s = oneshotFault P t ∨ oneshotFrom P j s = oneshotDone P t) := by
  obtain ⟨h1, h2, h3⟩ := oneshotLoop_frame P j s
  exact ⟨_, h1, h2, andThen_outState _ _ _⟩

/-- Everything OFB_ONESHOT can do once its checks passed. -/
theorem oneshotRun_cases (P : Params) (s : State) : ∃ t : State,
    t = { s with mem := t.mem, scratch := t.scratch, busErrIn := t.busErrIn, free := t.free } ∧
    SameOutside s.mem t.mem (dstAddr s) (lenArg s) ∧
    (oneshotRun P s = oneshotFault P t ∨ oneshotRun P s = oneshotDone P t) := by
  unfold oneshotRun
  rcases oneshotBind_frame P s with h | ⟨sc, b, f, hl, h⟩
  · rw [h]; exact ⟨s, rfl, sameOutside_refl _ _ _, .inl rfl⟩
  · rw [h]
    obtain ⟨t, h1, h2, h3⟩ := oneshotFrom_cases P 0 { s with scratch := sc, busErrIn := b, free := f }
    exact ⟨t, h1, h2, h3⟩

/-- Everything PKCS1_ENCODE can do from an EM byte on. -/
theorem encodeFrom_cases (P : Params) (i : Nat) (s : State) : ∃ t : State,
    t = { s with mem := t.mem, busErrIn := t.busErrIn } ∧
    SameOutside s.mem t.mem (dstAddr s) (lenArg s) ∧
    (encodeFrom P i s = busFault t ∨ encodeFrom P i s = complete t .ok) := by
  obtain ⟨h1, h2⟩ := encodeLoop_frame P i s
  exact ⟨_, h1, h2, andThen_outState _ _ _⟩

/-- Everything PKCS1_ENCODE can do once its checks passed. -/
theorem encodeRun_cases (P : Params) (s : State) : ∃ t : State,
    t = { s with mem := t.mem, dbuf := t.dbuf, busErrIn := t.busErrIn, free := t.free } ∧
    SameOutside s.mem t.mem (dstAddr s) (lenArg s) ∧ (t.dbuf = s.dbuf ∨ t.dbuf.length = P.hashLen) ∧
    (encodeRun P s = busFault t ∨ encodeRun P s = complete t .ok) := by
  unfold encodeRun
  obtain ⟨h1, h2⟩ := captureDigest_frame P s
  cases h : captureDigest P s with
  | error e =>
    rw [h] at h1 h2
    refine ⟨e, ?_, ?_, ?_, .inl rfl⟩
    · simp only [outState] at h1; rw [h1]
    · simp only [outState] at h1; rw [h1]; exact sameOutside_refl _ _ _
    · rcases h2 with h2 | h2
      · cases h2; exact .inl rfl
      · exact .inr h2
  | ok u =>
    rw [h] at h1 h2
    simp only [outState] at h1 h2
    have hu : u.dbuf.length = P.hashLen := by
      rcases h2 with h2 | h2
      · cases h2
      · exact h2
    obtain ⟨t, g1, g2, g3⟩ := encodeFrom_cases P 0 u
    rw [h1] at g1 g2
    refine ⟨t, ?_, g2, ?_, g3⟩
    · rw [g1]
    · rw [g1]; exact .inr hu

/-- Everything PKCS1_VERIFY can do from a candidate byte on. -/
theorem verifyFrom_cases (P : Params) (i : Nat) (s : State) : ∃ t : State,
    t = { s with diff := t.diff, busErrIn := t.busErrIn, free := t.free } ∧
    (verifyFrom P i s = busFault t ∨ verifyFrom P i s = verifyDone t) := by
  have h1 := verifyLoop_frame P (lenArg s - i) i s
  exact ⟨_, h1, andThen_outState _ _ _⟩

/-- Everything PKCS1_VERIFY can do once its checks passed. -/
theorem verifyRun_cases (P : Params) (s : State) : ∃ t : State,
    t = { s with dbuf := t.dbuf, diff := t.diff, busErrIn := t.busErrIn, free := t.free } ∧
    (t.dbuf = s.dbuf ∨ t.dbuf.length = P.hashLen) ∧
    (verifyRun P s = busFault t ∨ verifyRun P s = verifyDone t) := by
  unfold verifyRun
  obtain ⟨h1, h2⟩ := verifyCapture_frame P s
  cases h : verifyCapture P s with
  | error e =>
    rw [h] at h1 h2
    refine ⟨e, ?_, ?_, .inl rfl⟩
    · simp only [outState] at h1; rw [h1]
    · rcases h2 with h2 | h2
      · cases h2; exact .inl rfl
      · exact .inr h2
  | ok u =>
    rw [h] at h1 h2
    simp only [outState] at h1 h2
    have hu : u.dbuf.length = P.hashLen := by
      rcases h2 with h2 | h2
      · cases h2
      · exact h2
    obtain ⟨t, g1, g3⟩ := verifyFrom_cases P 0 u
    rw [h1] at g1
    refine ⟨t, ?_, ?_, g3⟩
    · rw [g1]
    · rw [g1]; exact .inr hu


/-- Everything a command can answer, whatever it is: a validation error or SEQ from its checks, with nothing but the
status changed; or, its checks passed, a bus error, Ok or VerificationFailed, from a state that differs from the first
only in what a running command may write. -/
theorem exec_cases (i : Instr) (s : State) : ∃ t, exec i s = .next t ∧
    ((∃ code, verdictOk (.reject code) ∧ t = complete s code) ∨ t = raiseCmdFault s .seq ∨
      ∃ b, SameControl s b ∧ (t = raiseCmdFault b .busError ∨ t = complete b .ok ∨
        (∃ x, i = .pkcs1Verify x) ∧ t = complete b .verificationFailed)) := by
  have key : ∀ (v : Verdict) (body : State → State), verdictOk v →
      (v = .pass → ∃ b, SameControl s b ∧ (body s = raiseCmdFault b .busError ∨ body s = complete b .ok ∨
        (∃ x, i = .pkcs1Verify x) ∧ body s = complete b .verificationFailed)) →
      ∃ t, (Host.Outcome.next (guarded v body s) : Host.Outcome State Fault Refusal) = .next t ∧
        ((∃ code, verdictOk (.reject code) ∧ t = complete s code) ∨ t = raiseCmdFault s .seq ∨
        ∃ b, SameControl s b ∧ (t = raiseCmdFault b .busError ∨ t = complete b .ok ∨
          (∃ x, i = .pkcs1Verify x) ∧ t = complete b .verificationFailed)) := by
    intro v body hv hb
    refine ⟨_, rfl, ?_⟩
    cases v with
    | reject code => exact .inl ⟨code, hv, rfl⟩
    | fault n => cases hv; exact .inr (.inl rfl)
    | pass => exact .inr (.inr (hb rfl))
  cases i with
  | ofbInit c =>
    refine key _ _ (initCheck_ok _ _ _) fun _ => ?_
    rcases initBind_frame Config.chip c s with h | ⟨kb, iv, b, f, -, h⟩
    · exact ⟨s, .refl s, .inl h⟩
    · refine ⟨_, ?_, .inr (.inl h)⟩
      rfl
  | ofbCore c =>
    refine key _ _ (coreCheck_ok _ _ _) fun _ => ?_
    obtain ⟨t, h1, -, -, -, h2⟩ := coreFrom_cases Config.chip c 0 s
    refine ⟨t, ?_, h2.imp id .inl⟩
    unfold SameControl; rw [h1]
  | ofbFinish c =>
    refine key _ _ (finishCheck_ok _ _ _) fun _ => ?_
    refine ⟨setSlot s c { emptySlot Config.chip with state := .finished }, ?_, .inr (.inl rfl)⟩
    rfl
  | ofbOneshot x =>
    refine key _ _ (oneshotCheck_ok _ _) fun _ => ?_
    obtain ⟨t, h1, -, h2⟩ := oneshotRun_cases Config.chip s
    refine ⟨setScratch t (zeroScratch Config.chip), ?_, h2.imp id .inl⟩
    unfold SameControl; rw [h1]; rfl
  | pkcs1Encode x =>
    refine key _ _ (encodeCheck_ok _ _) fun _ => ?_
    obtain ⟨t, h1, -, -, h2⟩ := encodeRun_cases Config.chip s
    refine ⟨t, ?_, h2.imp id .inl⟩
    unfold SameControl; rw [h1]
  | pkcs1Verify x =>
    refine key _ _ (verifyCheck_ok _ _) fun _ => ?_
    obtain ⟨t, h1, -, h2⟩ := verifyRun_cases Config.chip s
    refine ⟨t, ?_, ?_⟩
    · unfold SameControl; rw [h1]
    · rcases h2 with h2 | h2
      · exact .inl h2
      · right
        unfold verifyDone at h2
        split at h2
        · exact .inl h2
        · exact .inr ⟨⟨x, rfl⟩, h2⟩

end Sys2Proof.Machine
end

