-- ==== Sys2Proof/Laws/Engine.lean ====
section
/-! SUPPORT. The engine's move, position by position (R41). -/

namespace Sys2Proof.Machine

theorem tick_idle {P : Params} {s : State} (h : s.progress = .idle) :
    tick P s = s := by
  simp only [tick, h]

theorem tick_illegal {w : IllegalWord} {P : Params} {s : State} (h : s.progress = .accepted)
    (hd : decode s.cmd = .illegal w) :
    tick P s = raiseCmdFault s .illegal := by
  simp only [tick, h, hd]

theorem tick_command {i : Instr} {P : Params} {s : State} (h : s.progress = .accepted)
    (hd : decode s.cmd = .command i) :
    tick P s = startMove P i s := by
  simp only [tick, h, hd]

theorem tick_initReads {c : Nat} {P : Params} {s : State} (h : s.progress = .initReads c) :
    tick P s = initBind P c s := by
  simp only [tick, h]

theorem tick_core {c j : Nat} {P : Params} {s : State} (h : s.progress = .core c j) :
    tick P s = loopMove (coreBody P c) (blockCount s) j (.core c) busFault coreDone s := by
  simp only [tick, h]

theorem tick_oneshotReads {P : Params} {s : State} (h : s.progress = .oneshotReads) :
    tick P s = andThen (oneshotBind P s) (oneshotFault P) (fun s' => setProgress s' (.oneshot 0)) := by
  simp only [tick, h]

theorem tick_oneshot {j : Nat} {P : Params} {s : State} (h : s.progress = .oneshot j) :
    tick P s = loopMove (oneshotBody P) (blockCount s) j .oneshot (oneshotFault P) (oneshotDone P) s := by
  simp only [tick, h]

theorem tick_encodeDigest {P : Params} {s : State} (h : s.progress = .encodeDigest) :
    tick P s = andThen (captureDigest P s) busFault (fun s' => setProgress s' (.encode 0)) := by
  simp only [tick, h]

theorem tick_encode {i : Nat} {P : Params} {s : State} (h : s.progress = .encode i) :
    tick P s = loopMove (encodeBody P) (lenArg s) i .encode busFault encodeDone s := by
  simp only [tick, h]

theorem tick_verifyDigest {P : Params} {s : State} (h : s.progress = .verifyDigest) :
    tick P s = andThen (verifyCapture P s) busFault (fun s' => setProgress s' (.verify 0)) := by
  simp only [tick, h]

theorem tick_verify {i : Nat} {P : Params} {s : State} (h : s.progress = .verify i) :
    tick P s = loopMove (verifyBody P) (lenArg s) i .verify busFault verifyDone s := by
  simp only [tick, h]

end Sys2Proof.Machine
end

