-- ==== Sys2Proof/Laws/Flags.lean ====
section
/-! SUPPORT. Register words as numbers, and what CTXSTAT and CTXMODE are read from. -/

namespace Sys2Proof.Machine

/-- CFG0 as a number (R24). -/
theorem cfg0Word_toNat (P : Params) :
    (cfg0Word P).toNat = P.numCtx + 256 * P.hashLen + 65536 * P.diLen + 134217728 := by
  have h1 := P.numCtx_le
  have h4 : P.diLen ≤ 255 := P.diLen_le
  have h5 : P.hashLen ≤ 255 := Nat.le_trans (Nat.le_add_left _ _) h4
  unfold cfg0Word
  rw [BitVec.toNat_ofNat, Nat.mod_eq_of_lt (by omega)]
  omega

/-- CFG1 as a number (R25). -/
theorem cfg1Word_toNat (P : Params) : (cfg1Word P).toNat = P.keyBytes := by
  unfold cfg1Word
  have := P.keyBytes_lt
  rw [BitVec.toNat_ofNat, Nat.mod_eq_of_lt (by omega)]

/-- A field of a register word as a number (R9). -/
theorem field_toNat (w : Word) (i n : Nat) : (w.extractLsb' i n).toNat = w.toNat / 2 ^ i % 2 ^ n := by
  rw [BitVec.extractLsb'_toNat, Nat.shiftRight_eq_div_pow]

/-- CTXSTAT is read from the slot file alone. -/
theorem ctxStatBits_congr (P : Params) {s t : State} (h : s.slots = t.slots) (n : Nat) :
    ctxStatBits P s n = ctxStatBits P t n := by
  induction n with
  | zero => rfl
  | succ n ih => simp only [ctxStatBits, ih, slotAt_congr h]

/-- CTXMODE is read from the slot file alone. -/
theorem ctxModeBits_congr (P : Params) {s t : State} (h : s.slots = t.slots) (n : Nat) :
    ctxModeBits P s n = ctxModeBits P t n := by
  induction n with
  | zero => rfl
  | succ n ih => simp only [ctxModeBits, ih, slotAt_congr h]

end Sys2Proof.Machine
end

