-- ==== Sys2Proof/Laws/Host.lean ====
section
/-! SUPPORT. The host's side: which position an access reaches, and the step that takes a host access. -/

namespace Sys2Proof.Machine

/-- The position at the offset of a position is that position (R21). -/
theorem regAt_regOffset (r : RegName) : regAt (regOffset r) = some r := by
  cases r <;> rfl

/-- An aligned 32-bit access at an offset of the window reaches the position there (R21, R22). -/
theorem target_offset (P : Params) {off : Nat} {r : RegName} (h : regAt off = some r) (ho : off < 64) :
    target P (P.base + off) 32 = .register r := by
  have ht : touchesWindow P (P.base + off) 32 = true := by
    simp [touchesWindow]; omega
  simp [target, ht, h]

/-- The step that takes a host access. -/
theorem step_host {s : State} {rest : List Event} {op : HostOp} (hp : s.powered = true)
    (h : s.env = .host op :: rest) : step s = .next (hostAccess Config.chip op { s with env := rest }) := by
  simp only [step, move, h, hp, if_true, onEvent]

end Sys2Proof.Machine
end

