-- ==== Sys2Proof/Laws/PerInstr.lean ====
section
/-! SUPPORT. One statement per command about its encoding as syntax: the opcode of R68 stands in bits 7:0 of
its word, the number in bits 11:8, and the reserved bits are zero (R66). -/

namespace Sys2Proof.Laws.EncodingFields

/-- The fields of the command word of a well-formed command (R66, R68). -/
def Statement (i : Instr) : Prop :=
  i.WellFormed → opcField (encode i) = i.opcode ∧ (ctxField (encode i)).toNat = i.ctx ∧ rsvField (encode i) = 0

/-- The fields of a word built from an opcode and a number of four bits. -/
theorem fields_of_sum (o : BitVec 8) (c : Nat) (h : c < 16) :
    opcField (BitVec.ofNat 32 (o.toNat + 2 ^ 8 * c)) = o ∧
    (ctxField (BitVec.ofNat 32 (o.toNat + 2 ^ 8 * c))).toNat = c ∧
    rsvField (BitVec.ofNat 32 (o.toNat + 2 ^ 8 * c)) = 0 := by
  have ho := o.isLt
  have hw : (BitVec.ofNat 32 (o.toNat + 2 ^ 8 * c)).toNat = o.toNat + 256 * c := by
    rw [BitVec.toNat_ofNat, Nat.mod_eq_of_lt (by omega)]
    omega
  unfold opcField ctxField rsvField
  refine ⟨BitVec.eq_of_toNat_eq ?_, ?_, BitVec.eq_of_toNat_eq ?_⟩
  · rw [BitVec.extractLsb'_toNat, hw, Nat.shiftRight_eq_div_pow]
    omega
  · rw [BitVec.extractLsb'_toNat, hw, Nat.shiftRight_eq_div_pow]
    omega
  · rw [BitVec.extractLsb'_toNat, hw, Nat.shiftRight_eq_div_pow]
    simp only [BitVec.ofNat_eq_ofNat, BitVec.toNat_ofNat]
    omega

theorem ofbInit (ctx : Nat) : Statement (.ofbInit ctx) := fields_of_sum 0x01 ctx
theorem ofbCore (ctx : Nat) : Statement (.ofbCore ctx) := fields_of_sum 0x02 ctx
theorem ofbFinish (ctx : Nat) : Statement (.ofbFinish ctx) := fields_of_sum 0x03 ctx
theorem ofbOneshot (ign : Nat) : Statement (.ofbOneshot ign) := fields_of_sum 0x04 ign
theorem pkcs1Encode (ign : Nat) : Statement (.pkcs1Encode ign) := fields_of_sum 0x10 ign
theorem pkcs1Verify (ign : Nat) : Statement (.pkcs1Verify ign) := fields_of_sum 0x11 ign

end Sys2Proof.Laws.EncodingFields
end

