-- ==== Sys2Proof/Laws/Pkcs1.lean ====
section
/-! SUPPORT. The byte loops of the padding codec in the plain situation. -/

namespace Sys2Proof.Machine

/-- The accumulator stays zero exactly where the bytes agree. -/
theorem byte_or_xor_zero (a b c : Byte) : (a ||| (b ^^^ c)) = 0 ↔ a = 0 ∧ b = c := by
  constructor
  · intro h
    have hz : ∀ (x y : Byte), x ||| y = 0 → x = 0 := by
      intro x y h
      ext i hi
      have := congrArg (fun z : Byte => z[i]) h
      simp at this
      simpa using this.1
    refine ⟨hz _ _ h, ?_⟩
    have h2 := hz _ _ ((BitVec.or_comm _ _).trans h)
    have := congrArg (· ^^^ c) h2
    simpa [BitVec.xor_assoc] using this
  · rintro ⟨rfl, rfl⟩; simp

/-- PKCS1_ENCODE's loop in the plain situation. -/
theorem encodeLoop_quiet {P : Params} {n i : Nat} {s : State} (hq : Quiet s)
    (hd : Backed P s (dstAddr s + i) n) :
    forLoop (encodeBody P) n i s =
      .ok (setMem s (memSetBytes s.mem (dstAddr s + i)
        ((List.range n).map (fun x => expectedByte P (lenArg s) s.dbuf (i + x))))) := by
  induction n generalizing i s with
  | zero => rfl
  | succ n ih =>
    rw [forLoop, encodeBody, writeByte_quiet _ hq (allBacked_mono hd (le_refl _) (by omega))]
    simp only []
    rw [ih (by exact hq) (by exact allBacked_mono hd (by simp only [dstAddr, setMem]; omega) (by simp only [dstAddr, setMem]; omega))]
    rw [List.range_succ_eq_map, List.map_cons, List.map_map, memSetBytes]
    have e : ∀ k dg, (fun x => expectedByte P k dg (i + x)) ∘ Nat.succ = fun x => expectedByte P k dg (i + 1 + x) := by
      intro k dg
      funext x
      exact congrArg (expectedByte P k dg) (by show i + (x + 1) = i + 1 + x; omega)
    rw [e]
    rfl

/-- PKCS1_VERIFY's loop in the plain situation: no memory, and `diff` says whether a byte differed. -/
theorem verifyLoop_quiet {P : Params} {n i : Nat} {s : State} (hq : Quiet s)
    (hs : Readable P s (srcAddr s + i) n) :
    ∃ d, forLoop (verifyBody P) n i s = .ok (setDiff s d) ∧
      (d = 0 ↔ s.diff = 0 ∧ ∀ x < n, memGet s.mem (srcAddr s + i + x) = expectedByte P (lenArg s) s.dbuf (i + x)) := by
  induction n generalizing i s with
  | zero => exact ⟨s.diff, rfl, by simp⟩
  | succ n ih =>
    rw [forLoop, verifyBody, readByte_quiet hq (readable_mono hs (le_refl _) (by omega))]
    simp only []
    obtain ⟨d, h1, h2⟩ := ih (s := setDiff s (s.diff ||| (memGet s.mem (srcAddr s + i) ^^^ expectedByte P (lenArg s) s.dbuf i))) (i := i + 1) hq
      (by exact readable_mono (P := P) (s := s) hs (by simp only [srcAddr, setDiff]; omega) (by simp only [srcAddr, setDiff]; omega))
    refine ⟨d, h1, h2.trans ?_⟩
    have e : (s.diff ||| (memGet s.mem (srcAddr s + i) ^^^ expectedByte P (lenArg s) s.dbuf i)) = 0 ↔ s.diff = 0 ∧ memGet s.mem (srcAddr s + i) = expectedByte P (lenArg s) s.dbuf i := by
      exact byte_or_xor_zero _ _ _
    rw [setDiff_diff, e]
    constructor
    · rintro ⟨⟨h3, h4⟩, h5⟩
      refine ⟨h3, fun x hx => ?_⟩
      cases x with
      | zero => exact h4
      | succ x =>
        have := h5 x (by omega)
        rw [show i + (x + 1) = i + 1 + x by omega, show srcAddr s + i + (x + 1) = srcAddr s + (i + 1) + x by omega]; exact this
    · rintro ⟨h3, h5⟩
      refine ⟨⟨h3, h5 0 (by omega)⟩, fun x hx => ?_⟩
      have := h5 (x + 1) (by omega)
      rw [show i + (x + 1) = i + 1 + x by omega, show srcAddr s + i + (x + 1) = srcAddr s + (i + 1) + x by omega] at this; exact this

end Sys2Proof.Machine
end

