-- ==== Sys2Proof/Laws/Stream.lean ====
section
/-! SUPPORT. The block loops of OFB_CORE and OFB_ONESHOT in the plain situation: what they do to data memory and to the feedback value, as one function. -/

namespace Sys2Proof.Machine

/-- What `n` block passes from block `j` on do to data memory and the feedback value in the plain situation. -/
def streamFrom (P : Params) (key : List Byte) (src dst : Nat) : Nat → Nat → Memory → Block → Memory × Block
  | 0, _, m, fb => (m, fb)
  | n + 1, j, m, fb =>
    streamFrom P key src dst n (j + 1)
      (memSetBytes m (dst + 8 * j) (xorBlock (memBlock m (src + 8 * j)) (P.E key fb)).toList) (P.E key fb)

/-- Writing a slot back changes nothing. -/
theorem setSlot_slotAt (P : Params) (s : State) (c : Nat) (h : c < 15) : setSlot s c (slotAt P s c) = s := by
  have : s.slots.setIfInBounds c (slotAt P s c) = s.slots := by
    ext i hi
    by_cases hic : c = i
    · subst hic; simp [slotAt, h]
    · simp [hic]
  simp [setSlot, this]

/-- The later of two writes of a slot stands. -/
theorem setSlot_setSlot (s : State) (c : Nat) (v w : Slot) : setSlot (setSlot s c v) c w = setSlot s c w := by
  have : (s.slots.setIfInBounds c v).setIfInBounds c w = s.slots.setIfInBounds c w := by
    ext i hi
    by_cases hic : c = i <;> simp [hic]
  simp [setSlot, this]

/-- OFB_CORE's loop in the plain situation. -/
theorem coreLoop_quiet {P : Params} {c n j : Nat} {s : State} (hc : c < 15) (hq : Quiet s)
    (hs : Readable P s (srcAddr s + 8 * j) (8 * n)) (hd : Backed P s (dstAddr s + 8 * j) (8 * n)) :
    forLoop (coreBody P c) n j s =
      .ok (setSlot
        (setMem s (streamFrom P (slotAt P s c).key (srcAddr s) (dstAddr s) n j s.mem (slotAt P s c).fb).1) c
        { slotAt P s c with
          fb := (streamFrom P (slotAt P s c).key (srcAddr s) (dstAddr s) n j s.mem (slotAt P s c).fb).2 }) := by
  induction n generalizing j s with
  | zero =>
    simp only [forLoop, streamFrom]
    exact congrArg _ (setSlot_slotAt P s c hc).symm
  | succ n ih =>
    have hs0 : Readable P s (srcAddr s + 8 * j) 8 := readable_mono hs (le_refl _) (by omega)
    have hd0 : Backed P s (dstAddr s + 8 * j) 8 := allBacked_mono hd (le_refl _) (by omega)
    rw [forLoop, coreBody, ofbBlock_quiet hq hs0 hd0]
    simp only []
    rw [ih (hs := ?_) (hd := ?_)]
    · simp only [setSlotFb, slotAt_setSlot_same P _ _ hc, streamFrom]
      rw [show ∀ (u : State) (v : Slot) (m : Memory), setMem (setSlot u c v) m = setSlot (setMem u m) c v from
        fun _ _ _ => rfl, setSlot_setSlot]
      rfl
    · exact hq
    · exact readable_mono (P := P) (s := s) hs (by simp only [setSlotFb, srcAddr, setSlot, setMem]; omega) (by simp only [setSlotFb, srcAddr, setSlot, setMem]; omega)
    · exact allBacked_mono hd (by simp only [setSlotFb, dstAddr, setSlot, setMem]; omega) (by simp only [setSlotFb, dstAddr, setSlot, setMem]; omega)

/-- OFB_ONESHOT's loop in the plain situation. -/
theorem oneshotLoop_quiet {P : Params} {n j : Nat} {s : State} (hq : Quiet s)
    (hs : Readable P s (srcAddr s + 8 * j) (8 * n)) (hd : Backed P s (dstAddr s + 8 * j) (8 * n)) :
    forLoop (oneshotBody P) n j s =
      .ok (setScratch
        (setMem s (streamFrom P s.scratch.key (srcAddr s) (dstAddr s) n j s.mem s.scratch.fb).1)
        { s.scratch with
          fb := (streamFrom P s.scratch.key (srcAddr s) (dstAddr s) n j s.mem s.scratch.fb).2 }) := by
  induction n generalizing j s with
  | zero => rfl
  | succ n ih =>
    have hs0 : Readable P s (srcAddr s + 8 * j) 8 := readable_mono hs (le_refl _) (by omega)
    have hd0 : Backed P s (dstAddr s + 8 * j) 8 := allBacked_mono hd (le_refl _) (by omega)
    rw [forLoop, oneshotBody, ofbBlock_quiet hq hs0 hd0]
    simp only []
    rw [ih (hs := ?_) (hd := ?_)]
    · rfl
    · exact hq
    · exact readable_mono (P := P) (s := s) hs (by simp only [srcAddr, setScratch, setMem]; omega) (by simp only [srcAddr, setScratch, setMem]; omega)
    · exact allBacked_mono hd (by simp only [dstAddr, setScratch, setMem]; omega) (by simp only [dstAddr, setScratch, setMem]; omega)

/-- `a + b` passes are `a` passes, then `b`. -/
theorem streamFrom_add (P : Params) (key : List Byte) (src dst a b j : Nat) (m : Memory) (fb : Block) :
    streamFrom P key src dst (a + b) j m fb =
      streamFrom P key src dst b (j + a) (streamFrom P key src dst a j m fb).1 (streamFrom P key src dst a j m fb).2 := by
  induction a generalizing j m fb with
  | zero => simp [streamFrom]
  | succ a ih =>
    rw [show a + 1 + b = (a + b) + 1 by omega, streamFrom, ih, streamFrom, show j + 1 + a = j + (a + 1) by omega]

/-- Passes on buffers shifted by `k` blocks are passes `k` blocks further on. -/
theorem streamFrom_shift (P : Params) (key : List Byte) (src dst n j k : Nat) (m : Memory) (fb : Block) :
    streamFrom P key (src + 8 * k) (dst + 8 * k) n j m fb = streamFrom P key src dst n (j + k) m fb := by
  induction n generalizing j m fb with
  | zero => rfl
  | succ n ih =>
    rw [streamFrom, streamFrom, ih, show src + 8 * k + 8 * j = src + 8 * (j + k) by omega,
      show dst + 8 * k + 8 * j = dst + 8 * (j + k) by omega, show j + 1 + k = j + k + 1 by omega]

/-- The keystream from the next feedback value on. -/
theorem keystream_shift (P : Params) (key : List Byte) (fb : Block) (n : Nat) :
    keystream P key (P.E key fb) n = keystream P key fb (n + 1) := by
  induction n with
  | zero => rfl
  | succ n ih => rw [keystream, ih]; rfl

/-- The feedback value after `n` passes (R86). -/
theorem streamFrom_fb (P : Params) (key : List Byte) (src dst n j : Nat) (m : Memory) (fb : Block) :
    (streamFrom P key src dst n j m fb).2 = keystream P key fb n := by
  induction n generalizing j m fb with
  | zero => rfl
  | succ n ih => rw [streamFrom, ih, keystream_shift]

/-- No pass changes a byte outside the output buffer. -/
theorem streamFrom_outside (P : Params) (key : List Byte) (src dst n j : Nat) (m : Memory) (fb : Block) :
    SameOutside m (streamFrom P key src dst n j m fb).1 (dst + 8 * j) (8 * n) := by
  induction n generalizing j m fb with
  | zero => exact sameOutside_refl _ _ _
  | succ n ih =>
    rw [streamFrom]
    refine sameOutside_trans (sameOutside_mono (sameOutside_memSetBytes m (dst + 8 * j) _) (le_refl _) ?_) (sameOutside_mono (ih (j + 1) _ _) (by omega) (by omega))
    simp

/-- The output bytes, when the data buffers are disjoint or the same. -/
theorem streamFrom_get {P : Params} {key : List Byte} {src dst n j : Nat} {m : Memory} {fb : Block}
    (h : DisjointOrSame (src + 8 * j) (dst + 8 * j) (8 * n)) {k : Nat} (hk : k < n) {i : Nat} (hi : i < 8) :
    memGet (streamFrom P key src dst n j m fb).1 (dst + 8 * (j + k) + i) =
      memGet m (src + 8 * (j + k) + i) ^^^ (keystream P key fb (k + 1))[i] := by
  induction n generalizing j m fb k with
  | zero => omega
  | succ n ih =>
    rw [streamFrom]
    cases k with
    | zero =>
      rw [streamFrom_outside P key src dst n (j + 1) _ _ _ (by omega)]
      rw [Nat.add_zero, memGet_memSetBytes_in _ _ _ _ (by simpa using hi)]
      simp [keystream]
    | succ k =>
      have := ih (j := j + 1) (m := memSetBytes m (dst + 8 * j) (xorBlock (memBlock m (src + 8 * j)) (P.E key fb)).toList)
        (fb := P.E key fb) (by omega) (k := k) (by omega)
      rw [show j + 1 + k = j + (k + 1) by omega] at this
      rw [this, keystream_shift, memGet_memSetBytes_out _ _ _ (by simp; omega)]

end Sys2Proof.Machine
end

