-- ==== Sys2Proof/Tests/Slice0.lean ====
section
/-! SUPPORT. Small tests, and a witness for the hypotheses of every obligation that has some. Expected values are
those of spec/95_test_vectors.md (named by their ids) or written out from spec/30_encoding.md R66 and R68. -/

namespace Sys2Proof.Tests

open Sys2Proof.Machine

/-! ### Well-formedness: every check refuses an ill-formed term -/

theorem test_wf_refuses_ofbInit_16 : ¬ (Instr.ofbInit 16).WellFormed := by decide
theorem test_wf_refuses_ofbCore_16 : ¬ (Instr.ofbCore 16).WellFormed := by decide
theorem test_wf_refuses_ofbFinish_16 : ¬ (Instr.ofbFinish 16).WellFormed := by decide
theorem test_wf_refuses_ofbOneshot_16 : ¬ (Instr.ofbOneshot 16).WellFormed := by decide
theorem test_wf_refuses_pkcs1Encode_16 : ¬ (Instr.pkcs1Encode 16).WellFormed := by decide
theorem test_wf_refuses_pkcs1Verify_16 : ¬ (Instr.pkcs1Verify 16).WellFormed := by decide
theorem test_wf_admits_ofbCore_15 : (Instr.ofbCore 15).WellFormed := by decide

/-! ### Decoding: words written out bit by bit, RSV, CTX, OPC (R66, R68) -/

theorem test_decode_ofbInit :
    decode 0b00000000000000000000_0101_00000001 = .command (.ofbInit 5) := by decide
theorem test_decode_ofbCore :
    decode 0b00000000000000000000_0010_00000010 = .command (.ofbCore 2) := by decide
theorem test_decode_ofbFinish :
    decode 0b00000000000000000000_1110_00000011 = .command (.ofbFinish 14) := by decide
theorem test_decode_ofbOneshot :
    decode 0b00000000000000000000_1111_00000100 = .command (.ofbOneshot 15) := by decide
theorem test_decode_pkcs1Encode :
    decode 0b00000000000000000000_0000_00010000 = .command (.pkcs1Encode 0) := by decide
theorem test_decode_pkcs1Verify :
    decode 0b00000000000000000000_1000_00010001 = .command (.pkcs1Verify 8) := by decide
/-- R73: bit 12 is reserved. -/
theorem test_decode_reserved_bit :
    decode 0b00000000000000000001_0000_00000001 = .illegal .reservedBits := by decide
/-- R73: 0x05 and 0x12 are undefined opcodes. -/
theorem test_decode_undefined_opcode :
    decode 0x05 = .illegal .undefinedOpcode ∧ decode 0x12 = .illegal .undefinedOpcode := by decide
/-- R50: byte 0 carries bits 7:0. -/
theorem test_decode_bytes : decodeBytes [0x02, 0x07, 0x00, 0x00] = .command (.ofbCore 7) := by decide
/-- R74: three bytes are no command. -/
theorem test_decode_truncated : decodeBytes [0x02, 0x07, 0x00] = .illegal .truncated := by decide
/-- R75: the words of the table. -/
theorem test_encode : encode (.ofbCore 2) = 0x00000202 ∧ encode (.pkcs1Verify 0) = 0x00000011 := by decide

/-! ### One command at a time, in the test configuration of 95_test_vectors.md section 0 -/

/-- The test cipher `Et` of 95_test_vectors.md. -/
def cipherEt (ks : List Byte) (b : Block) : Block := Vector.ofFn (fun i : Fin 8 => b[i] ^^^ ks.getD i.val 0)

/-- The test configuration. -/
def testParams : Params where
  base := 0x40000000
  numCtx := 4
  keyBytes := 8
  E := cipherEt
  hashLen := 4
  diPrefix := [0xAA, 0xBB]
  irqLine := 0
  free := fun _ => 0
  base_aligned := by decide
  numCtx_pos := by decide
  numCtx_le := by decide
  keyBytes_pos := by decide
  keyBytes_lt := by decide
  hashLen_pos := by decide
  diLen_le := by decide

/-- The buffers of 95_test_vectors.md section 0, and a candidate at 0x1400. -/
def testMem : Memory :=
  memSetBytes (memSetBytes (memSetBytes [] 0x1000 [1, 2, 3, 4, 5, 6, 7, 8]) 0x1300 [1, 2, 3, 4]) 0x1400
    [0x00, 0x01, 0xFF, 0xFF, 0xFF, 0xFF, 0xFF, 0xFF, 0xFF, 0xFF, 0x00, 0xAA, 0xBB, 0x01, 0x02, 0x03, 0x04]

/-- A state with the buffers' addresses latched, the length `len` and the direction code `mode`. -/
def testState (len mode : Word) : State :=
  { resetFor testParams [(0, 2 ^ 32)] [] with
    mem := testMem
    lat := { dst := 0x1200, src := 0x1100, len := len, key := 0x1000, iv := 0x1010, mode := mode, dig := 0x1300 } }

/-- The same with slot 0 as the example of R81 leaves it. -/
def testLive (len mode : Word) : State :=
  setSlot (testState len mode) 0
    { state := .initialized, mode := .encrypt, key := [1, 2, 3, 4, 5, 6, 7, 8], fb := zeroBlock }

/-- The example of R81. -/
theorem test_ofbInit :
    slotAt testParams (ofbInit testParams 0 (testState 0 1)) 0 =
      { state := .initialized, mode := .encrypt, key := [1, 2, 3, 4, 5, 6, 7, 8], fb := zeroBlock } := by
  decide +kernel
/-- V-INIT-3a. -/
theorem test_ofbInit_missing_slot :
    statusWord (ofbInit testParams 4 (testState 0 1)) = 0x022 := by decide +kernel
/-- V-CORE-1, the example of R83. -/
theorem test_ofbCore :
    memString (ofbCore testParams 0 (testLive 16 1)).mem 0x1200 16 =
      [1, 2, 3, 4, 5, 6, 7, 8, 0, 0, 0, 0, 0, 0, 0, 0] := by decide +kernel
/-- V-CORE-16. -/
theorem test_ofbCore_before_init :
    statusWord (ofbCore testParams 0 (testState 16 1)) = 0x172 ∧
      faultsWord (ofbCore testParams 0 (testState 16 1)) = 0x1 := by decide +kernel
/-- V-FIN-1. -/
theorem test_ofbFinish :
    slotAt testParams (ofbFinish testParams 0 (testLive 0 0)) 0 =
      { state := .finished, mode := .encrypt, key := zeros 8, fb := zeroBlock } := by decide +kernel
/-- V-FIN-4. -/
theorem test_ofbFinish_missing_slot :
    statusWord (ofbFinish testParams 15 (testLive 0 0)) = 0x022 := by decide +kernel
/-- V-ONE-1, the example of R91. -/
theorem test_ofbOneshot :
    memString (ofbOneshot testParams (testState 8 2)).mem 0x1200 8 = [1, 2, 3, 4, 5, 6, 7, 8] ∧
      (ofbOneshot testParams (testState 8 2)).scratch = zeroScratch testParams := by decide +kernel
/-- V-ONE-4. -/
theorem test_ofbOneshot_mode : statusWord (ofbOneshot testParams (testState 8 3)) = 0x042 := by
  decide +kernel
/-- V-ENC-1, the example of R98 (at 0x1200). -/
theorem test_pkcs1Encode :
    memString (pkcs1Encode testParams (testState 17 0)).mem 0x1200 18 =
      [0x00, 0x01, 0xFF, 0xFF, 0xFF, 0xFF, 0xFF, 0xFF, 0xFF, 0xFF, 0x00, 0xAA, 0xBB, 0x01, 0x02, 0x03, 0x04,
        0x00] := by decide +kernel
/-- V-ENC-4. -/
theorem test_pkcs1Encode_short : statusWord (pkcs1Encode testParams (testState 16 0)) = 0x032 := by
  decide +kernel
/-- V-VER-1. -/
theorem test_pkcs1Verify :
    statusWord (pkcs1Verify testParams
      { testState 17 0 with lat := { (testState 17 0).lat with src := 0x1400 } }) = 0x002 := by decide +kernel
/-- A candidate of zeros (R100). -/
theorem test_pkcs1Verify_other : statusWord (pkcs1Verify testParams (testState 17 0)) = 0x052 := by
  decide +kernel
/-- V-SYS-1: CFG0 and CFG1 of the test configuration. -/
theorem test_cfg : cfg0Word testParams = 0x08060404 ∧ cfg1Word testParams = 0x00000008 := by decide +kernel

/-! ### Witnesses: a state of the modelled block that meets the hypotheses of each obligation that has some,
under each of its clauses

The configuration is open, so the buffers stand at `clearBase`, which no value of `BASE` puts in the window. -/

/-- The start of a megabyte of data memory away from the register window. -/
def clearBase : Nat := if Config.chip.base < 2 ^ 30 then 2 ^ 31 else 2 ^ 12

/-- The address `off` bytes into that megabyte. -/
def place (off : Nat) : Word :=
  if Config.chip.base < 2 ^ 30 then BitVec.ofNat 32 (2 ^ 31 + off) else BitVec.ofNat 32 (2 ^ 12 + off)

/-- A state after reset, all of data memory backed, with latched operands: key, IV, input, output and digest at
`place` 0x1000, 0xC00, 0x800, 0x400 and 0x100. -/
def wit (len mode : Word) : State :=
  { resetFor Config.chip [(0, 2 ^ 32)] [] with
    lat := { dst := place 0x400, src := place 0x800, len := len, key := place 0x1000, iv := place 0xC00
             mode := mode, dig := place 0x100 } }

/-- The same with slot 0 live, and the input at the output's address where `inPlace`. -/
def witLive (len : Word) (inPlace : Bool) : State :=
  let s := setSlot (wit len 1) 0
    { state := .initialized, mode := .encrypt, key := zeros Config.chip.keyBytes, fb := zeroBlock }
  if inPlace then { s with lat := { s.lat with src := s.lat.dst } } else s

/-- The same with slot 0 FINISHED. -/
def witFinished : State := setSlot (wit 0 0) 0 { emptySlot Config.chip with state := .finished }

/-- The shortest admitted length of a padded block (R95). -/
def shortest : Word := BitVec.ofNat 32 (Config.chip.diLen + 11)

theorem clearBase_cases : clearBase = 2 ^ 31 ∧ Config.chip.base < 2 ^ 30 ∨
    clearBase = 2 ^ 12 ∧ 2 ^ 30 ≤ Config.chip.base := by
  unfold clearBase; split
  · exact .inl ⟨rfl, ‹_›⟩
  · exact .inr ⟨rfl, by omega⟩

theorem place_toNat {off : Nat} (h : off < 2 ^ 20) : (place off).toNat = clearBase + off := by
  unfold place clearBase
  split <;> rw [BitVec.toNat_ofNat] <;> omega

theorem place_ne_zero {off : Nat} (h : off < 2 ^ 20) : place off ≠ 0 := by
  intro e
  have h1 := place_toNat h
  have h2 := clearBase_cases
  rw [e] at h1
  simp at h1
  omega

/-- The megabyte is backed. -/
theorem backed_place {off n : Nat} (h : off + n ≤ 2 ^ 20) (ram : List Region) (hr : ram = [(0, 2 ^ 32)]) :
    allBacked Config.chip ram (clearBase + off) n = true := by
  subst hr
  have hc := clearBase_cases
  rw [allBacked_iff]
  intro i hi
  simp [backed, memOk, inRegions, inWindow]
  omega

theorem keyBytes_le : Config.chip.keyBytes ≤ 0xFFFF := by
  have := Config.chip.keyBytes_lt; omega

theorem hashLen_le : Config.chip.hashLen ≤ 255 := by
  have h := Config.chip.diLen_le; omega

theorem shortest_toNat : shortest.toNat = Config.chip.diLen + 11 := by
  have h := Config.chip.diLen_le
  unfold shortest Params.diLen
  simp only [BitVec.toNat_ofNat]; omega

theorem diLen_le : Config.chip.diLen ≤ 255 := Config.chip.diLen_le

theorem wit_slot (len mode : Word) (c : Nat) : slotAt Config.chip (wit len mode) c = emptySlot Config.chip := by
  by_cases h : c < 15 <;> simp [slotAt, wit, resetFor, h]

theorem witLive_slot (len : Word) (p : Bool) : slotAt Config.chip (witLive len p) 0 =
    { state := .initialized, mode := .encrypt, key := zeros Config.chip.keyBytes, fb := zeroBlock } := by
  cases p <;> rfl
/-- An operand at a place. -/
theorem at_place {w : Word} {off : Nat} (h : w = place off) (ho : off < 2 ^ 20) : w.toNat = clearBase + off :=
  (congrArg BitVec.toNat h).trans (place_toNat ho)
theorem set_place {w : Word} {off : Nat} (h : w = place off) (ho : off < 2 ^ 20) : w ≠ 0 := h ▸ place_ne_zero ho
theorem keyAddr_wit (l m : Word) : keyAddr (wit l m) = clearBase + 0x1000 := at_place rfl (by omega)
theorem ivAddr_wit (l m : Word) : ivAddr (wit l m) = clearBase + 0xC00 := at_place rfl (by omega)
theorem srcAddr_wit (l m : Word) : srcAddr (wit l m) = clearBase + 0x800 := at_place rfl (by omega)
theorem dstAddr_wit (l m : Word) : dstAddr (wit l m) = clearBase + 0x400 := at_place rfl (by omega)
theorem digAddr_wit (l m : Word) : digAddr (wit l m) = clearBase + 0x100 := at_place rfl (by omega)
theorem dstAddr_live (l : Word) (p : Bool) : dstAddr (witLive l p) = clearBase + 0x400 := by
  cases p <;> exact at_place rfl (by omega)
theorem srcAddr_live (l : Word) (p : Bool) :
    srcAddr (witLive l p) = clearBase + if p then 0x400 else 0x800 := by
  cases p
  · exact at_place (off := 0x800) rfl (by omega)
  · exact at_place (off := 0x400) rfl (by omega)

/-- Where the platform has no address with read side effects, all memory is plain. -/
theorem plain_none {s : State} (h : s.volatile = []) (a n : Nat) : Plain s a n := by
  simp [Plain, h, allPlain, hasReadEffect, inRegions]
theorem key_readable (l m : Word) : Readable Config.chip (wit l m) (keyAddr (wit l m)) Config.chip.keyBytes := by
  rw [keyAddr_wit]; exact ⟨backed_place (by have := keyBytes_le; omega) _ rfl, plain_none rfl _ _⟩
theorem iv_readable (l m : Word) : Readable Config.chip (wit l m) (ivAddr (wit l m)) 8 := by
  rw [ivAddr_wit]; exact ⟨backed_place (by omega) _ rfl, plain_none rfl _ _⟩
theorem src_readable (l m : Word) {n : Nat} (h : n ≤ 0x200) :
    Readable Config.chip (wit l m) (srcAddr (wit l m)) n := by
  rw [srcAddr_wit]; exact ⟨backed_place (by omega) _ rfl, plain_none rfl _ _⟩
theorem dst_readable (l m : Word) {n : Nat} (h : n ≤ 0x200) :
    Readable Config.chip (wit l m) (dstAddr (wit l m)) n := by
  rw [dstAddr_wit]; exact ⟨backed_place (by omega) _ rfl, plain_none rfl _ _⟩
theorem dig_readable (l m : Word) : Readable Config.chip (wit l m) (digAddr (wit l m)) Config.chip.hashLen := by
  rw [digAddr_wit]; exact ⟨backed_place (by have := hashLen_le; omega) _ rfl, plain_none rfl _ _⟩
theorem live_readable (l : Word) (p : Bool) {n : Nat} (h : n ≤ 0x200) :
    Readable Config.chip (witLive l p) (srcAddr (witLive l p)) n ∧
      Readable Config.chip (witLive l p) (dstAddr (witLive l p)) n := by
  rw [srcAddr_live, dstAddr_live]
  constructor
  · exact ⟨backed_place (by split <;> omega) _ (by cases p <;> rfl), plain_none (by cases p <;> rfl) _ _⟩
  · exact ⟨backed_place (by omega) _ (by cases p <;> rfl), plain_none (by cases p <;> rfl) _ _⟩
theorem key_iv_set (l m : Word) : (wit l m).lat.key ≠ 0 ∧ (wit l m).lat.iv ≠ 0 :=
  ⟨set_place rfl (by omega), set_place rfl (by omega)⟩
theorem src_dst_set (l m : Word) : (wit l m).lat.src ≠ 0 ∧ (wit l m).lat.dst ≠ 0 ∧ (wit l m).lat.dig ≠ 0 :=
  ⟨set_place rfl (by omega), set_place rfl (by omega), set_place rfl (by omega)⟩
theorem live_set (l : Word) (p : Bool) : (witLive l p).lat.src ≠ 0 ∧ (witLive l p).lat.dst ≠ 0 := by
  cases p <;> exact ⟨set_place rfl (by omega), set_place rfl (by omega)⟩
theorem len_live (l : Word) : lenArg (witLive l false) = l.toNat := rfl
theorem mode_wit (l m : Word) : (wit l m).lat.mode = m := rfl
theorem slot0 : 0 < Config.chip.numCtx := Config.chip.numCtx_pos
theorem no_slot15 : Config.chip.numCtx ≤ 15 := Config.chip.numCtx_le

/-! #### Command words and registers -/

theorem witness_DecodeOfEncode : (Instr.ofbInit 0).WellFormed ∧ (Instr.pkcs1Verify 15).WellFormed := by decide

theorem witness_EncodeOfDecode : decode 0x00000E01 = .command (.ofbInit 14) := by decide

/-- Bit 12 and bit 31, and the ends of the ranges of undefined opcodes. -/
theorem witness_IllegalWordsFault :
    (∀ w ∈ [0x00001001, 0x80000001, 0x00000000, 0x00000005, 0x0000000F, 0x00000012, 0x000000FF],
      ∃ why, decode w = .illegal why) ∧
    (∀ w ∈ [0x00000001, 0x00000004, 0x00000010, 0x00000011], ∃ i, decode w = .command i) ∧
    (accept (wit 0 0) 0x12).powered = true ∧ (accept (wit 0 0) 0x12).env = [] ∧
    (accept (wit 0 0) 0x12).progress = .accepted ∧ (accept (wit 0 0) 0x12).cmd = 0x12 ∧
    { accept (wit 0 0) 0x12 with env := [.run] }.env = .run :: [] ∧
    { accept (wit 0 0) 0x12 with env := [.tick] }.env = .tick :: [] := by
  refine ⟨?_, ?_, rfl, rfl, rfl, rfl, rfl, rfl⟩
  · intro w hw
    fin_cases hw
    exacts [⟨.reservedBits, by decide⟩, ⟨.reservedBits, by decide⟩, ⟨.undefinedOpcode, by decide⟩,
      ⟨.undefinedOpcode, by decide⟩, ⟨.undefinedOpcode, by decide⟩, ⟨.undefinedOpcode, by decide⟩,
      ⟨.undefinedOpcode, by decide⟩]
  · intro w hw
    fin_cases hw
    exacts [⟨.ofbInit 0, by decide⟩, ⟨.ofbOneshot 0, by decide⟩, ⟨.pkcs1Encode 0, by decide⟩,
      ⟨.pkcs1Verify 0, by decide⟩]

theorem witness_StepRunsDecoded :
    (accept (wit 8 1) 0x202).powered = true ∧ (accept (wit 8 1) 0x202).progress = .accepted ∧
    decode (accept (wit 8 1) 0x202).cmd = .command (.ofbCore 2) ∧ (accept (wit 8 1) 0x202).env = [] ∧
    { accept (wit 8 1) 0x202 with env := [.run, .reset] }.env = .run :: [.reset] := by
  refine ⟨rfl, rfl, ?_, rfl, rfl⟩
  decide

/-- The state `s`, about to take the host access `op`. -/
def onHost (s : State) (op : HostOp) : State := { s with env := [.host op] }

theorem witness_CmdAccess :
    (wit 0 0).powered = true ∧
    (onHost (wit 0 0) (.read (Config.chip.base + 0x20) 32)).env =
      .host (.read (Config.chip.base + 0x20) 32) :: [] ∧
    (onHost (wit 0 0) (.write (Config.chip.base + 0x20) 32 0x202)).env =
      .host (.write (Config.chip.base + 0x20) 32 0x202) :: [] ∧
    (onHost (wit 0 0) (.write (Config.chip.base + 0x20) 32 0x202)).busy = false ∧
    (onHost (accept (wit 0 0) 0x202) (.write (Config.chip.base + 0x20) 32 0x202)).busy = true ∧
    decode 0x202 = .command (.ofbCore 2) := by
  refine ⟨rfl, rfl, rfl, rfl, rfl, ?_⟩
  decide

theorem witness_StatusWriteClearsDone :
    (complete (wit 0 0) .ok).powered = true ∧ (complete (wit 0 0) .ok).done = true ∧
    ∀ v ∈ [(0 : Word), 2], (onHost (complete (wit 0 0) .ok) (.write (Config.chip.base + 0x0C) 32 v)).env =
      .host (.write (Config.chip.base + 0x0C) 32 v) :: [] :=
  ⟨rfl, rfl, fun _ _ => rfl⟩

/-- Narrow, wide and misaligned accesses at both ends of the window. -/
theorem witness_NarrowAccessRefused :
    (wit 0 0).powered = true ∧
    ∀ aw ∈ [(Config.chip.base, 8), (Config.chip.base, 64), (Config.chip.base + 1, 32), (Config.chip.base + 62, 16),
        (Config.chip.base + 63, 32)],
      Config.chip.base < aw.1 + (aw.2 + 7) / 8 ∧ aw.1 < Config.chip.base + 64 ∧ ¬ (aw.2 = 32 ∧ aw.1 % 4 = 0) ∧
      (onHost (wit 0 0) (.read aw.1 aw.2)).env = .host (.read aw.1 aw.2) :: [] ∧
      (onHost (wit 0 0) (.write aw.1 aw.2 1)).env = .host (.write aw.1 aw.2 1) :: [] := by
  have := Config.chip.base_aligned
  refine ⟨rfl, fun aw h => ⟨?_, ?_, ?_, rfl, rfl⟩⟩ <;> fin_cases h <;> simp <;> omega

theorem witness_ReadOnlyAndReserved :
    (wit 0 0).powered = true ∧ 0x00 ∈ [0x00, 0x04, 0x10, 0x14, 0x18, 0x1C] ∧
    0x1C ∈ [0x00, 0x04, 0x10, 0x14, 0x18, 0x1C] ∧
    (∀ off, (onHost (wit 0 0) (.write (Config.chip.base + off) 32 1)).env =
      .host (.write (Config.chip.base + off) 32 1) :: []) ∧
    (onHost (wit 0 0) (.read (Config.chip.base + 0x1C) 32)).env =
      .host (.read (Config.chip.base + 0x1C) 32) :: [] :=
  ⟨rfl, by decide, by decide, fun _ => rfl, rfl⟩

theorem witness_RegisterMapReads :
    (wit 0 0).powered = true ∧ ∀ r ∈ [RegName.cfg0, .dig],
      (onHost (wit 0 0) (.read (Config.chip.base + regOffset r) 32)).env =
        .host (.read (Config.chip.base + regOffset r) 32) :: [] :=
  ⟨rfl, fun _ _ => rfl⟩

theorem witness_OperandRegisterReadBack :
    (RegName.dst ∈ [RegName.dst, .src, .len, .key, .iv, .mode, .dig] ∧
      RegName.dig ∈ [RegName.dst, .src, .len, .key, .iv, .mode, .dig] ∧ RegName.dig ≠ .dst) ∧
    (wit 0 0).powered = true ∧
    ∀ r, (onHost (wit 0 0) (.write (Config.chip.base + regOffset r) 32 1)).env =
      .host (.write (Config.chip.base + regOffset r) 32 1) :: [] :=
  ⟨by decide, rfl, fun _ => rfl⟩

/-- Slot 0 is present and slot 15 is not, and both have a field. -/
theorem witness_CtxStatFields :
    0 < 16 ∧ 0 < Config.chip.numCtx ∧ 15 < 16 ∧ ¬ 15 < Config.chip.numCtx :=
  ⟨by omega, slot0, by omega, by have := no_slot15; omega⟩

theorem witness_CtxModeFields :
    0 < 32 ∧ 0 < Config.chip.numCtx ∧ 31 < 32 ∧ ¬ 31 < Config.chip.numCtx :=
  ⟨by omega, slot0, by omega, by have := no_slot15; omega⟩

/-! #### Every command -/

theorem witness_InterruptFollowsDone :
    (∃ t, exec (.ofbFinish 0) (wit 0 0) = .next t) ∧ (2 : Word).getLsbD 1 = true ∧ (wit 0 0).busy = false ∧
    (0 : Word).getLsbD 0 = false := by
  refine ⟨⟨_, rfl⟩, ?_, rfl, ?_⟩ <;> decide

/-- No operand was ever written. -/
def witNull : State := resetFor Config.chip [(0, 2 ^ 32)] []

theorem witNull_slot (c : Nat) : slotAt Config.chip witNull c = emptySlot Config.chip := by
  by_cases h : c < 15 <;> simp [slotAt, witNull, resetFor, h]

/-- A present slot, and each of the four validation codes. -/
theorem witness_ValidationPrecedesMutation :
    exec (.ofbInit 0) witNull = .next (complete witNull .invalidInput) ∧
    exec (.ofbInit 15) (wit 0 1) = .next (complete (wit 0 1) .invalidOutput) ∧
    exec (.ofbCore 0) (witLive 4 false) = .next (complete (witLive 4 false) .invalidArg) ∧
    exec (.ofbInit 0) (wit 0 3) = .next (complete (wit 0 3) .invalidMode) := by
  have h0 : Config.chip.numCtx ≠ 0 := Nat.ne_of_gt slot0
  have h15 := no_slot15
  have e0 : witNull.lat.key = 0 := rfl
  refine ⟨congrArg Host.Outcome.next ?_, congrArg Host.Outcome.next ?_, congrArg Host.Outcome.next ?_,
    congrArg Host.Outcome.next ?_⟩
  · simp [ofbInit, initCheck_eq, witNull_slot, emptySlot, e0, h0]
  · simp [ofbInit, initCheck_eq, h15]
  · simp only [ofbCore, coreCheck_eq, live_set]
    simp [witLive_slot, len_live, h0]
  · simp only [ofbInit, initCheck_eq, key_iv_set]
    simp [wit_slot, emptySlot, mode_wit, h0]

/-- PKCS1_VERIFY of a candidate whose byte 1 is not the block type of R94. -/
theorem verify_differs {P : Params} {u : State} (hck : verifyCheck P u = .pass) (hq : Quiet u)
    (hs : Readable P u (srcAddr u) (lenArg u)) (hg : Readable P u (digAddr u) P.hashLen) (hl : 2 ≤ lenArg u)
    (hm : memGet u.mem (srcAddr u + 1) ≠ 1) : (pkcs1Verify P u).code = .verificationFailed := by
  obtain ⟨d, hloop, hd0⟩ := verifyLoop_quiet (P := P) (n := lenArg u) (i := 0)
    (s := setDiff (setDbuf u (memString u.mem (digAddr u) P.hashLen)) 0) hq hs
  have hne : d ≠ 0#8 := fun e => hm ((hd0.mp e).2 1 (by omega))
  simp only [pkcs1Verify, hck, guarded, verifyRun, verifyCapture, captureDigest, readBytes_quiet hq hg, andThen,
    verifyFrom, setDiff_lat, setDbuf_lat, lenArg]
  rw [show u.lat.len.toNat - 0 = lenArg u from rfl, hloop]
  simp [verifyDone, hne]

theorem verify_zeros : ∃ t, exec (.pkcs1Verify 0) (wit shortest 0) = .next t ∧ t.code = .verificationFailed := by
  have hl : lenArg (wit shortest 0) = Config.chip.diLen + 11 := shortest_toNat
  have hd := diLen_le
  have hc := clearBase_cases
  have hh := hashLen_le
  refine ⟨_, rfl, verify_differs ?_ ⟨rfl, rfl⟩ (src_readable _ _ (by omega)) (dig_readable _ _) (by omega) ?_⟩
  · simp only [verifyCheck_eq, src_dst_set, hl, srcAddr_wit, digAddr_wit]; simp; omega
  · rw [show (wit shortest 0).mem = [] from rfl]; decide

theorem witness_FaultsRecordCode7 :
    (∃ t, exec (.ofbCore 0) (wit 8 0) = .next t ∧ t.code = .cmdFault) ∧
    (∃ t, exec (.ofbInit 15) (wit 8 0) = .next t ∧ t.code ≠ .cmdFault) ∧
    (∃ t, exec (.pkcs1Verify 0) (wit shortest 0) = .next t ∧ t.code = .verificationFailed) := by
  have h0 := slot0
  have h15 := no_slot15
  refine ⟨⟨_, rfl, ?_⟩, ⟨_, rfl, ?_⟩, verify_zeros⟩
  · simp only [ofbCore, coreCheck_eq, wit_slot]
    rw [if_neg (by omega), if_pos (by decide)]
    rfl
  · simp only [ofbInit, initCheck_eq]
    rw [if_pos h15]
    decide

/-- Init on a live slot, core and finish on dead ones; and core on a live one, which is no such case. -/
theorem witness_SequenceFaultsExactly :
    (∃ t, exec (.ofbInit 0) (witLive 8 false) = .next t) ∧ (witLive 8 false).faults = 0 ∧
    SeqCase Config.chip (witLive 8 false) (.ofbInit 0) ∧ SeqCase Config.chip (wit 8 0) (.ofbCore 0) ∧
    SeqCase Config.chip witFinished (.ofbFinish 0) ∧ ¬ SeqCase Config.chip (witLive 8 false) (.ofbCore 0) := by
  refine ⟨⟨_, rfl⟩, rfl, ⟨slot0, rfl⟩, ⟨slot0, ?_⟩, ⟨slot0, rfl⟩, fun h => h.2 rfl⟩
  rw [wit_slot]; decide

theorem witness_SlotTransitions : (∃ t, exec (.ofbInit 0) (wit 0 1) = .next t) ∧ 0 < 15 ∧ 14 < 15 :=
  ⟨⟨_, rfl⟩, by omega, by omega⟩

theorem witness_ModeIndependence :
    (∃ t, exec (.ofbCore 0) (witLive 8 false) = .next t) ∧
    (∃ t, exec (.ofbCore 0) (withModes (witLive 8 false) (Vector.replicate 15 .decrypt)) = .next t) ∧
    14 < 15 := ⟨⟨_, rfl⟩, ⟨_, rfl⟩, by omega⟩

theorem witness_FrameWithoutStore :
    (∃ t, exec (.ofbInit 0) (wit 0 1) = .next t) ∧ (∃ t, exec (.ofbFinish 0) (wit 0 1) = .next t) ∧
    (∃ t, exec (.pkcs1Verify 0) (wit shortest 1) = .next t) ∧ 14 ≠ 0 :=
  ⟨⟨_, rfl⟩, ⟨_, rfl⟩, ⟨_, rfl⟩, by omega⟩

theorem witness_FrameWithStore :
    (∃ t, exec (.ofbCore 0) (witLive 8 false) = .next t) ∧ (∃ t, exec (.ofbOneshot 0) (wit 8 1) = .next t) ∧
    (∃ t, exec (.pkcs1Encode 0) (wit shortest 1) = .next t) ∧ 14 ≠ 0 :=
  ⟨⟨_, rfl⟩, ⟨_, rfl⟩, ⟨_, rfl⟩, by omega⟩

/-! #### OFB -/

/-- Both directions. -/
theorem witness_InitBinds :
    0 < Config.chip.numCtx ∧ ∀ m ∈ [(1 : Word), 2], (slotAt Config.chip (wit 0 m) 0).state ≠ .initialized ∧
    (wit 0 m).lat.key ≠ 0 ∧ (wit 0 m).lat.iv ≠ 0 ∧ ((wit 0 m).lat.mode = 1 ∨ (wit 0 m).lat.mode = 2) ∧
    Quiet (wit 0 m) ∧ Readable Config.chip (wit 0 m) (keyAddr (wit 0 m)) Config.chip.keyBytes ∧
    Readable Config.chip (wit 0 m) (ivAddr (wit 0 m)) 8 := by
  refine ⟨slot0, fun m hm => ⟨?_, (key_iv_set 0 m).1, (key_iv_set 0 m).2, ?_, ⟨rfl, rfl⟩, key_readable _ _,
    iv_readable _ _⟩⟩
  · rw [wit_slot]; decide
  · show m = 1 ∨ m = 2
    simpa using hm

theorem witness_ReinitRefused :
    0 < Config.chip.numCtx ∧ (slotAt Config.chip (witLive 0 false) 0).state = .initialized := ⟨slot0, rfl⟩

/-- One block and two, to another buffer and in place. -/
theorem witness_CoreStreams :
    0 < Config.chip.numCtx ∧ ∀ l ∈ [(8 : Word), 16], ∀ p,
      (slotAt Config.chip (witLive l p) 0).state = .initialized ∧ (witLive l p).lat.src ≠ 0 ∧
      (witLive l p).lat.dst ≠ 0 ∧ lenArg (witLive l p) ≠ 0 ∧ lenArg (witLive l p) % 8 = 0 ∧
      Quiet (witLive l p) ∧ Readable Config.chip (witLive l p) (srcAddr (witLive l p)) (lenArg (witLive l p)) ∧
      Readable Config.chip (witLive l p) (dstAddr (witLive l p)) (lenArg (witLive l p)) ∧
      DisjointOrSame (srcAddr (witLive l p)) (dstAddr (witLive l p)) (lenArg (witLive l p)) := by
  refine ⟨slot0, fun l hl p => ?_⟩
  have hn : lenArg (witLive l p) = 8 ∨ lenArg (witLive l p) = 16 := by
    have : lenArg (witLive l p) = l.toNat := by cases p <;> rfl
    rw [this]; fin_cases hl
    · exact .inl rfl
    · exact .inr rfl
  have hq : Quiet (witLive l p) := by cases p <;> exact ⟨rfl, rfl⟩
  have hb := live_readable l p (n := lenArg (witLive l p)) (by omega)
  refine ⟨by rw [witLive_slot], (live_set l p).1, (live_set l p).2, by omega, by omega, hq, hb.1, hb.2, ?_⟩
  rw [srcAddr_live, dstAddr_live]
  cases p
  · right; right; simp; omega
  · left; simp

/-- Eight bytes, then eight, against sixteen. -/
theorem witness_Streaming :
    0 < Config.chip.numCtx ∧ (slotAt Config.chip (witLive 0 false) 0).state = .initialized ∧
    (witLive 0 false).lat.src ≠ 0 ∧ (witLive 0 false).lat.dst ≠ 0 ∧ 0 < 8 ∧ 8 % 8 = 0 ∧ 8 + 8 < 2 ^ 32 ∧
    Quiet (witLive 0 false) ∧ Readable Config.chip (witLive 0 false) (srcAddr (witLive 0 false)) (8 + 8) ∧
    Readable Config.chip (witLive 0 false) (dstAddr (witLive 0 false)) (8 + 8) ∧
    ∃ t1 t2 t,
      exec (.ofbCore 0)
        { witLive 0 false with lat := { (witLive 0 false).lat with len := BitVec.ofNat 32 8 } } = .next t1 ∧
      exec (.ofbCore 0)
        { t1 with lat := { t1.lat with
                           src := (witLive 0 false).lat.src + BitVec.ofNat 32 8
                           dst := (witLive 0 false).lat.dst + BitVec.ofNat 32 8
                           len := BitVec.ofNat 32 8 } } = .next t2 ∧
      exec (.ofbCore 0)
        { witLive 0 false with lat := { (witLive 0 false).lat with len := BitVec.ofNat 32 (8 + 8) } } = .next t :=
  ⟨slot0, rfl, (live_set 0 false).1, (live_set 0 false).2, by omega, by omega, by omega, ⟨rfl, rfl⟩,
    (live_readable 0 false (by omega)).1, (live_readable 0 false (by omega)).2, _, _, _, rfl, rfl, rfl⟩

/-- The output of OFB_CORE decrypted in place, by the same slot bound anew. -/
theorem witness_RoundTrip :
    0 < Config.chip.numCtx ∧ (slotAt Config.chip (witLive 8 false) 0).state = .initialized ∧
    (witLive 8 false).lat.src ≠ 0 ∧ (witLive 8 false).lat.dst ≠ 0 ∧ lenArg (witLive 8 false) ≠ 0 ∧
    lenArg (witLive 8 false) % 8 = 0 ∧ Quiet (witLive 8 false) ∧
    Readable Config.chip (witLive 8 false) (srcAddr (witLive 8 false)) (lenArg (witLive 8 false)) ∧
    Readable Config.chip (witLive 8 false) (dstAddr (witLive 8 false)) (lenArg (witLive 8 false)) ∧
    Readable Config.chip (witLive 8 false) (witLive 8 false).lat.dst.toNat (lenArg (witLive 8 false)) ∧
    DisjointOrSame (srcAddr (witLive 8 false)) (dstAddr (witLive 8 false)) (lenArg (witLive 8 false)) ∧
    DisjointOrSame (dstAddr (witLive 8 false)) (witLive 8 false).lat.dst.toNat (lenArg (witLive 8 false)) ∧
    ∃ t u, exec (.ofbCore 0) (witLive 8 false) = .next t ∧
      exec (.ofbCore 0)
        { setSlot t 0
            { state := .initialized, mode := .decrypt, key := (slotAt Config.chip (witLive 8 false) 0).key
              fb := (slotAt Config.chip (witLive 8 false) 0).fb } with
          lat := { (witLive 8 false).lat with src := (witLive 8 false).lat.dst } } = .next u := by
  have h := witness_CoreStreams.2 8 (by simp) false
  obtain ⟨h1, h2, h3, h4, h5, h6, h7, h8, h9⟩ := h
  exact ⟨slot0, h1, h2, h3, h4, h5, h6, h7, h8, h8, h9, .inl rfl, _, _, rfl, rfl⟩

theorem witness_FinishZeroizes :
    0 < Config.chip.numCtx ∧ (slotAt Config.chip (witLive 0 false) 0).state ≠ .finished :=
  ⟨slot0, by rw [witLive_slot]; decide⟩

theorem witness_FinishErrors :
    Config.chip.numCtx ≤ 15 ∧ 0 < Config.chip.numCtx ∧ (slotAt Config.chip witFinished 0).state = .finished :=
  ⟨no_slot15, slot0, rfl⟩

theorem witness_OneshotRuns :
    (wit 8 1).lat.key ≠ 0 ∧ (wit 8 1).lat.iv ≠ 0 ∧ ((wit 8 1).lat.mode = 1 ∨ (wit 8 1).lat.mode = 2) ∧
    (wit 8 1).lat.src ≠ 0 ∧ (wit 8 1).lat.dst ≠ 0 ∧ lenArg (wit 8 1) ≠ 0 ∧ lenArg (wit 8 1) % 8 = 0 ∧
    Quiet (wit 8 1) ∧ Readable Config.chip (wit 8 1) (keyAddr (wit 8 1)) Config.chip.keyBytes ∧
    Readable Config.chip (wit 8 1) (ivAddr (wit 8 1)) 8 ∧
    Readable Config.chip (wit 8 1) (srcAddr (wit 8 1)) (lenArg (wit 8 1)) ∧
    Readable Config.chip (wit 8 1) (dstAddr (wit 8 1)) (lenArg (wit 8 1)) ∧
    DisjointOrSame (srcAddr (wit 8 1)) (dstAddr (wit 8 1)) (lenArg (wit 8 1)) := by
  have hl : lenArg (wit 8 1) = 8 := rfl
  refine ⟨(key_iv_set 8 1).1, (key_iv_set 8 1).2, .inl rfl, (src_dst_set 8 1).1, (src_dst_set 8 1).2.1,
    by omega, by omega, ⟨rfl, rfl⟩, key_readable _ _, iv_readable _ _, src_readable _ _ (by omega),
    dst_readable _ _ (by omega), ?_⟩
  rw [srcAddr_wit, dstAddr_wit, hl]; omega

/-- `s` with the input four bytes above the output: buffers that overlap in part. -/
def shifted (s : State) : State := { s with lat := { s.lat with src := place 0x404 } }

/-- Two blocks, and buffers that overlap in part. -/
theorem witness_OverlapFollowsOrder :
    (0 < Config.chip.numCtx ∧
      (slotAt Config.chip (shifted (witLive 16 false)) 0).state = .initialized ∧
      (shifted (witLive 16 false)).lat.src ≠ 0 ∧ (shifted (witLive 16 false)).lat.dst ≠ 0 ∧
      lenArg (shifted (witLive 16 false)) ≠ 0 ∧ lenArg (shifted (witLive 16 false)) % 8 = 0 ∧
      Quiet (shifted (witLive 16 false)) ∧
      Readable Config.chip (shifted (witLive 16 false)) (srcAddr (shifted (witLive 16 false))) 16 ∧
      Readable Config.chip (shifted (witLive 16 false)) (dstAddr (shifted (witLive 16 false))) 16) ∧
    ((shifted (wit 16 1)).lat.key ≠ 0 ∧ (shifted (wit 16 1)).lat.iv ≠ 0 ∧ (shifted (wit 16 1)).lat.mode = 1 ∧
      (shifted (wit 16 1)).lat.src ≠ 0 ∧ (shifted (wit 16 1)).lat.dst ≠ 0 ∧
      lenArg (shifted (wit 16 1)) = 16 ∧ Quiet (shifted (wit 16 1)) ∧
      Readable Config.chip (shifted (wit 16 1)) (keyAddr (shifted (wit 16 1))) Config.chip.keyBytes ∧
      Readable Config.chip (shifted (wit 16 1)) (ivAddr (shifted (wit 16 1))) 8 ∧
      Readable Config.chip (shifted (wit 16 1)) (srcAddr (shifted (wit 16 1))) 16 ∧
      Readable Config.chip (shifted (wit 16 1)) (dstAddr (shifted (wit 16 1))) 16) ∧
    srcAddr (shifted (wit 16 1)) = dstAddr (shifted (wit 16 1)) + 4 := by
  have a1 : srcAddr (shifted (witLive 16 false)) = clearBase + 0x404 := at_place rfl (by omega)
  have a2 : srcAddr (shifted (wit 16 1)) = clearBase + 0x404 := at_place rfl (by omega)
  have n1 : (shifted (witLive 16 false)).lat.src ≠ 0 := set_place rfl (by omega)
  have n2 : (shifted (wit 16 1)).lat.src ≠ 0 := set_place rfl (by omega)
  have b1 : Readable Config.chip (shifted (witLive 16 false)) (srcAddr (shifted (witLive 16 false))) 16 := by
    rw [a1]; exact ⟨backed_place (by omega) _ rfl, plain_none rfl _ _⟩
  have b2 : Readable Config.chip (shifted (wit 16 1)) (srcAddr (shifted (wit 16 1))) 16 := by
    rw [a2]; exact ⟨backed_place (by omega) _ rfl, plain_none rfl _ _⟩
  refine ⟨⟨slot0, rfl, n1, (live_set 16 false).2, ?_, rfl, ⟨rfl, rfl⟩, b1, (live_readable 16 false (by omega)).2⟩,
    ⟨(key_iv_set 16 1).1, (key_iv_set 16 1).2, rfl, n2, (src_dst_set 16 1).2.1, rfl, ⟨rfl, rfl⟩, key_readable 16 1,
      iv_readable 16 1, b2, dst_readable 16 1 (by omega)⟩, ?_⟩
  · rw [show lenArg (shifted (witLive 16 false)) = 16 from rfl]; omega
  · rw [a2, show dstAddr (shifted (wit 16 1)) = clearBase + 0x400 from dstAddr_wit 16 1]

theorem witness_OneshotLeavesNoSecret :
    (wit 8 1).scratch = zeroScratch Config.chip ∧ ∃ t, exec (.ofbOneshot 0) (wit 8 1) = .next t :=
  ⟨rfl, _, rfl⟩

/-- A state after reset with operands `dst src len key iv mode dig` latched, and slot 0 as given. -/
def withOperands (o : OperandRegs) (st : SlotState) : State :=
  setSlot { resetFor Config.chip [] [] with lat := o } 0 { emptySlot Config.chip with state := st }

theorem withOperands_slot (o : OperandRegs) (st : SlotState) :
    (slotAt Config.chip (withOperands o st) 0).state = st := rfl
theorem withOperands_lat (o : OperandRegs) (st : SlotState) : (withOperands o st).lat = o := rfl

/-- No byte is backed where the memory map is empty. -/
theorem withOperands_fails (o : OperandRegs) (st : SlotState) (a : Nat) {n : Nat} (h : 1 ≤ n) :
    accessFails Config.chip (withOperands o st) a n = true := by
  obtain ⟨m, rfl⟩ : ∃ m, n = m + 1 := ⟨n - 1, by omega⟩
  rw [accessFails, allBacked, show (withOperands o st).ram = [] from rfl]
  simp [backed, memOk, inRegions]

/-- Every clause of InitOutcomes: the first failing check of each kind, the first IV that does not fit and the
last that does, and a read that fails. -/
theorem witness_InitOutcomes :
    initCheck Config.chip 15 (withOperands ⟨0, 0, 0, 1, 1, 1, 0⟩ .uninit) = .reject .invalidOutput ∧
    initCheck Config.chip 0 (withOperands ⟨0, 0, 0, 1, 1, 1, 0⟩ .initialized) = .fault .seq ∧
    initCheck Config.chip 0 (withOperands ⟨0, 0, 0, 0, 1, 1, 0⟩ .uninit) = .reject .invalidInput ∧
    initCheck Config.chip 0 (withOperands ⟨0, 0, 0, 1, 0, 1, 0⟩ .finished) = .reject .invalidInput ∧
    initCheck Config.chip 0 (withOperands ⟨0, 0, 0, 1, 1, 0, 0⟩ .uninit) = .reject .invalidMode ∧
    initCheck Config.chip 0 (withOperands ⟨0, 0, 0, 1, 1, 3, 0⟩ .uninit) = .reject .invalidMode ∧
    initCheck Config.chip 0 (withOperands ⟨0, 0, 0, 1, 0xFFFFFFF9, 1, 0⟩ .uninit) = .reject .invalidArg ∧
    initCheck Config.chip 0 (withOperands ⟨0, 0, 0, 1, 0xFFFFFFF8, 2, 0⟩ .uninit) = .pass ∧
    accessFails Config.chip (withOperands ⟨0, 0, 0, 1, 1, 1, 0⟩ .uninit) 1 Config.chip.keyBytes = true := by
  have h0 : ¬ Config.chip.numCtx ≤ 0 := by have := slot0; omega
  have hk := keyBytes_le
  refine ⟨?_, ?_, ?_, ?_, ?_, ?_, ?_, ?_, withOperands_fails _ _ _ Config.chip.keyBytes_pos⟩
  · rw [initCheck_eq, if_pos no_slot15]
  all_goals
    simp only [initCheck_eq, withOperands_slot, withOperands_lat, keyAddr, ivAddr, h0]; simp; try omega

/-- Every clause of CoreOutcomes. -/
theorem witness_CoreOutcomes :
    coreCheck Config.chip 15 (withOperands ⟨1, 1, 8, 0, 0, 0, 0⟩ .initialized) = .reject .invalidOutput ∧
    coreCheck Config.chip 0 (withOperands ⟨1, 1, 8, 0, 0, 0, 0⟩ .finished) = .fault .seq ∧
    coreCheck Config.chip 0 (withOperands ⟨1, 0, 8, 0, 0, 0, 0⟩ .initialized) = .reject .invalidInput ∧
    coreCheck Config.chip 0 (withOperands ⟨0, 1, 8, 0, 0, 0, 0⟩ .initialized) = .reject .invalidOutput ∧
    coreCheck Config.chip 0 (withOperands ⟨1, 1, 0, 0, 0, 0, 0⟩ .initialized) = .reject .invalidArg ∧
    coreCheck Config.chip 0 (withOperands ⟨1, 1, 9, 0, 0, 0, 0⟩ .initialized) = .reject .invalidArg ∧
    coreCheck Config.chip 0 (withOperands ⟨1, 0xFFFFFFF9, 8, 0, 0, 0, 0⟩ .initialized) = .reject .invalidArg ∧
    coreCheck Config.chip 0 (withOperands ⟨0xFFFFFFF8, 1, 8, 0, 0, 0, 0⟩ .initialized) = .pass ∧
    accessFails Config.chip (withOperands ⟨1, 1, 8, 0, 0, 0, 0⟩ .initialized) 1 8 = true := by
  have h0 : ¬ Config.chip.numCtx ≤ 0 := by have := slot0; omega
  refine ⟨?_, ?_, ?_, ?_, ?_, ?_, ?_, ?_, withOperands_fails _ _ _ (by omega)⟩
  · rw [coreCheck_eq, if_pos no_slot15]
  all_goals
    simp only [coreCheck_eq, withOperands_slot, withOperands_lat, lenArg, srcAddr, dstAddr, h0]; simp

/-- Every clause of OneshotOutcomes. -/
theorem witness_OneshotOutcomes :
    oneshotCheck Config.chip (withOperands ⟨1, 1, 8, 1, 0, 1, 0⟩ .uninit) = .reject .invalidInput ∧
    oneshotCheck Config.chip (withOperands ⟨1, 1, 8, 1, 1, 3, 0⟩ .uninit) = .reject .invalidMode ∧
    oneshotCheck Config.chip (withOperands ⟨1, 1, 8, 1, 0xFFFFFFF9, 1, 0⟩ .uninit) = .reject .invalidArg ∧
    oneshotCheck Config.chip (withOperands ⟨1, 0, 8, 1, 1, 1, 0⟩ .uninit) = .reject .invalidInput ∧
    oneshotCheck Config.chip (withOperands ⟨0, 1, 8, 1, 1, 1, 0⟩ .uninit) = .reject .invalidOutput ∧
    oneshotCheck Config.chip (withOperands ⟨1, 1, 0, 1, 1, 1, 0⟩ .uninit) = .reject .invalidArg ∧
    oneshotCheck Config.chip (withOperands ⟨1, 0xFFFFFFF9, 8, 1, 1, 1, 0⟩ .uninit) = .reject .invalidArg ∧
    oneshotCheck Config.chip (withOperands ⟨1, 0xFFFFFFF8, 8, 1, 0xFFFFFFF8, 2, 0⟩ .uninit) = .pass ∧
    accessFails Config.chip (withOperands ⟨1, 1, 8, 1, 1, 1, 0⟩ .uninit) 1 Config.chip.keyBytes = true := by
  have hk := keyBytes_le
  refine ⟨?_, ?_, ?_, ?_, ?_, ?_, ?_, ?_, withOperands_fails _ _ _ Config.chip.keyBytes_pos⟩
  all_goals
    simp only [oneshotCheck_eq, withOperands_lat, keyAddr, ivAddr, lenArg, srcAddr, dstAddr]; simp; try omega

/-! #### The codec -/

theorem witness_ExpectedIsPad :
    (zeros Config.chip.hashLen).length = Config.chip.hashLen ∧ Config.chip.diLen + 11 ≤ Config.chip.diLen + 11 ∧
    0 < Config.chip.diLen + 11 := ⟨by simp [zeros], by omega, by omega⟩

/-- The shortest padded block. -/
theorem witness_EncodeWritesPad :
    (wit shortest 0).lat.dig ≠ 0 ∧ (wit shortest 0).lat.dst ≠ 0 ∧
    Config.chip.diLen + 11 ≤ lenArg (wit shortest 0) ∧ Quiet (wit shortest 0) ∧
    Readable Config.chip (wit shortest 0) (digAddr (wit shortest 0)) Config.chip.hashLen ∧
    Readable Config.chip (wit shortest 0) (dstAddr (wit shortest 0)) (lenArg (wit shortest 0)) := by
  have hl : lenArg (wit shortest 0) = Config.chip.diLen + 11 := shortest_toNat
  have hd := diLen_le
  exact ⟨(src_dst_set _ _).2.2, (src_dst_set _ _).2.1, hl.ge, ⟨rfl, rfl⟩, dig_readable _ _,
    dst_readable _ _ (by omega)⟩

/-- Every clause of EncodeOutcomes: a byte too few, and the shortest block. -/
theorem witness_EncodeOutcomes :
    encodeCheck Config.chip (withOperands ⟨1, 0, shortest, 0, 0, 0, 0⟩ .uninit) = .reject .invalidInput ∧
    encodeCheck Config.chip (withOperands ⟨0, 0, shortest, 0, 0, 0, 1⟩ .uninit) = .reject .invalidOutput ∧
    encodeCheck Config.chip (withOperands ⟨1, 0, 10, 0, 0, 0, 1⟩ .uninit) = .reject .invalidArg ∧
    encodeCheck Config.chip (withOperands ⟨0xFFFFFFFF, 0, shortest, 0, 0, 0, 1⟩ .uninit) = .reject .invalidArg ∧
    encodeCheck Config.chip (withOperands ⟨1, 0, shortest, 0, 0, 0, 1⟩ .uninit) = .pass ∧
    accessFails Config.chip (withOperands ⟨1, 0, shortest, 0, 0, 0, 1⟩ .uninit) 1 Config.chip.hashLen = true := by
  have hd := diLen_le
  have hh := hashLen_le
  refine ⟨?_, ?_, ?_, ?_, ?_, withOperands_fails _ _ _ Config.chip.hashLen_pos⟩
  all_goals
    simp only [encodeCheck_eq, withOperands_lat, lenArg, dstAddr, digAddr, shortest_toNat]; simp; try omega

theorem witness_VerifyDecides :
    (wit shortest 0).lat.src ≠ 0 ∧ Config.chip.diLen + 11 ≤ lenArg (wit shortest 0) ∧
    (wit shortest 0).lat.dig ≠ 0 ∧ Quiet (wit shortest 0) ∧
    Readable Config.chip (wit shortest 0) (srcAddr (wit shortest 0)) (lenArg (wit shortest 0)) ∧
    Readable Config.chip (wit shortest 0) (digAddr (wit shortest 0)) Config.chip.hashLen := by
  have hl : lenArg (wit shortest 0) = Config.chip.diLen + 11 := shortest_toNat
  have hd := diLen_le
  exact ⟨(src_dst_set _ _).1, hl.ge, (src_dst_set _ _).2.2, ⟨rfl, rfl⟩, src_readable _ _ (by omega), dig_readable _ _⟩

/-- Every clause of VerifyOutcomes. -/
theorem witness_VerifyOutcomes :
    verifyCheck Config.chip (withOperands ⟨0, 0, shortest, 0, 0, 0, 1⟩ .uninit) = .reject .invalidInput ∧
    verifyCheck Config.chip (withOperands ⟨0, 1, 10, 0, 0, 0, 1⟩ .uninit) = .reject .invalidArg ∧
    verifyCheck Config.chip (withOperands ⟨0, 1, shortest, 0, 0, 0, 0⟩ .uninit) = .reject .invalidInput ∧
    verifyCheck Config.chip (withOperands ⟨0, 0xFFFFFFFF, shortest, 0, 0, 0, 1⟩ .uninit) = .reject .invalidArg ∧
    verifyCheck Config.chip (withOperands ⟨0, 1, shortest, 0, 0, 0, 1⟩ .uninit) = .pass ∧
    accessFails Config.chip (withOperands ⟨0, 1, shortest, 0, 0, 0, 1⟩ .uninit) 1 Config.chip.hashLen = true := by
  have hd := diLen_le
  have hh := hashLen_le
  refine ⟨?_, ?_, ?_, ?_, ?_, withOperands_fails _ _ _ Config.chip.hashLen_pos⟩
  all_goals
    simp only [verifyCheck_eq, withOperands_lat, lenArg, srcAddr, digAddr, shortest_toNat]; simp; try omega

/-- The first byte of the padded block, and the last of the digest. -/
theorem witness_EncodeVerifyAgree :
    (wit shortest 0).lat.dig ≠ 0 ∧ (wit shortest 0).lat.dst ≠ 0 ∧
    Config.chip.diLen + 11 ≤ lenArg (wit shortest 0) ∧ Quiet (wit shortest 0) ∧
    Readable Config.chip (wit shortest 0) (digAddr (wit shortest 0)) Config.chip.hashLen ∧
    Readable Config.chip (wit shortest 0) (dstAddr (wit shortest 0)) (lenArg (wit shortest 0)) ∧
    Disjoint (digAddr (wit shortest 0)) Config.chip.hashLen (dstAddr (wit shortest 0)) (lenArg (wit shortest 0)) ∧
    (∃ t, exec (.pkcs1Encode 0) (wit shortest 0) = .next t) ∧
    dstAddr (wit shortest 0) < dstAddr (wit shortest 0) + lenArg (wit shortest 0) ∧
    digAddr (wit shortest 0) ≤ digAddr (wit shortest 0) + Config.chip.hashLen - 1 ∧
    digAddr (wit shortest 0) + Config.chip.hashLen - 1 < digAddr (wit shortest 0) + Config.chip.hashLen := by
  have hl : lenArg (wit shortest 0) = Config.chip.diLen + 11 := shortest_toNat
  have hd := diLen_le
  have hh := Config.chip.hashLen_pos
  have hh' := hashLen_le
  obtain ⟨h1, h2, h3, h4, h5, h6⟩ := witness_EncodeWritesPad
  refine ⟨h1, h2, h3, h4, h5, h6, ?_, ⟨_, rfl⟩, ?_, ?_, ?_⟩
  · rw [Disjoint, digAddr_wit, dstAddr_wit]; omega
  · rw [hl]; omega
  all_goals generalize digAddr (wit shortest 0) = a; omega

/-! #### Bus errors -/

/-- `s` under another memory map. -/
def withRam (s : State) (ram : List Region) : State := { s with ram := ram }

/-- A range of the megabyte is backed where a region holds it. -/
theorem backed_region {off n : Nat} {ram : List Region} (h : off + n ≤ 2 ^ 20)
    (hr : ∃ r ∈ ram, r.1 ≤ clearBase + off ∧ clearBase + off + n ≤ r.1 + r.2) :
    allBacked Config.chip ram (clearBase + off) n = true := by
  have hc := clearBase_cases
  obtain ⟨r, hm, h1, h2⟩ := hr
  rw [allBacked_iff]
  intro i hi
  have hok : memOk ram (clearBase + off + i) = true := by
    simp only [memOk, inRegions, List.any_eq_true]
    exact ⟨r, hm, by simp; omega⟩
  simp [backed, hok, inWindow]
  omega

/-- A range is not backed where no region holds its byte `k`. -/
theorem not_backed_region {a n k : Nat} {ram : List Region} (h : k < n)
    (hr : ∀ r ∈ ram, a + k < r.1 ∨ r.1 + r.2 ≤ a + k) : ¬ allBacked Config.chip ram a n = true := by
  intro hb
  have := allBacked_iff.mp hb k h
  have hok : memOk ram (a + k) = true := by
    simp only [backed, Bool.and_eq_true] at this
    exact this.1.2
  simp only [memOk, inRegions, List.any_eq_true] at hok
  obtain ⟨r, hm, hk⟩ := hok
  have := hr r hm
  simp at hk
  omega

theorem key_fits (l m : Word) (ram : List Region) :
    keyAddr (withRam (wit l m) ram) + Config.chip.keyBytes ≤ 2 ^ 32 ∧ ivAddr (withRam (wit l m) ram) + 8 ≤ 2 ^ 32 := by
  have h1 : keyAddr (withRam (wit l m) ram) = clearBase + 0x1000 := at_place rfl (by omega)
  have h2 : ivAddr (withRam (wit l m) ram) = clearBase + 0xC00 := at_place rfl (by omega)
  have := clearBase_cases
  have := keyBytes_le
  omega

/-- No memory at all; and a key that is there, with an IV that is not. -/
theorem witness_InitBusError :
    0 < Config.chip.numCtx ∧ (slotAt Config.chip (wit 0 1) 0).state ≠ .initialized ∧
    (wit 0 1).lat.key ≠ 0 ∧ (wit 0 1).lat.iv ≠ 0 ∧ (wit 0 1).lat.mode = 1 ∧
    (∀ ram, keyAddr (withRam (wit 0 1) ram) + Config.chip.keyBytes ≤ 2 ^ 32 ∧
      ivAddr (withRam (wit 0 1) ram) + 8 ≤ 2 ^ 32) ∧
    ¬ Backed Config.chip (withRam (wit 0 1) []) (keyAddr (withRam (wit 0 1) [])) Config.chip.keyBytes ∧
    Backed Config.chip (withRam (wit 0 1) [(clearBase + 0x1000, Config.chip.keyBytes)]) (clearBase + 0x1000) Config.chip.keyBytes ∧
    ¬ Backed Config.chip (withRam (wit 0 1) [(clearBase + 0x1000, Config.chip.keyBytes)]) (clearBase + 0xC00) 8 := by
  refine ⟨slot0, ?_, (key_iv_set 0 1).1, (key_iv_set 0 1).2, rfl, key_fits 0 1, ?_, ?_, ?_⟩
  · rw [wit_slot]; decide
  · exact not_backed_region (k := 0) Config.chip.keyBytes_pos (by simp [withRam])
  · exact backed_region (by have := keyBytes_le; omega)
      ⟨_, List.mem_cons_self, by simp, by simp⟩
  · exact not_backed_region (k := 0) (by omega) (by simp [withRam])

/-- Two blocks: the input's second block missing, and the output's second block cut in its middle. -/
def cutSource : State := withRam (witLive 16 false) [(clearBase + 0x800, 8), (clearBase + 0x400, 16)]
def cutOutput : State := withRam (witLive 16 false) [(clearBase + 0x800, 16), (clearBase + 0x400, 12)]

theorem cut_addr (ram : List Region) :
    srcAddr (withRam (witLive 16 false) ram) = clearBase + 0x800 ∧
    dstAddr (withRam (witLive 16 false) ram) = clearBase + 0x400 ∧
    lenArg (withRam (witLive 16 false) ram) = 16 :=
  ⟨at_place rfl (by omega), at_place rfl (by omega), rfl⟩

theorem witness_CoreBusError :
    0 < Config.chip.numCtx ∧ (∀ s ∈ [cutSource, cutOutput],
      (slotAt Config.chip s 0).state = .initialized ∧ s.lat.src ≠ 0 ∧ s.lat.dst ≠ 0 ∧ lenArg s ≠ 0 ∧
      lenArg s % 8 = 0 ∧ srcAddr s + lenArg s ≤ 2 ^ 32 ∧ dstAddr s + lenArg s ≤ 2 ^ 32 ∧ Quiet s ∧
      1 < lenArg s / 8 ∧ Plain s (srcAddr s) (8 * 1 + 8) ∧ Readable Config.chip s (srcAddr s) (8 * 1) ∧ Readable Config.chip s (dstAddr s) (8 * 1) ∧
      DisjointOrSame (srcAddr s) (dstAddr s) (lenArg s)) ∧
    ¬ Backed Config.chip cutSource (srcAddr cutSource + 8 * 1) 8 ∧
    Readable Config.chip cutOutput (srcAddr cutOutput + 8 * 1) 8 ∧
    ¬ Backed Config.chip cutOutput (dstAddr cutOutput + 8 * 1) 8 := by
  have hc := clearBase_cases
  refine ⟨slot0, fun s hs => ?_, ?_, ?_, ?_⟩
  · obtain ⟨ram, rfl, hr⟩ : ∃ ram, s = withRam (witLive 16 false) ram ∧
        (ram = [(clearBase + 0x800, 8), (clearBase + 0x400, 16)] ∨
          ram = [(clearBase + 0x800, 16), (clearBase + 0x400, 12)]) := by
      simp only [List.mem_cons, List.not_mem_nil, or_false] at hs
      rcases hs with rfl | rfl
      · exact ⟨_, rfl, .inl rfl⟩
      · exact ⟨_, rfl, .inr rfl⟩
    obtain ⟨h1, h2, h3⟩ := cut_addr ram
    rw [h1, h2, h3]
    refine ⟨rfl, set_place rfl (by omega), set_place rfl (by omega), by omega, by omega, by omega, by omega, ⟨rfl, rfl⟩,
      by omega, plain_none rfl _ _, ?_, ?_, by omega⟩
    · refine ⟨backed_region (by omega) ?_, plain_none rfl _ _⟩
      rcases hr with rfl | rfl
      all_goals exact ⟨_, List.mem_cons_self, by simp, by simp⟩
    · refine ⟨backed_region (by omega) ?_, plain_none rfl _ _⟩
      rcases hr with rfl | rfl
      all_goals exact ⟨_, List.mem_cons_of_mem _ List.mem_cons_self, by simp, by simp⟩
  · rw [cutSource, (cut_addr _).1]
    exact not_backed_region (k := 0) (by omega) (by simp [withRam])
  · rw [cutOutput, (cut_addr _).1]
    exact ⟨backed_region (off := 0x808) (by omega) ⟨_, List.mem_cons_self, by simp, by simp⟩, plain_none rfl _ _⟩
  · rw [cutOutput, (cut_addr _).2.1]
    exact not_backed_region (k := 4) (by omega) (by simp [withRam])

/-- OFB_ONESHOT of two blocks, key and IV there, under the same two cuts (V-ONE-9 of 95_test_vectors.md cuts its input). -/
def cutOneshot (ram : List Region) : State :=
  withRam (wit 16 1) (ram ++ [(clearBase + 0x1000, Config.chip.keyBytes), (clearBase + 0xC00, 8)])

theorem witness_CoreBusError_oneshot :
    (∀ ram ∈ [[(clearBase + 0x800, 8), (clearBase + 0x400, 16)], [(clearBase + 0x800, 16), (clearBase + 0x400, 12)]],
      (cutOneshot ram).lat.key ≠ 0 ∧ (cutOneshot ram).lat.iv ≠ 0 ∧ (cutOneshot ram).lat.mode = 1 ∧
      (cutOneshot ram).lat.src ≠ 0 ∧ (cutOneshot ram).lat.dst ≠ 0 ∧ lenArg (cutOneshot ram) = 16 ∧
      srcAddr (cutOneshot ram) + 16 ≤ 2 ^ 32 ∧ dstAddr (cutOneshot ram) + 16 ≤ 2 ^ 32 ∧ Quiet (cutOneshot ram) ∧
      Readable Config.chip (cutOneshot ram) (keyAddr (cutOneshot ram)) Config.chip.keyBytes ∧
      Readable Config.chip (cutOneshot ram) (ivAddr (cutOneshot ram)) 8 ∧
      Plain (cutOneshot ram) (srcAddr (cutOneshot ram)) (8 * 1 + 8) ∧
      Readable Config.chip (cutOneshot ram) (srcAddr (cutOneshot ram)) (8 * 1) ∧
      Readable Config.chip (cutOneshot ram) (dstAddr (cutOneshot ram)) (8 * 1) ∧
      (¬ Backed Config.chip (cutOneshot ram) (srcAddr (cutOneshot ram) + 8 * 1) 8 ∨
        ¬ Backed Config.chip (cutOneshot ram) (dstAddr (cutOneshot ram) + 8 * 1) 8) ∧
      DisjointOrSame (srcAddr (cutOneshot ram)) (dstAddr (cutOneshot ram)) 16) := by
  have hc := clearBase_cases
  intro ram hr
  have h1 : srcAddr (cutOneshot ram) = clearBase + 0x800 := at_place rfl (by omega)
  have h2 : dstAddr (cutOneshot ram) = clearBase + 0x400 := at_place rfl (by omega)
  have h3 : keyAddr (cutOneshot ram) = clearBase + 0x1000 := at_place rfl (by omega)
  have h4 : ivAddr (cutOneshot ram) = clearBase + 0xC00 := at_place rfl (by omega)
  rw [h1, h2, h3, h4]
  clear h1 h2 h3 h4
  refine ⟨set_place rfl (by omega), set_place rfl (by omega), rfl, set_place rfl (by omega), set_place rfl (by omega), rfl,
    by omega, by omega, ⟨rfl, rfl⟩, ?_, ?_, plain_none rfl _ _, ?_, ?_, ?_, by omega⟩
  · exact ⟨backed_region (by have := keyBytes_le; omega) ⟨(clearBase + 0x1000, Config.chip.keyBytes),
      List.mem_append_right _ List.mem_cons_self, by simp, by simp⟩, plain_none rfl _ _⟩
  · exact ⟨backed_region (by omega) ⟨(clearBase + 0xC00, 8),
      List.mem_append_right _ (List.mem_cons_of_mem _ List.mem_cons_self), by simp, by simp⟩, plain_none rfl _ _⟩
  · simp only [List.mem_cons, List.not_mem_nil, or_false] at hr
    rcases hr with rfl | rfl
    all_goals exact ⟨backed_region (by omega) ⟨_, List.mem_cons_self, by simp, by simp⟩, plain_none rfl _ _⟩
  · simp only [List.mem_cons, List.not_mem_nil, or_false] at hr
    rcases hr with rfl | rfl
    all_goals exact ⟨backed_region (by omega) ⟨_, List.mem_cons_of_mem _ List.mem_cons_self, by simp, by simp⟩, plain_none rfl _ _⟩
  · simp only [List.mem_cons, List.not_mem_nil, or_false] at hr
    rcases hr with rfl | rfl
    · left
      exact not_backed_region (k := 0) (by omega) (by simp [cutOneshot, withRam])
    · right
      exact not_backed_region (k := 4) (by omega) (by simp [cutOneshot, withRam])

theorem small_fits {off n : Nat} (h : off + n ≤ 2 ^ 20) : clearBase + off + n ≤ 2 ^ 32 := by
  have := clearBase_cases
  omega

/-- Only the first byte of the output is there. -/
def cutEncode : State := withRam (wit shortest 0) [(clearBase + 0x100, 0x100), (clearBase + 0x400, 1)]

theorem witness_EncodeBusError :
    cutEncode.lat.dig ≠ 0 ∧ cutEncode.lat.dst ≠ 0 ∧ Config.chip.diLen + 11 ≤ lenArg cutEncode ∧
    digAddr cutEncode + Config.chip.hashLen ≤ 2 ^ 32 ∧ dstAddr cutEncode + lenArg cutEncode ≤ 2 ^ 32 ∧
    Quiet cutEncode ∧ 1 < lenArg cutEncode ∧ Readable Config.chip cutEncode (digAddr cutEncode) Config.chip.hashLen ∧
    Readable Config.chip cutEncode (dstAddr cutEncode) 1 ∧
    ¬ Backed Config.chip cutEncode (dstAddr cutEncode + 1) 1 := by
  have hl : lenArg cutEncode = Config.chip.diLen + 11 := shortest_toNat
  have h1 : digAddr cutEncode = clearBase + 0x100 := at_place rfl (by omega)
  have h2 : dstAddr cutEncode = clearBase + 0x400 := at_place rfl (by omega)
  have hd := diLen_le
  have hh := hashLen_le
  have hc := clearBase_cases
  rw [hl, h1, h2]
  clear hl h1 h2
  refine ⟨set_place rfl (by omega), set_place rfl (by omega), le_refl _, small_fits (by omega), small_fits (by omega),
    ⟨rfl, rfl⟩, by omega, ?_, ?_, ?_⟩
  · exact ⟨backed_region (by omega) ⟨_, List.mem_cons_self, by simp, by simp; omega⟩, plain_none rfl _ _⟩
  · exact ⟨backed_region (by omega) ⟨_, List.mem_cons_of_mem _ List.mem_cons_self, by simp, by simp⟩, plain_none rfl _ _⟩
  · exact not_backed_region (k := 0) (by omega) (by simp [cutEncode, withRam])

/-! #### One-shot and sequence, both run to Ok -/

/-- One block, by OFB_ONESHOT and by the sequence on slot 0, in the plain situation. -/
theorem both_run {s : State} (hst : (slotAt Config.chip s 0).state = .uninit) (hk0 : s.lat.key ≠ 0)
    (hi0 : s.lat.iv ≠ 0) (hm : s.lat.mode = 1 ∨ s.lat.mode = 2) (hs0 : s.lat.src ≠ 0) (hd0 : s.lat.dst ≠ 0)
    (hl : lenArg s = 8) (hf : s.faults = 0) (hq : Quiet s)
    (hk : Readable Config.chip s (keyAddr s) Config.chip.keyBytes) (hi : Readable Config.chip s (ivAddr s) 8)
    (hs : Readable Config.chip s (srcAddr s) (lenArg s)) (hd : Backed Config.chip s (dstAddr s) (lenArg s)) :
    (∃ t, exec (.ofbOneshot 0) s = .next t ∧ t.faults.getLsbD 3 = false ∧ t.code = .ok) ∧
    ∃ u, thenIfOk (exec (.ofbInit 0) s)
        (fun s1 => thenIfOk (exec (.ofbCore 0) s1) (exec (.ofbFinish 0))) = .next u ∧
      u.faults.getLsbD 3 = false ∧ u.code = .ok := by
  have f1 := allBacked_le hs.1 (by omega)
  have f2 := allBacked_le hd (by omega)
  have f3 := allBacked_le hk.1 Config.chip.keyBytes_pos
  have f4 := allBacked_le hi.1 (by omega)
  have h0 : ¬ Config.chip.numCtx ≤ 0 := by have := slot0; omega
  have hone : oneshotCheck Config.chip s = .pass := by
    rw [oneshotCheck_eq, if_neg (by tauto), if_neg (by tauto), if_neg (by omega), if_neg hs0, if_neg hd0,
      if_neg (by omega), if_neg (by omega)]
  have hinit : initCheck Config.chip 0 s = .pass := by
    rw [initCheck_eq, if_neg h0, if_neg (by simp [hst]), if_neg (by tauto), if_neg (by tauto), if_neg (by omega)]
  have hread : readKeyIv Config.chip s =
      some (memString s.mem (keyAddr s) Config.chip.keyBytes, memBlock s.mem (ivAddr s), s) := by
    rw [readKeyIv, readBytes_quiet hq hk]
    simp only []
    rw [readBlock_quiet hq hi]
  have hn : ∀ u : State, u.lat = s.lat → blockCount u = 1 := by
    intro u hu
    have : lenArg u = 8 := (congrArg (fun l => l.len.toNat) hu).trans hl
    simp [blockCount, this]
  rw [hl] at hs hd
  constructor
  · refine ⟨_, rfl, ?_⟩
    simp only [ofbOneshot, hone, guarded, oneshotRun, oneshotBind, hread, andThen, oneshotFrom]
    rw [hn (setScratch s ⟨memString s.mem (keyAddr s) Config.chip.keyBytes, memBlock s.mem (ivAddr s)⟩) rfl,
      oneshotLoop_quiet (by exact hq) (by exact hs) (by exact hd)]
    exact ⟨by simp [oneshotDone, hf], rfl⟩
  · have h1 : exec (.ofbInit 0) s = .next (complete (setSlot s 0
        { state := .initialized, mode := (directionOf s.lat.mode).getD .encrypt
          key := memString s.mem (keyAddr s) Config.chip.keyBytes, fb := memBlock s.mem (ivAddr s) }) .ok) := by
      simp only [exec, execOfbInit, ofbInit, hinit, guarded, initBind, hread]
    rw [h1]
    simp only [thenIfOk, complete_code, if_true]
    generalize hv : ({ state := .initialized, mode := (directionOf s.lat.mode).getD .encrypt
                       key := memString s.mem (keyAddr s) Config.chip.keyBytes
                       fb := memBlock s.mem (ivAddr s) } : Slot) = v
    have hv' : v.state = .initialized := by rw [← hv]
    have hs1 : slotAt Config.chip (complete (setSlot s 0 v) .ok) 0 = v := slotAt_setSlot_same _ _ _ (by omega)
    have hcore : coreCheck Config.chip 0 (complete (setSlot s 0 v) .ok) = .pass := by
      rw [coreCheck_eq, if_neg h0, if_neg (by rw [hs1, hv']; simp)]
      refine (if_neg hs0).trans ((if_neg hd0).trans ?_)
      have e1 : lenArg (complete (setSlot s 0 v) .ok) = lenArg s := rfl
      have e2 : srcAddr (complete (setSlot s 0 v) .ok) = srcAddr s := rfl
      have e3 : dstAddr (complete (setSlot s 0 v) .ok) = dstAddr s := rfl
      rw [e1, e2, e3, if_neg (by omega), if_neg (by omega)]
    have h2 : ∃ b w, w.state = .initialized ∧ b.faults = 0 ∧
        exec (.ofbCore 0) (complete (setSlot s 0 v) .ok) = .next (complete (setSlot b 0 w) .ok) := by
      simp only [exec, execOfbCore, ofbCore, hcore, guarded, coreFrom]
      rw [hn (complete (setSlot s 0 v) .ok) rfl, coreLoop_quiet (by omega) ⟨rfl, rfl⟩ (by exact hs) (by exact hd)]
      refine ⟨_, _, ?_, ?_, rfl⟩
      · rw [hs1]; exact hv'
      · exact hf
    obtain ⟨b, w, hw, hb, h2⟩ := h2
    rw [h2]
    simp only [complete_code, if_true]
    have hs2 : slotAt Config.chip (complete (setSlot b 0 w) .ok) 0 = w := slotAt_setSlot_same _ _ _ (by omega)
    have hfin : finishCheck Config.chip 0 (complete (setSlot b 0 w) .ok) = .pass := by
      rw [finishCheck, if_neg h0, if_neg (by rw [hs2, hw]; simp)]
    refine ⟨_, rfl, ?_⟩
    simp only [ofbFinish, hfin, guarded]
    exact ⟨by simp [finishZeroize, hb], rfl⟩

theorem witness_OneshotEqualsSequence :
    0 < Config.chip.numCtx ∧ (slotAt Config.chip (wit 8 1) 0).state = .uninit ∧ Quiet (wit 8 1) ∧
    (wit 8 1).faults = 0 ∧ Plain (wit 8 1) (keyAddr (wit 8 1)) Config.chip.keyBytes ∧
    Plain (wit 8 1) (ivAddr (wit 8 1)) 8 ∧ Plain (wit 8 1) (srcAddr (wit 8 1)) (lenArg (wit 8 1)) ∧
    (∃ t, exec (.ofbOneshot 0) (wit 8 1) = .next t ∧ t.faults.getLsbD 3 = false ∧ t.code = .ok) ∧
    ∃ u, thenIfOk (exec (.ofbInit 0) (wit 8 1))
        (fun s1 => thenIfOk (exec (.ofbCore 0) s1) (exec (.ofbFinish 0))) = .next u ∧
      u.faults.getLsbD 3 = false ∧ u.code = .ok := by
  obtain ⟨hk0, hi0, hm, hs0, hd0, hl0, hl, hq, hk, hi, hs, hd, -⟩ := witness_OneshotRuns
  have hst : (slotAt Config.chip (wit 8 1) 0).state = .uninit := by rw [wit_slot]; rfl
  refine ⟨slot0, hst, hq, rfl, hk.2, hi.2, hs.2, ?_⟩
  have hl8 : lenArg (wit 8 1) = 8 := rfl
  have hf : (wit 8 1).faults = 0 := rfl
  revert hk0 hi0 hm hs0 hd0 hl0 hl hq hk hi hs hd hst hl8 hf
  generalize wit 8 1 = s
  intro hk0 hi0 hm hs0 hd0 hl0 hl hq hk hi hs hd hst hl8 hf
  exact both_run hst hk0 hi0 hm hs0 hd0 hl8 hf hq hk hi hs hd.1

/-! #### Reset, power, races -/

/-- A state with a command accepted, and one event to come. -/
def onEvents (s : State) (es : List Event) : State := { s with env := es }

/-- In the middle of OFB_CORE's first block, and between commands. -/
theorem witness_ResetAtAnyMoment :
    (onEvents (wit 0 0) [.reset]).env = .reset :: [] ∧ writeInProgress (onEvents (wit 0 0) [.reset]) = none ∧
    (onEvents (setProgress (witLive 8 false) (.core 0 0)) [.reset]).env = .reset :: [] ∧
    writeInProgress (onEvents (setProgress (witLive 8 false) (.core 0 0)) [.reset]) =
      some (dstAddr (witLive 8 false) + 8 * 0, 8) := ⟨rfl, rfl, rfl, rfl⟩

/-- The machine without power. -/
def witOff : State := { wit 0 0 with powered := false }

theorem witness_NoStepBeforeReset :
    (onEvents (wit 0 0) [.powerLoss]).powered = true ∧
    (onEvents (wit 0 0) [.powerLoss]).env = .powerLoss :: [] ∧ witOff.powered = false ∧ witOff.env = [] ∧
    (onEvents witOff [.run]).env = .run :: [] ∧ Event.run ≠ .reset ∧ Event.run ≠ .powerLoss ∧
    (onEvents witOff [.reset]).env = .reset :: [] := by
  refine ⟨rfl, rfl, rfl, rfl, rfl, ?_, ?_, rfl⟩ <;> decide

/-- OFB_CORE on slot 0 accepted, with the operands of `witLive`. -/
def witBusy : State := { witLive 8 false with busy := true, progress := .accepted, cmd := 0x00000002 }

theorem witBusy_output : inOutput witBusy (clearBase + 0x400) = true := by
  have h : dstAddr witBusy = clearBase + 0x400 := at_place rfl (by omega)
  have hl : lenArg witBusy = 8 := rfl
  rw [inOutput, show decode witBusy.cmd = .command (.ofbCore 0) by decide]
  simp [outputBuffers, inBuffer, h, hl]

/-- The first byte of the output buffer. -/
theorem witness_RacesGiveOldOrNew :
    witBusy.busy = true ∧ inSomeBuffer Config.chip witBusy (clearBase + 0x400) = true ∧ witBusy.raced = [] ∧
    backed Config.chip witBusy.ram (clearBase + 0x400) = true ∧ inOutput witBusy (clearBase + 0x400) = true ∧
    (∀ a, hasReadEffect witBusy.volatile a = false) ∧ hasReadEffect [(0x400, 1)] 0x400 = true := by
  have h : dstAddr witBusy = clearBase + 0x400 := at_place rfl (by omega)
  have hl : lenArg witBusy = 8 := rfl
  refine ⟨rfl, ?_, rfl, ?_, witBusy_output, fun _ => rfl, by decide⟩
  · rw [inSomeBuffer, show decode witBusy.cmd = .command (.ofbCore 0) by decide]
    simp [outputBuffers, inBuffer, h, hl]
  · exact allBacked_iff.mp (backed_place (off := 0x400) (n := 1) (by omega) _ rfl) 0 (by omega)

/-- A host that writes a byte far from the buffers, and reads one. -/
theorem witness_DutyKeepsQuiet :
    (onEvents witBusy [.host (.memWrite 0 1#8)]).powered = true ∧
    (onEvents witBusy [.host (.memWrite 0 1#8)]).env = .host (.memWrite 0 1#8) :: [] ∧
    DutyBuffers Config.chip (.host (.memWrite 0 1#8)) (onEvents witBusy [.host (.memWrite 0 1#8)]) ∧
    Quiet (onEvents witBusy [.host (.memWrite 0 1#8)]) ∧ (∀ n, Event.host (.memWrite 0 1#8) ≠ .busError n) ∧
    (∃ t, step (onEvents witBusy [.host (.memWrite 0 1#8)]) = .next t) ∧
    (onEvents witBusy []).powered = true ∧ (onEvents witBusy []).env = [] ∧ Quiet (onEvents witBusy []) ∧
    ∃ t, step (onEvents witBusy []) = .next t := by
  have h1 : dstAddr (onEvents witBusy [.host (.memWrite 0 1#8)]) = clearBase + 0x400 := at_place rfl (by omega)
  have h2 : srcAddr (onEvents witBusy [.host (.memWrite 0 1#8)]) = clearBase + 0x800 := at_place rfl (by omega)
  refine ⟨rfl, rfl, fun _ => ⟨fun a b e => ?_, fun a e => ?_⟩, ⟨rfl, rfl⟩, fun n h => (by cases h), ⟨_, step_host rfl rfl⟩,
    rfl, rfl, ⟨rfl, rfl⟩, _, rfl⟩
  · cases e
    rw [inSomeBuffer, show decode (onEvents witBusy _).cmd = .command (.ofbCore 0) by decide]
    simp [inputBuffers, outputBuffers, inBuffer, h1, h2]
  · cases e

theorem witness_FaultsSticky :
    (∃ t, step { wit 0 0 with faults := 0b0101 } = .next t) ∧
    ∀ rest, { wit 0 0 with faults := 0b0101 }.env ≠ .reset :: rest := by
  refine ⟨⟨_, rfl⟩, fun rest => ?_⟩
  show [] ≠ _
  simp

theorem witness_OperandWritesDuringCommand :
    RegName.len ∈ [RegName.dst, .src, .len, .key, .iv, .mode, .dig] ∧ witBusy.progress = .accepted :=
  ⟨by decide, rfl⟩

theorem witness_MovesReachMeaning :
    witBusy.progress = .accepted ∧ decode witBusy.cmd = .command (.ofbCore 0) ∧
    ∃ t, exec (.ofbCore 0) witBusy = .next t := by
  refine ⟨rfl, ?_, _, rfl⟩
  decide

theorem witness_VerifyMovesFixed :
    (setProgress (wit shortest 0) .verifyDigest).progress = .verifyDigest ∧
    Quiet (setProgress (wit shortest 0) .verifyDigest) ∧
    Readable Config.chip (setProgress (wit shortest 0) .verifyDigest) (srcAddr (wit shortest 0))
      (lenArg (wit shortest 0)) ∧
    Readable Config.chip (setProgress (wit shortest 0) .verifyDigest) (digAddr (wit shortest 0)) Config.chip.hashLen ∧
    0 ≤ lenArg (wit shortest 0) ∧ lenArg (wit shortest 0) ≤ lenArg (wit shortest 0) := by
  obtain ⟨-, -, -, -, h5, h6⟩ := witness_VerifyDecides
  exact ⟨rfl, ⟨rfl, rfl⟩, h5, h6, Nat.zero_le _, le_refl _⟩

/-- With a command accepted. -/
theorem witness_StepKeepsInvariant :
    Inv Config.chip (accept (wit 8 1) 0x202) ∧ ∃ t, step (accept (wit 8 1) 0x202) = .next t := by
  refine ⟨⟨memWf_nil, fun _ => ?_⟩, _, rfl⟩
  have hs : ∀ c, slotAt Config.chip (accept (wit 8 1) 0x202) c = emptySlot Config.chip := wit_slot 8 1
  exact
    { busy_iff := by simp [accept], not_both := by simp [accept], code_busy := fun _ => rfl
      key_length := fun c _ => by rw [hs]; simp [emptySlot, zeros]
      dead_zero := fun c _ _ => by rw [hs]; exact ⟨rfl, rfl, rfl⟩
      no_storage := fun c _ _ => hs c
      scratch_zero := fun _ => rfl
      scratch_length := by simp [accept, wit, resetFor, zeroScratch, zeros]
      dbuf_length := by simp [accept, wit, resetFor, zeros]
      position := trivial }

end Sys2Proof.Tests
end

section
/-! SUPPORT. Phases, loops, checks and steps: what each leaves alone, what its success says, and how a property goes
through it. -/

namespace Sys2Proof.Machine

variable {P : Params} {s t : State}

/-- The status registers of a command in progress (R27). -/
def Running (s : State) : Prop := s.busy = true ∧ s.done = false ∧ s.code = .ok

/-! ### What a phase leaves alone -/

theorem SameControl.lat (h : SameControl s t) : t.lat = s.lat := by rw [h]

theorem SameControl.blockCount (h : SameControl s t) : blockCount t = blockCount s := by
  rw [Machine.blockCount, Machine.blockCount, lenArg, lenArg, h.lat]

theorem SameControl.lenArg (h : SameControl s t) : lenArg t = lenArg s := by
  rw [Machine.lenArg, Machine.lenArg, h.lat]

theorem SameControl.le_lenArg {n : Nat} (h : SameControl s t) (hn : n ≤ Machine.lenArg s) :
    n ≤ Machine.lenArg t := by
  rwa [h.lenArg]

theorem SameControl.le_blockCount {n : Nat} (h : SameControl s t) (hn : n ≤ Machine.blockCount s) :
    n ≤ Machine.blockCount t := by
  rwa [h.blockCount]

theorem SameControl.running (h : SameControl s t) (hr : Running s) : Running t := by
  rw [h]
  exact hr

theorem sameControl_coreBody (P : Params) (c j : Nat) (s : State) : SameControl s (outState (coreBody P c j s)) := by
  unfold SameControl
  rw [(coreBody_frame P c j s).1]

theorem sameControl_oneshotBody (P : Params) (j : Nat) (s : State) :
    SameControl s (outState (oneshotBody P j s)) := by
  unfold SameControl
  rw [(oneshotBody_frame P j s).1]

theorem sameControl_encodeBody (P : Params) (i : Nat) (s : State) :
    SameControl s (outState (encodeBody P i s)) := by
  unfold SameControl
  rw [(encodeBody_frame P i s).1]

theorem sameControl_verifyBody (P : Params) (i : Nat) (s : State) :
    SameControl s (outState (verifyBody P i s)) := by
  unfold SameControl
  rw [verifyBody_frame P i s]

theorem sameControl_captureDigest (P : Params) (s : State) : SameControl s (outState (captureDigest P s)) := by
  unfold SameControl
  rw [(captureDigest_frame P s).1]

theorem sameControl_verifyCapture (P : Params) (s : State) : SameControl s (outState (verifyCapture P s)) := by
  unfold SameControl
  rw [(verifyCapture_frame P s).1]

theorem sameControl_oneshotBind (P : Params) (s : State) : SameControl s (outState (oneshotBind P s)) := by
  rcases oneshotBind_frame P s with h | ⟨sc, b, f, -, h⟩ <;> rw [h] <;> rfl

theorem coreBody_scratch (P : Params) (c j : Nat) (s : State) :
    (outState (coreBody P c j s)).scratch = s.scratch := by
  rw [(coreBody_frame P c j s).1]

theorem encodeBody_scratch (P : Params) (i : Nat) (s : State) :
    (outState (encodeBody P i s)).scratch = s.scratch := by
  rw [(encodeBody_frame P i s).1]

theorem verifyBody_scratch (P : Params) (i : Nat) (s : State) :
    (outState (verifyBody P i s)).scratch = s.scratch := by
  rw [verifyBody_frame P i s]

theorem captureDigest_scratch (P : Params) (s : State) :
    (outState (captureDigest P s)).scratch = s.scratch := by
  rw [(captureDigest_frame P s).1]

theorem verifyCapture_scratch (P : Params) (s : State) :
    (outState (verifyCapture P s)).scratch = s.scratch := by
  rw [(verifyCapture_frame P s).1]

/-! ### Phases and loops -/

/-- A property that a command's verdict brings about: by each completion and fault that its checks give, and by its
body past them. -/
theorem guarded_keeps {Q : State → Prop} {v : Verdict} {body : State → State} (hreject : ∀ k, Q (complete s k))
    (hfault : ∀ n, Q (raiseCmdFault s n)) (hpass : v = .pass → Q (body s)) : Q (guarded v body s) := by
  cases v with
  | reject k => exact hreject k
  | fault n => exact hfault n
  | pass => exact hpass rfl

/-- A phase that keeps `I`, and what follows it. -/
theorem andThen_of_keeps {Q : State → Prop} (I : State → Prop) {r : Except State State} {fail next : State → State}
    (hI : I (outState r)) (hfail : ∀ e, I e → Q (fail e)) (hnext : ∀ e, I e → Q (next e)) :
    Q (andThen r fail next) := by
  rcases andThen_outState r fail next with h | h <;> rw [h]
  · exact hfail _ hI
  · exact hnext _ hI

/-- One move of a loop whose body keeps `I`. -/
theorem loopMove_of_keeps {Q : State → Prop} (I : State → Prop) {body : Nat → State → Except State State} {n j : Nat}
    {at' : Nat → Progress} {fail done : State → State} (hI : I (outState (body j s))) (hfail : ∀ e, I e → Q (fail e))
    (hnext : j < n → ∀ e, I e → Q (setProgress e (at' (j + 1)))) (hdone : Q (done s)) :
    Q (loopMove body n j at' fail done s) := by
  unfold loopMove
  split
  · rename_i hj
    exact andThen_of_keeps I hI hfail (hnext hj)
  · exact hdone

/-! ### The checks of the commands on a slot -/

theorem initCheck_pass {c : Nat} (h : initCheck P c s = .pass) :
    c < P.numCtx ∧ (slotAt P s c).state ≠ .initialized := by
  rw [initCheck_eq] at h
  split_ifs at h
  · exact ⟨by omega, by assumption⟩

theorem coreCheck_pass {c : Nat} (h : coreCheck P c s = .pass) :
    c < P.numCtx ∧ (slotAt P s c).state = .initialized := by
  rw [coreCheck_eq] at h
  split_ifs at h
  · exact ⟨by omega, not_not.mp ‹_›⟩

theorem finishCheck_pass {c : Nat} (h : finishCheck P c s = .pass) :
    c < P.numCtx ∧ (slotAt P s c).state ≠ .finished := by
  unfold finishCheck at h
  split_ifs at h
  · exact ⟨by omega, by assumption⟩

/-! ### What a step can be -/

/-- Everything a step that answers can be: the engine's run with no event pending, an event of a powered block, or
one of an unpowered block. -/
theorem step_cases (h : step s = .next t) :
    (s.env = [] ∧ s.powered = true ∧ engineRun Config.chip exec s = .next t) ∨
    (∃ e rest, s.env = e :: rest ∧ s.powered = true ∧ onEvent Config.chip exec e { s with env := rest } = .next t) ∨
    ∃ e rest, s.env = e :: rest ∧ s.powered = false ∧
      onEventUnpowered Config.chip e { s with env := rest } = .next t := by
  unfold step move at h
  split at h
  · rename_i henv
    split at h
    · rename_i hp
      exact .inl ⟨henv, hp, h⟩
    · cases h
  · rename_i e rest henv
    split at h
    · rename_i hp
      exact .inr (.inl ⟨e, rest, henv, hp, h⟩)
    · rename_i hp
      exact .inr (.inr ⟨e, rest, henv, by simpa using hp, h⟩)

end Sys2Proof.Machine
end

section
/-! SUPPORT. The machine's invariant: what the block's storage may hold, and that every phase, command, move, host
access and reset keeps it (O59, O60). -/

namespace Sys2Proof.Machine

variable {P : Params} {s t : State}

/-! ### What the storage may hold -/

/-- What the slot at position `c` may hold (R33, R35, R44, R89). -/
structure SlotOk (P : Params) (c : Nat) (v : Slot) : Prop where
  key_length : v.key.length = P.keyBytes
  dead_zero : v.state ≠ .initialized → v.mode = .encrypt ∧ v.key = zeros P.keyBytes ∧ v.fb = zeroBlock
  no_storage : P.numCtx ≤ c → v = emptySlot P

/-- The part of the invariant that does not speak of the command in progress. -/
structure Storage (P : Params) (s : State) : Prop where
  mem_wf : MemWf s.mem
  slots : ∀ c < 15, SlotOk P c (slotAt P s c)
  dbuf_length : s.dbuf.length = P.hashLen

/-- The invariant of a powered state. -/
structure Sound (P : Params) (s : State) : Prop where
  mem_wf : MemWf s.mem
  block : BlockInv P s

theorem lt_fifteen {c : Nat} (h : c < P.numCtx) : c < 15 := Nat.lt_of_lt_of_le h P.numCtx_le

@[simp] theorem zeros_length (n : Nat) : (zeros n).length = n := by simp [zeros]

theorem slotOk_emptySlot (P : Params) (c : Nat) : SlotOk P c (emptySlot P) where
  key_length := zeros_length _
  dead_zero _ := ⟨rfl, rfl, rfl⟩
  no_storage _ := rfl

/-- A zeroized slot in the state FINISHED, where there is a slot (R89). -/
theorem slotOk_finished {c : Nat} (hc : c < P.numCtx) : SlotOk P c { emptySlot P with state := .finished } where
  key_length := zeros_length _
  dead_zero _ := ⟨rfl, rfl, rfl⟩
  no_storage h := by omega

/-- A live slot needs a key of `KEY_BYTES` bytes only, where there is a slot (R33). -/
theorem slotOk_live {c : Nat} {v : Slot} (hc : c < P.numCtx) (hv : v.state = .initialized)
    (hk : v.key.length = P.keyBytes) : SlotOk P c v where
  key_length := hk
  dead_zero h := absurd hv h
  no_storage h := by omega

/-- Storage is read from data memory, the slot file and the digest buffer. -/
theorem Storage.congr (h : Storage P s) (hm : MemWf t.mem) (hs : t.slots = s.slots)
    (hd : t.dbuf.length = P.hashLen) : Storage P t where
  mem_wf := hm
  slots c hc := slotAt_congr (P := P) hs c ▸ h.slots c hc
  dbuf_length := hd

/-- A slot is written with what it may hold. -/
theorem Storage.setSlot {c : Nat} {v : Slot} (h : Storage P s) (hv : SlotOk P c v) : Storage P (setSlot s c v) where
  mem_wf := h.mem_wf
  slots d hd := by
    by_cases hdc : d = c
    · subst hdc
      rwa [slotAt_setSlot_same P s v hd]
    · rw [slotAt_setSlot_other P s v hdc]
      exact h.slots d hd
  dbuf_length := h.dbuf_length

/-! ### Where the invariant holds -/

theorem Sound.storage (h : Sound P s) : Storage P s where
  mem_wf := h.mem_wf
  slots c hc := ⟨h.block.key_length c hc, h.block.dead_zero c hc, h.block.no_storage c hc⟩
  dbuf_length := h.block.dbuf_length

/-- While the engine is at a position of a command, BUSY is 1, DONE 0 and CODE Ok (R27). -/
theorem Sound.running (h : Sound P s) (hp : s.progress ≠ .idle) : Running s := by
  have hb := h.block.busy_iff.mpr hp
  exact ⟨hb, by simpa [hb] using h.block.not_both, h.block.code_busy hb⟩

/-- The invariant, from the storage and what the command in progress demands. -/
theorem Storage.sound (h : Storage P s) (hbusy : s.busy = true ↔ s.progress ≠ .idle)
    (hstatus : s.busy = true → s.done = false ∧ s.code = .ok)
    (hzero : (∀ j, s.progress ≠ .oneshot j) → s.scratch = zeroScratch P)
    (hlen : s.scratch.key.length = P.keyBytes) (hpos : PositionOk P s) : Sound P s :=
  ⟨h.mem_wf,
    { busy_iff := hbusy
      not_both := fun hn => by simpa [(hstatus hn.1).1] using hn.2
      code_busy := fun hb => (hstatus hb).2
      key_length := fun c hc => (h.slots c hc).key_length
      dead_zero := fun c hc => (h.slots c hc).dead_zero
      no_storage := fun c hc => (h.slots c hc).no_storage
      scratch_zero := hzero
      scratch_length := hlen
      dbuf_length := h.dbuf_length
      position := hpos }⟩

theorem zeroScratch_length (hsc : s.scratch = zeroScratch P) : s.scratch.key.length = P.keyBytes := by
  simp [hsc, zeroScratch]

/-- An idle block is sound where its storage is and its scratch context is zero (R39). -/
theorem sound_of_idle (h : Storage P s) (hb : s.busy = false) (hp : s.progress = .idle)
    (hsc : s.scratch = zeroScratch P) : Sound P s :=
  h.sound (by simp [hb, hp]) (by simp [hb]) (fun _ => hsc) (zeroScratch_length hsc) (by simp [PositionOk, hp])

/-- A running command outside the loop of OFB_ONESHOT moves to a position that it reaches. -/
theorem sound_setProgress {p : Progress} (h : Storage P s) (hr : Running s) (hsc : s.scratch = zeroScratch P)
    (hp : p ≠ .idle) (hpos : PositionOk P (setProgress s p)) : Sound P (setProgress s p) :=
  (h.congr (t := setProgress s p) h.mem_wf rfl h.dbuf_length).sound (by simp [hr.1, hp]) (fun _ => hr.2)
    (fun _ => hsc) (zeroScratch_length hsc) hpos

/-- OFB_ONESHOT moves to a position in its loop (R39). -/
theorem sound_setProgress_oneshot {j : Nat} (h : Storage P s) (hr : Running s)
    (hsc : s.scratch.key.length = P.keyBytes) (hj : j ≤ blockCount s) : Sound P (setProgress s (.oneshot j)) :=
  (h.congr (t := setProgress s (.oneshot j)) h.mem_wf rfl h.dbuf_length).sound (by simp [hr.1]) (fun _ => hr.2)
    (fun hn => absurd rfl (hn j)) hsc hj

/-- The invariant does not read the other fields, and of DONE only that it is not set. -/
theorem Sound.congr (h : Sound P s) (hm : MemWf t.mem) (hdone : t.done = true → s.done = true)
    (hbusy : t.busy = s.busy) (hcode : t.code = s.code) (hlat : t.lat = s.lat) (hslots : t.slots = s.slots)
    (hscratch : t.scratch = s.scratch) (hdbuf : t.dbuf = s.dbuf) (hprog : t.progress = s.progress) :
    Sound P t := by
  have hat : ∀ c, slotAt P t c = slotAt P s c := slotAt_congr hslots
  refine ⟨hm, ?_⟩
  constructor
  case busy_iff => simpa only [hbusy, hprog] using h.block.busy_iff
  case not_both => exact fun hn => h.block.not_both ⟨hbusy ▸ hn.1, hdone hn.2⟩
  case code_busy => simpa only [hbusy, hcode] using h.block.code_busy
  case key_length => simpa only [hat] using h.block.key_length
  case dead_zero => simpa only [hat] using h.block.dead_zero
  case no_storage => simpa only [hat] using h.block.no_storage
  case scratch_zero => simpa only [hprog, hscratch] using h.block.scratch_zero
  case scratch_length => simpa only [hscratch] using h.block.scratch_length
  case dbuf_length => simpa only [hdbuf] using h.block.dbuf_length
  case position =>
    simpa only [PositionOk, blockCount, lenArg, hprog, hlat, hat] using h.block.position

/-- A completion leaves a sound block (R14, R39). -/
theorem sound_complete {k : StatusCode} (h : Storage P s) (hsc : s.scratch = zeroScratch P) :
    Sound P (complete s k) :=
  sound_of_idle (h.congr h.mem_wf rfl h.dbuf_length) rfl rfl hsc

/-- A command fault leaves a sound block (R15, R39). -/
theorem sound_raiseCmdFault {n : FaultCause} (h : Storage P s) (hsc : s.scratch = zeroScratch P) :
    Sound P (raiseCmdFault s n) :=
  sound_of_idle (h.congr h.mem_wf rfl h.dbuf_length) rfl rfl hsc

/-- The reset state is sound (R44). -/
theorem sound_resetFor (P : Params) (ram volatile : List Region) : Sound P (resetFor P ram volatile) :=
  sound_of_idle
    { mem_wf := memWf_nil
      slots := fun c hc => by
        simpa [slotAt, resetFor, hc] using slotOk_emptySlot P c
      dbuf_length := zeros_length _ }
    rfl rfl rfl

/-- A verdict against a command leaves a sound block; past its checks its body has to. -/
theorem sound_guarded {v : Verdict} {body : State → State} (h : Storage P s) (hsc : s.scratch = zeroScratch P)
    (hb : v = .pass → Sound P (body s)) : Sound P (guarded v body s) :=
  guarded_keeps (fun _ => sound_complete h hsc) (fun _ => sound_raiseCmdFault h hsc) hb

/-! ### Data memory keeps its canonical form -/

theorem memWf_writeBlock (P : Params) (a : Nat) (blk : Block) (h : MemWf s.mem) :
    MemWf (outState (writeBlock P s a blk)).mem := by
  rcases writeBlock_cases P s a blk with ⟨hf, hw⟩ | ⟨-, hw⟩ <;> rw [hw]
  · have hle := allBacked_le (allBacked_of_accessFails hf) (by omega)
    exact memWf_memSetBytes h (by simpa using hle)
  · exact memWf_tornWrite P s.ram h _ _ _

theorem memWf_writeByte (P : Params) (a : Nat) (b : Byte) (h : MemWf s.mem) :
    MemWf (outState (writeByte P s a b)).mem := by
  rcases writeByte_cases P s a b with ⟨hf, hw⟩ | ⟨-, hw⟩ <;> rw [hw]
  · have hle := allBacked_le (allBacked_of_accessFails hf) (by omega)
    exact memWf_memSet h (by omega) b
  · exact h

/-- The state in an outcome of a block pass. -/
def blockState : Except State (Block × State) → State
  | .ok r => r.2
  | .error s => s

theorem memWf_ofbBlock (P : Params) (ks : List Byte) (fb : Block) (j : Nat) (h : MemWf s.mem) :
    MemWf (blockState (ofbBlock P ks fb j s)).mem := by
  unfold ofbBlock
  cases hr : readBlock P s (srcAddr s + 8 * j) with
  | none => exact memWf_tornWrite P _ h _ _ _
  | some r =>
    obtain ⟨d, s'⟩ := r
    obtain ⟨-, rfl, -⟩ := readBlock_some hr
    have hw := memWf_writeBlock (s := afterRead s (srcAddr s + 8 * j) 8) P (dstAddr s + 8 * j)
      (ofbStep P ks fb d).1 (by simpa using h)
    simp only []
    cases he : writeBlock P (afterRead s (srcAddr s + 8 * j) 8) (dstAddr s + 8 * j) (ofbStep P ks fb d).1 <;>
      simpa only [he, outState, blockState] using hw

/-! ### The bodies and read phases keep the storage -/

theorem storage_coreBody {c j : Nat} (h : Storage P s) (hc : c < P.numCtx)
    (hs : (slotAt P s c).state = .initialized) :
    Storage P (outState (coreBody P c j s)) ∧ (slotAt P (outState (coreBody P c j s)) c).state = .initialized := by
  obtain ⟨hframe, -, hslots⟩ := coreBody_frame P c j s
  have hm : MemWf (outState (coreBody P c j s)).mem := by
    have := memWf_ofbBlock P (slotAt P s c).key (slotAt P s c).fb j h.mem_wf
    unfold coreBody
    cases hb : ofbBlock P (slotAt P s c).key (slotAt P s c).fb j s <;> simpa [hb, blockState, outState] using this
  have hd : (outState (coreBody P c j s)).dbuf = s.dbuf := by rw [hframe]
  rcases hslots with ⟨e, he, hes⟩ | ⟨e, he, hes⟩
  · rw [he] at hm hd ⊢
    exact ⟨h.congr hm hes (hd ▸ h.dbuf_length), by rw [outState, slotAt_congr hes, hs]⟩
  · rw [he] at hm hd ⊢
    have hk := (h.slots c (lt_fifteen hc)).key_length
    have hv : SlotOk P c { slotAt P s c with fb := P.E (slotAt P s c).key (slotAt P s c).fb } := slotOk_live hc hs hk
    exact ⟨(h.setSlot hv).congr hm hes (hd ▸ h.dbuf_length),
      by rw [outState, slotAt_congr hes, slotAt_setSlotFb_same P s _ (lt_fifteen hc), hs]⟩

theorem storage_oneshotBody {j : Nat} (h : Storage P s) : Storage P (outState (oneshotBody P j s)) := by
  obtain ⟨hframe, -, -⟩ := oneshotBody_frame P j s
  refine h.congr ?_ (by rw [hframe]) (by rw [hframe]; exact h.dbuf_length)
  have := memWf_ofbBlock P s.scratch.key s.scratch.fb j h.mem_wf
  unfold oneshotBody
  cases hb : ofbBlock P s.scratch.key s.scratch.fb j s <;> simpa [hb, blockState, outState] using this

theorem storage_encodeBody {i : Nat} (h : Storage P s) : Storage P (outState (encodeBody P i s)) := by
  obtain ⟨hframe, -⟩ := encodeBody_frame P i s
  exact h.congr (memWf_writeByte P _ _ h.mem_wf) (by rw [hframe]) (by rw [hframe]; exact h.dbuf_length)

theorem storage_verifyBody {i : Nat} (h : Storage P s) : Storage P (outState (verifyBody P i s)) := by
  have hframe := verifyBody_frame P i s
  rw [hframe]
  exact h.congr h.mem_wf rfl h.dbuf_length

theorem storage_captureDigest (h : Storage P s) : Storage P (outState (captureDigest P s)) := by
  obtain ⟨hframe, hd⟩ := captureDigest_frame P s
  rcases hd with he | hd
  · rwa [he]
  · rw [hframe]
    exact h.congr h.mem_wf rfl hd

theorem storage_verifyCapture (h : Storage P s) : Storage P (outState (verifyCapture P s)) := by
  obtain ⟨hframe, hd⟩ := verifyCapture_frame P s
  rcases hd with he | hd
  · rwa [he]
  · rw [hframe]
    exact h.congr h.mem_wf rfl hd

theorem storage_setScratch {v : Scratch} (h : Storage P s) : Storage P (setScratch s v) :=
  h.congr h.mem_wf rfl h.dbuf_length

/-! ### What the phases of a running command keep -/

/-- What a phase outside OFB_ONESHOT keeps while the command runs: the storage, the zero scratch context, and the
latched operands with the status. -/
structure Kept (P : Params) (s t : State) : Prop where
  storage : Storage P t
  scratch : t.scratch = zeroScratch P
  control : SameControl s t

theorem Kept.refl (h : Storage P s) (hsc : s.scratch = zeroScratch P) : Kept P s s := ⟨h, hsc, .refl s⟩

theorem Kept.sound_busFault (h : Kept P s t) : Sound P (busFault t) := sound_raiseCmdFault h.storage h.scratch

theorem Kept.sound_complete {k : StatusCode} (h : Kept P s t) : Sound P (complete t k) :=
  Machine.sound_complete h.storage h.scratch

theorem Kept.sound_verifyDone (h : Kept P s t) : Sound P (verifyDone t) := h.sound_complete

theorem Kept.encodeBody {i : Nat} (h : Kept P s t) : Kept P s (outState (encodeBody P i t)) :=
  ⟨storage_encodeBody h.storage, (encodeBody_scratch P i t).trans h.scratch,
    h.control.trans (sameControl_encodeBody P i t)⟩

theorem Kept.verifyBody {i : Nat} (h : Kept P s t) : Kept P s (outState (verifyBody P i t)) :=
  ⟨storage_verifyBody h.storage, (verifyBody_scratch P i t).trans h.scratch,
    h.control.trans (sameControl_verifyBody P i t)⟩

theorem Kept.captureDigest (h : Kept P s t) : Kept P s (outState (captureDigest P t)) :=
  ⟨storage_captureDigest h.storage, (captureDigest_scratch P t).trans h.scratch,
    h.control.trans (sameControl_captureDigest P t)⟩

theorem Kept.verifyCapture (h : Kept P s t) : Kept P s (outState (verifyCapture P t)) :=
  ⟨storage_verifyCapture h.storage, (verifyCapture_scratch P t).trans h.scratch,
    h.control.trans (sameControl_verifyCapture P t)⟩

/-- What a pass of OFB_CORE on slot `c` keeps: its slot is live as well. -/
structure KeptLive (P : Params) (c : Nat) (s t : State) : Prop where
  kept : Kept P s t
  live : (slotAt P t c).state = .initialized

theorem KeptLive.coreBody {c j : Nat} (hc : c < P.numCtx) (h : KeptLive P c s t) :
    KeptLive P c s (outState (coreBody P c j t)) := by
  obtain ⟨hstorage, hlive⟩ := storage_coreBody (j := j) h.kept.storage hc h.live
  exact ⟨⟨hstorage, (coreBody_scratch P c j t).trans h.kept.scratch,
    h.kept.control.trans (sameControl_coreBody P c j t)⟩, hlive⟩

/-! ### Commands to their end -/

theorem sound_initBind {c : Nat} (h : Storage P s) (hsc : s.scratch = zeroScratch P) (hc : c < P.numCtx) :
    Sound P (initBind P c s) := by
  rcases initBind_frame P c s with he | ⟨kb, iv, b, f, hk, he⟩ <;> rw [he]
  · exact sound_raiseCmdFault h hsc
  · have hv : SlotOk P c
        { state := .initialized, mode := (directionOf s.lat.mode).getD .encrypt, key := kb, fb := iv } :=
      slotOk_live hc rfl hk
    refine sound_complete ?_ hsc
    exact (h.setSlot hv).congr h.mem_wf rfl h.dbuf_length

theorem sound_finishZeroize {c : Nat} (h : Storage P s) (hsc : s.scratch = zeroScratch P) (hc : c < P.numCtx) :
    Sound P (finishZeroize P c s) :=
  sound_complete (h.setSlot (slotOk_finished hc)) hsc

theorem sound_coreFrom {c j : Nat} (h : Storage P s) (hsc : s.scratch = zeroScratch P) (hc : c < P.numCtx)
    (hs : (slotAt P s c).state = .initialized) : Sound P (coreFrom P c j s) :=
  andThen_of_keeps (KeptLive P c s)
    (forLoop_both _ (fun _ _ _ _ hk => hk.coreBody hc) ⟨.refl h hsc, hs⟩)
    (fun _ hk => hk.kept.sound_busFault) (fun _ hk => hk.kept.sound_complete)

/-- Every end of OFB_ONESHOT zeroizes the scratch context (R91, R111). -/
theorem sound_oneshotFrom {j : Nat} (h : Storage P s) : Sound P (oneshotFrom P j s) :=
  andThen_of_keeps (Storage P) (forLoop_both _ (fun _ _ _ _ hk => storage_oneshotBody hk) h)
    (fun _ hk => sound_raiseCmdFault (storage_setScratch hk) rfl)
    (fun _ hk => sound_complete (storage_setScratch hk) rfl)

theorem storage_oneshotBind (h : Storage P s) : Storage P (outState (oneshotBind P s)) := by
  rcases oneshotBind_frame P s with he | ⟨sc, b, f, -, he⟩ <;> rw [he]
  · exact h
  · exact h.congr h.mem_wf rfl h.dbuf_length

theorem sound_oneshotRun (h : Storage P s) : Sound P (oneshotRun P s) :=
  andThen_of_keeps (Storage P) (storage_oneshotBind h)
    (fun _ hk => sound_raiseCmdFault (storage_setScratch hk) rfl) (fun _ hk => sound_oneshotFrom hk)

theorem sound_encodeFrom {i : Nat} (h : Storage P s) (hsc : s.scratch = zeroScratch P) :
    Sound P (encodeFrom P i s) :=
  andThen_of_keeps (Kept P s) (forLoop_both _ (fun _ _ _ _ hk => hk.encodeBody) (.refl h hsc))
    (fun _ hk => hk.sound_busFault) (fun _ hk => hk.sound_complete)

theorem sound_encodeRun (h : Storage P s) (hsc : s.scratch = zeroScratch P) : Sound P (encodeRun P s) :=
  andThen_of_keeps (Kept P s) (Kept.refl h hsc).captureDigest
    (fun _ hk => hk.sound_busFault) (fun _ hk => sound_encodeFrom hk.storage hk.scratch)

theorem sound_verifyFrom {i : Nat} (h : Storage P s) (hsc : s.scratch = zeroScratch P) :
    Sound P (verifyFrom P i s) :=
  andThen_of_keeps (Kept P s) (forLoop_both _ (fun _ _ _ _ hk => hk.verifyBody) (.refl h hsc))
    (fun _ hk => hk.sound_busFault) (fun _ hk => hk.sound_verifyDone)

theorem sound_verifyRun (h : Storage P s) (hsc : s.scratch = zeroScratch P) : Sound P (verifyRun P s) :=
  andThen_of_keeps (Kept P s) (Kept.refl h hsc).verifyCapture
    (fun _ hk => hk.sound_busFault) (fun _ hk => sound_verifyFrom hk.storage hk.scratch)

theorem sound_ofbFinish {c : Nat} (h : Storage P s) (hsc : s.scratch = zeroScratch P) : Sound P (ofbFinish P c s) :=
  sound_guarded h hsc fun hv => sound_finishZeroize h hsc (finishCheck_pass hv).1

/-- Every command, from a zero scratch context, leaves a sound block. -/
theorem sound_exec {i : Instr} (h : Storage Config.chip s) (hsc : s.scratch = zeroScratch Config.chip)
    (he : exec i s = .next t) : Sound Config.chip t := by
  cases i with
  | ofbInit c =>
    cases he
    exact sound_guarded h hsc fun hv => sound_initBind h hsc (initCheck_pass hv).1
  | ofbCore c =>
    cases he
    exact sound_guarded h hsc fun hv => sound_coreFrom h hsc (coreCheck_pass hv).1 (coreCheck_pass hv).2
  | ofbFinish c =>
    cases he
    exact sound_ofbFinish h hsc
  | ofbOneshot x =>
    cases he
    exact sound_guarded h hsc fun _ => sound_oneshotRun h
  | pkcs1Encode x =>
    cases he
    exact sound_guarded h hsc fun _ => sound_encodeRun h hsc
  | pkcs1Verify x =>
    cases he
    exact sound_guarded h hsc fun _ => sound_verifyRun h hsc

/-! ### Moves of the engine -/

/-- The scratch context of a sound block outside the loop of OFB_ONESHOT (R39). -/
theorem Sound.scratch {p : Progress} (h : Sound P s) (hp : s.progress = p) (hn : ∀ j, p ≠ .oneshot j) :
    s.scratch = zeroScratch P := h.block.scratch_zero (hp ▸ hn)

/-- Between the checks of OFB_INIT and its reads, its slot exists (R41, R69). -/
theorem Sound.slot_of_initReads {c : Nat} (h : Sound P s) (hp : s.progress = .initReads c) : c < P.numCtx := by
  have hpos : c < P.numCtx ∧ (slotAt P s c).state ≠ .initialized := by
    simpa only [PositionOk, hp] using h.block.position
  exact hpos.1

/-- In the loop of OFB_CORE its slot exists and is live (R41, R83). -/
theorem Sound.slot_of_core {c j : Nat} (h : Sound P s) (hp : s.progress = .core c j) :
    c < P.numCtx ∧ (slotAt P s c).state = .initialized := by
  obtain ⟨hc, hs, -⟩ : c < P.numCtx ∧ (slotAt P s c).state = .initialized ∧ j ≤ blockCount s := by
    simpa only [PositionOk, hp] using h.block.position
  exact ⟨hc, hs⟩

/-- Past its checks, a command's first move goes to its first phase (R41). -/
theorem sound_guarded_setProgress {v : Verdict} {p : Progress} (h : Storage P s) (hr : Running s)
    (hsc : s.scratch = zeroScratch P) (hp : p ≠ .idle) (hpos : v = .pass → PositionOk P (setProgress s p)) :
    Sound P (guarded v (fun s' => setProgress s' p) s) :=
  sound_guarded h hsc fun hv => sound_setProgress h hr hsc hp (hpos hv)

theorem sound_startMove {i : Instr} (h : Storage P s) (hr : Running s) (hsc : s.scratch = zeroScratch P) :
    Sound P (startMove P i s) := by
  cases i with
  | ofbInit c => exact sound_guarded_setProgress h hr hsc (by simp) fun hv => initCheck_pass hv
  | ofbCore c =>
    refine sound_guarded_setProgress h hr hsc (by simp) fun hv => ?_
    obtain ⟨hc, hs⟩ := coreCheck_pass hv
    exact ⟨hc, hs, Nat.zero_le _⟩
  | ofbFinish c => exact sound_ofbFinish h hsc
  | ofbOneshot x => exact sound_guarded_setProgress h hr hsc (by simp) fun _ => trivial
  | pkcs1Encode x => exact sound_guarded_setProgress h hr hsc (by simp) fun _ => trivial
  | pkcs1Verify x => exact sound_guarded_setProgress h hr hsc (by simp) fun _ => trivial

/-- A running command whose phase keeps the block moves to a position without a slot. -/
theorem Kept.sound_setProgress {p : Progress} (h : Kept P s t) (hr : Running s) (hp : p ≠ .idle)
    (hpos : PositionOk P (setProgress t p)) : Sound P (setProgress t p) :=
  Machine.sound_setProgress h.storage (h.control.running hr) h.scratch hp hpos

/-- A move of OFB_CORE's loop. -/
theorem sound_tick_core {c j : Nat} (h : Sound P s) (hp : s.progress = .core c j) : Sound P (tick P s) := by
  have hr := h.running (by simp [hp])
  have hsc := h.scratch hp (by simp)
  obtain ⟨hc, hs⟩ := h.slot_of_core hp
  have hlive : KeptLive P c s s := ⟨.refl h.storage hsc, hs⟩
  rw [tick_core hp]
  exact loopMove_of_keeps (KeptLive P c s) (hlive.coreBody hc) (fun _ hk => hk.kept.sound_busFault)
    (fun hlt _ hk => hk.kept.sound_setProgress hr (by simp) ⟨hc, hk.live, hk.kept.control.le_blockCount hlt⟩)
    hlive.kept.sound_complete

/-- What a phase of OFB_ONESHOT keeps while it runs. -/
structure KeptScratch (P : Params) (s t : State) : Prop where
  storage : Storage P t
  scratch : t.scratch.key.length = P.keyBytes
  control : SameControl s t

theorem KeptScratch.refl (h : Sound P s) : KeptScratch P s s := ⟨h.storage, h.block.scratch_length, .refl s⟩

theorem KeptScratch.oneshotBody {j : Nat} (h : KeptScratch P s t) :
    KeptScratch P s (outState (oneshotBody P j t)) :=
  ⟨storage_oneshotBody h.storage, by rw [(oneshotBody_frame P j t).2.2, h.scratch],
    h.control.trans (sameControl_oneshotBody P j t)⟩

theorem KeptScratch.oneshotBind (h : KeptScratch P s t) : KeptScratch P s (outState (oneshotBind P t)) := by
  refine ⟨storage_oneshotBind h.storage, ?_, h.control.trans (sameControl_oneshotBind P t)⟩
  rcases oneshotBind_frame P t with he | ⟨sc, b, f, hl, he⟩ <;> rw [he]
  · exact h.scratch
  · exact hl

theorem KeptScratch.sound_oneshotFault (h : KeptScratch P s t) : Sound P (oneshotFault P t) :=
  sound_raiseCmdFault (storage_setScratch h.storage) rfl

theorem KeptScratch.sound_oneshotDone (h : KeptScratch P s t) : Sound P (oneshotDone P t) :=
  Machine.sound_complete (storage_setScratch h.storage) rfl

theorem KeptScratch.sound_setProgress {j : Nat} (h : KeptScratch P s t) (hr : Running s) (hj : j ≤ blockCount s) :
    Sound P (setProgress t (.oneshot j)) :=
  sound_setProgress_oneshot h.storage (h.control.running hr) h.scratch (h.control.le_blockCount hj)

/-- Every move of the engine keeps the invariant. -/
theorem sound_tick (h : Sound P s) : Sound P (tick P s) := by
  cases hp : s.progress with
  | idle => rwa [tick_idle hp]
  | accepted =>
    have hr := h.running (by simp [hp])
    have hsc := h.scratch hp (by simp)
    cases hd : decode s.cmd with
    | illegal w =>
      rw [tick_illegal hp hd]
      exact sound_raiseCmdFault h.storage hsc
    | command i =>
      rw [tick_command hp hd]
      exact sound_startMove h.storage hr hsc
  | initReads c =>
    rw [tick_initReads hp]
    exact sound_initBind h.storage (h.scratch hp (by simp)) (h.slot_of_initReads hp)
  | core c j => exact sound_tick_core h hp
  | oneshotReads =>
    have hr := h.running (by simp [hp])
    rw [tick_oneshotReads hp]
    exact andThen_of_keeps (KeptScratch P s) (KeptScratch.refl h).oneshotBind (fun _ hk => hk.sound_oneshotFault)
      (fun _ hk => hk.sound_setProgress hr (Nat.zero_le _))
  | oneshot j =>
    have hr := h.running (by simp [hp])
    rw [tick_oneshot hp]
    exact loopMove_of_keeps (KeptScratch P s) (KeptScratch.refl h).oneshotBody (fun _ hk => hk.sound_oneshotFault)
      (fun hlt _ hk => hk.sound_setProgress hr hlt) (KeptScratch.refl h).sound_oneshotDone
  | encodeDigest =>
    have hr := h.running (by simp [hp])
    rw [tick_encodeDigest hp]
    exact andThen_of_keeps (Kept P s) (Kept.refl h.storage (h.scratch hp (by simp))).captureDigest
      (fun _ hk => hk.sound_busFault) (fun _ hk => hk.sound_setProgress hr (by simp) (Nat.zero_le _))
  | encode i =>
    have hr := h.running (by simp [hp])
    have hk := Kept.refl h.storage (h.scratch hp (by simp))
    rw [tick_encode hp]
    exact loopMove_of_keeps (Kept P s) hk.encodeBody (fun _ hk => hk.sound_busFault)
      (fun hlt _ hk => hk.sound_setProgress hr (by simp) (hk.control.le_lenArg hlt)) hk.sound_complete
  | verifyDigest =>
    have hr := h.running (by simp [hp])
    rw [tick_verifyDigest hp]
    exact andThen_of_keeps (Kept P s) (Kept.refl h.storage (h.scratch hp (by simp))).verifyCapture
      (fun _ hk => hk.sound_busFault) (fun _ hk => hk.sound_setProgress hr (by simp) (Nat.zero_le _))
  | verify i =>
    have hr := h.running (by simp [hp])
    have hk := Kept.refl h.storage (h.scratch hp (by simp))
    rw [tick_verify hp]
    exact loopMove_of_keeps (Kept P s) hk.verifyBody (fun _ hk => hk.sound_busFault)
      (fun hlt _ hk => hk.sound_setProgress hr (by simp) (hk.control.le_lenArg hlt)) hk.sound_verifyDone

/-- The engine's run from a position past the checks keeps the invariant. -/
theorem sound_resume (h : Sound P s) : Sound P (resume P s) := by
  unfold resume
  split
  case h_1 => exact h
  case h_2 => exact h
  case h_3 c hp => exact sound_initBind h.storage (h.scratch hp (by simp)) (h.slot_of_initReads hp)
  case h_4 c j hp =>
    obtain ⟨hc, hs⟩ := h.slot_of_core hp
    exact sound_coreFrom h.storage (h.scratch hp (by simp)) hc hs
  case h_5 => exact sound_oneshotRun h.storage
  case h_6 => exact sound_oneshotFrom h.storage
  case h_7 hp => exact sound_encodeRun h.storage (h.scratch hp (by simp))
  case h_8 i hp => exact sound_encodeFrom h.storage (h.scratch hp (by simp))
  case h_9 hp => exact sound_verifyRun h.storage (h.scratch hp (by simp))
  case h_10 i hp => exact sound_verifyFrom h.storage (h.scratch hp (by simp))

/-- The engine's run to the end of a command keeps the invariant. -/
theorem sound_engineRun (h : Sound Config.chip s) (he : engineRun Config.chip exec s = .next t) :
    Sound Config.chip t := by
  unfold engineRun at he
  split at he
  case h_1 hp =>
    have hsc := h.scratch hp (by simp)
    split at he
    · cases he
      exact sound_raiseCmdFault h.storage hsc
    · exact sound_exec h.storage hsc he
  case h_2 =>
    cases he
    exact sound_resume h

/-! ### Host accesses, reset and power -/

theorem sound_accept (h : Sound P s) (hb : s.busy = false) (w : Word) : Sound P (accept s w) := by
  have hp : s.progress = .idle := by simpa [hb] using h.block.busy_iff
  have hsc := h.scratch hp (by simp)
  exact (h.storage.congr (t := accept s w) h.mem_wf rfl h.block.dbuf_length).sound (by simp) (fun _ => ⟨rfl, rfl⟩)
    (fun _ => hsc) (zeroScratch_length hsc) trivial

/-- A register write keeps the invariant, whatever the position. -/
theorem sound_writeReg (h : Sound P s) (r : RegName) (v : Word) : Sound P (writeReg s r v) := by
  cases r
  case ctrl | dst | src | len | key | iv | mode | dig => exact h.congr h.mem_wf id rfl rfl rfl rfl rfl rfl rfl
  case cfg0 | cfg1 | faults | ctxStat | ctxMode | unmapped => exact h
  case status =>
    simp only [writeReg]
    split
    · exact h.congr h.mem_wf (by simp) rfl rfl rfl rfl rfl rfl rfl
    · exact h
  case cmd =>
    simp only [writeReg, writeCmd]
    split
    · exact h.congr h.mem_wf id rfl rfl rfl rfl rfl rfl rfl
    · rename_i hb
      exact sound_accept h (by simpa using hb) v

theorem sound_respond (h : Sound P s) (r : HostResp) : Sound P (respond s r) :=
  h.congr h.mem_wf id rfl rfl rfl rfl rfl rfl rfl

theorem sound_hostAccess (h : Sound P s) (op : HostOp) : Sound P (hostAccess P op s) := by
  cases op with
  | read addr width =>
    simp only [hostAccess, hostRead]
    split <;> exact sound_respond h _
  | write addr width v =>
    simp only [hostAccess, hostWrite]
    split
    · exact sound_respond h _
    · exact sound_respond h _
    · exact sound_respond (sound_writeReg h _ v) _
  | memRead a =>
    have hu : Sound P (useFree s 1) := h.congr h.mem_wf id rfl rfl rfl rfl rfl rfl rfl
    simp only [hostAccess, hostMemRead]
    split_ifs
    · exact sound_respond hu _
    · exact sound_respond hu _
    · exact sound_respond h _
    · exact sound_respond h _
  | memWrite a b =>
    simp only [hostAccess, hostMemWrite]
    split
    · rename_i hb
      exact h.congr (memWf_memSet h.mem_wf (backed_lt hb) b) id rfl rfl rfl rfl rfl rfl rfl
    · exact sound_respond h _

theorem memWf_abandon (P : Params) (h : MemWf s.mem) : MemWf (abandon P s).mem := by
  unfold abandon
  split
  · exact h
  · exact memWf_scramble P s.ram h _ _ _

theorem sound_applyReset (h : MemWf s.mem) : Sound P (applyReset P s) :=
  (sound_resetFor P s.ram s.volatile).congr (memWf_abandon P h) id rfl rfl rfl rfl rfl rfl rfl

theorem sound_armBusError (h : Sound P s) (n : Nat) : Sound P (armBusError n s) := by
  unfold armBusError
  split
  · exact h.congr h.mem_wf id rfl rfl rfl rfl rfl rfl rfl
  · exact h

/-! ### Steps -/

theorem Sound.inv (h : Sound P s) : Inv P s := ⟨h.mem_wf, fun _ => h.block⟩

/-- The invariant of an unpowered state is that of data memory. -/
theorem inv_of_unpowered (h : MemWf s.mem) (hp : s.powered = false) : Inv P s :=
  ⟨h, fun hp' => by simp [hp] at hp'⟩

theorem inv_onEvent {e : Event} (h : Sound Config.chip s) (he : onEvent Config.chip exec e s = .next t) :
    Inv Config.chip t := by
  cases e with
  | host op =>
    cases he
    exact (sound_hostAccess h op).inv
  | run => exact (sound_engineRun h he).inv
  | tick =>
    cases he
    exact (sound_tick h).inv
  | reset =>
    cases he
    exact (sound_applyReset h.mem_wf).inv
  | powerLoss =>
    cases he
    exact inv_of_unpowered (memWf_abandon _ h.mem_wf) rfl
  | busError n =>
    cases he
    exact (sound_armBusError h n).inv

theorem inv_onEventUnpowered {e : Event} (h : MemWf s.mem) (hp : s.powered = false)
    (he : onEventUnpowered P e s = .next t) : Inv P t := by
  cases e with
  | reset =>
    cases he
    exact (sound_applyReset h).inv
  | powerLoss =>
    cases he
    exact inv_of_unpowered h hp
  | host op => cases he
  | run => cases he
  | tick => cases he
  | busError n => cases he

/-- Settles O59: the reset state is idle, and its storage is zero. -/
theorem invariantAtReset : Obligations.InvariantAtReset := (sound_resetFor _ _ _).inv

/-- Settles O60: by what a step can be, from the lemmas for the engine's run, each event and the reset. -/
theorem stepKeepsInvariant : Obligations.StepKeepsInvariant := by
  intro s t hi h
  have hsound : s.powered = true → ∀ rest, Sound Config.chip { s with env := rest } := fun hp rest =>
    Sound.congr ⟨hi.mem_wf, hi.block hp⟩ hi.mem_wf id rfl rfl rfl rfl rfl rfl rfl
  rcases step_cases h with ⟨-, hp, h⟩ | ⟨e, rest, -, hp, h⟩ | ⟨e, rest, -, hp, h⟩
  · exact (sound_engineRun ⟨hi.mem_wf, hi.block hp⟩ h).inv
  · exact inv_onEvent (hsound hp rest) h
  · exact inv_onEventUnpowered (s := { s with env := rest }) hi.mem_wf hp h

end Sys2Proof.Machine
end

section
/-! SUPPORT. What the engine's moves and runs can do to the status and the slots, whatever the command (R14, R35,
R39, R110). -/

namespace Sys2Proof.Machine

variable {P : Params} {s t : State}

/-- What a command's moves lead to: a completion, a command fault or a next position, from a state that differs from
the first only in what a running command may write. -/
inductive Moved (s : State) : State → Prop
  | completed {b : State} (k : StatusCode) (h : SameControl s b) : Moved s (complete b k)
  | faulted {b : State} (n : FaultCause) (h : SameControl s b) : Moved s (raiseCmdFault b n)
  | at_position {b : State} (p : Progress) (h : SameControl s b) : Moved s (setProgress b p)

theorem Moved.refl (s : State) : Moved s s := .at_position s.progress (.refl s)

theorem moved_guarded {v : Verdict} {body : State → State} (h : Moved s (body s)) : Moved s (guarded v body s) :=
  guarded_keeps (fun k => .completed k (.refl s)) (fun n => .faulted n (.refl s)) (fun _ => h)

theorem moved_guarded_setProgress (v : Verdict) (p : Progress) (s : State) :
    Moved s (guarded v (fun s' => setProgress s' p) s) :=
  moved_guarded (body := fun s' => setProgress s' p) (.at_position p (.refl s))

theorem moved_initBind (P : Params) (c : Nat) (s : State) : Moved s (initBind P c s) := by
  rcases initBind_frame P c s with h | ⟨kb, iv, b, f, -, h⟩ <;> rw [h]
  · exact .faulted _ (.refl s)
  · exact .completed _ rfl

theorem moved_ofbFinish (P : Params) (c : Nat) (s : State) : Moved s (ofbFinish P c s) :=
  moved_guarded (.completed (b := setSlot s c { emptySlot P with state := .finished }) _ rfl)

theorem moved_busFault {b : State} (h : SameControl s b) : Moved s (busFault b) := .faulted _ h

theorem moved_oneshotFault {b : State} (h : SameControl s b) : Moved s (oneshotFault P b) :=
  .faulted _ (h.trans (u := setScratch b (zeroScratch P)) rfl)

theorem moved_oneshotDone {b : State} (h : SameControl s b) : Moved s (oneshotDone P b) :=
  .completed _ (h.trans (u := setScratch b (zeroScratch P)) rfl)

theorem moved_startMove (P : Params) (i : Instr) (s : State) : Moved s (startMove P i s) := by
  cases i with
  | ofbFinish c => exact moved_ofbFinish P c s
  | ofbInit c => exact moved_guarded_setProgress _ _ s
  | ofbCore c => exact moved_guarded_setProgress _ _ s
  | ofbOneshot x => exact moved_guarded_setProgress _ _ s
  | pkcs1Encode x => exact moved_guarded_setProgress _ _ s
  | pkcs1Verify x => exact moved_guarded_setProgress _ _ s

/-- Everything one move of the engine can do. -/
theorem moved_tick (P : Params) (s : State) : Moved s (tick P s) := by
  cases hp : s.progress with
  | idle => exact (tick_idle hp).symm ▸ .refl s
  | accepted =>
    cases hd : decode s.cmd with
    | illegal w => exact (tick_illegal hp hd).symm ▸ .faulted _ (.refl s)
    | command i => exact (tick_command hp hd).symm ▸ moved_startMove P i s
  | initReads c => exact (tick_initReads hp).symm ▸ moved_initBind P c s
  | core c j =>
    rw [tick_core hp]
    exact loopMove_of_keeps (SameControl s) (sameControl_coreBody P c j s) (fun _ => moved_busFault)
      (fun _ _ h => .at_position _ h) (.completed _ (.refl s))
  | oneshotReads =>
    rw [tick_oneshotReads hp]
    exact andThen_of_keeps (SameControl s) (sameControl_oneshotBind P s) (fun _ => moved_oneshotFault)
      (fun _ h => .at_position _ h)
  | oneshot j =>
    rw [tick_oneshot hp]
    exact loopMove_of_keeps (SameControl s) (sameControl_oneshotBody P j s) (fun _ => moved_oneshotFault)
      (fun _ _ h => .at_position _ h) (moved_oneshotDone (.refl s))
  | encodeDigest =>
    rw [tick_encodeDigest hp]
    exact andThen_of_keeps (SameControl s) (sameControl_captureDigest P s) (fun _ => moved_busFault)
      (fun _ h => .at_position _ h)
  | encode i =>
    rw [tick_encode hp]
    exact loopMove_of_keeps (SameControl s) (sameControl_encodeBody P i s) (fun _ => moved_busFault)
      (fun _ _ h => .at_position _ h) (.completed _ (.refl s))
  | verifyDigest =>
    rw [tick_verifyDigest hp]
    exact andThen_of_keeps (SameControl s) (sameControl_verifyCapture P s) (fun _ => moved_busFault)
      (fun _ h => .at_position _ h)
  | verify i =>
    rw [tick_verify hp]
    exact loopMove_of_keeps (SameControl s) (sameControl_verifyBody P i s) (fun _ => moved_busFault)
      (fun _ _ h => .at_position _ h) (.completed _ (.refl s))

theorem moved_coreFrom (P : Params) (c j : Nat) (s : State) : Moved s (coreFrom P c j s) :=
  andThen_of_keeps (SameControl s)
    (forLoop_both _ (fun i u _ _ h => h.trans (sameControl_coreBody P c i u)) (.refl s))
    (fun _ => moved_busFault) (fun _ h => .completed _ h)

theorem moved_oneshotFrom {b : State} (j : Nat) (h : SameControl s b) : Moved s (oneshotFrom P j b) :=
  andThen_of_keeps (SameControl s)
    (forLoop_both _ (fun i u _ _ h => h.trans (sameControl_oneshotBody P i u)) h)
    (fun _ => moved_oneshotFault) (fun _ => moved_oneshotDone)

theorem moved_encodeFrom {b : State} (i : Nat) (h : SameControl s b) : Moved s (encodeFrom P i b) :=
  andThen_of_keeps (SameControl s)
    (forLoop_both _ (fun i u _ _ h => h.trans (sameControl_encodeBody P i u)) h)
    (fun _ => moved_busFault) (fun _ h => .completed _ h)

theorem moved_verifyFrom {b : State} (i : Nat) (h : SameControl s b) : Moved s (verifyFrom P i b) :=
  andThen_of_keeps (SameControl s)
    (forLoop_both _ (fun i u _ _ h => h.trans (sameControl_verifyBody P i u)) h)
    (fun _ => moved_busFault) (fun _ h => .completed _ h)

/-- Everything the engine's run from a position past the checks can do. -/
theorem moved_resume (P : Params) (s : State) : Moved s (resume P s) := by
  unfold resume
  split
  case h_1 => exact .refl s
  case h_2 => exact .refl s
  case h_3 c _ => exact moved_initBind P c s
  case h_4 c j _ => exact moved_coreFrom P c j s
  case h_5 =>
    exact andThen_of_keeps (SameControl s) (sameControl_oneshotBind P s) (fun _ => moved_oneshotFault)
      (fun _ => moved_oneshotFrom 0)
  case h_6 j _ => exact moved_oneshotFrom j (.refl s)
  case h_7 =>
    exact andThen_of_keeps (SameControl s) (sameControl_captureDigest P s) (fun _ => moved_busFault)
      (fun _ => moved_encodeFrom 0)
  case h_8 i _ => exact moved_encodeFrom i (.refl s)
  case h_9 =>
    exact andThen_of_keeps (SameControl s) (sameControl_verifyCapture P s) (fun _ => moved_busFault)
      (fun _ => moved_verifyFrom 0)
  case h_10 i _ => exact moved_verifyFrom i (.refl s)

/-- Every command ends with one completion or command fault, from a state that differs from the first only in what a
running command may write (R14, R105). -/
theorem exec_ends {i : Instr} (h : exec i s = .next t) :
    ∃ b, SameControl s b ∧ ((∃ k, t = complete b k) ∨ ∃ n, t = raiseCmdFault b n) := by
  obtain ⟨t', ht, hcases⟩ := exec_cases i s
  obtain rfl : t' = t := by simpa [ht] using h
  rcases hcases with ⟨k, -, rfl⟩ | rfl | ⟨b, hb, rfl | rfl | ⟨-, rfl⟩⟩
  · exact ⟨s, .refl s, .inl ⟨k, rfl⟩⟩
  · exact ⟨s, .refl s, .inr ⟨_, rfl⟩⟩
  · exact ⟨b, hb, .inr ⟨_, rfl⟩⟩
  · exact ⟨b, hb, .inl ⟨_, rfl⟩⟩
  · exact ⟨b, hb, .inl ⟨_, rfl⟩⟩

theorem moved_exec {i : Instr} (h : exec i s = .next t) : Moved s t := by
  obtain ⟨b, hb, ⟨k, rfl⟩ | ⟨n, rfl⟩⟩ := exec_ends h
  · exact .completed k hb
  · exact .faulted n hb

/-- Everything the engine's run can do. -/
theorem moved_engineRun (h : engineRun Config.chip exec s = .next t) : Moved s t := by
  unfold engineRun at h
  split at h
  · split at h
    · cases h
      exact .faulted _ (.refl s)
    · exact moved_exec h
  · cases h
    exact moved_resume Config.chip s

/-! ### FAULTS only grows -/

/-- Every FAULTS bit that is set in `s` is set in `t`. -/
def FaultsKept (s t : State) : Prop := s.faults &&& t.faults = s.faults

theorem faultsKept_of_eq (h : t.faults = s.faults) : FaultsKept s t := by simp [FaultsKept, h]

theorem faultsKept_of_or {f : BitVec 4} (h : t.faults = s.faults ||| f) : FaultsKept s t := by
  rw [FaultsKept, h]
  ext i hi
  simpa [Bool.and_or_distrib_left] using fun hbit _ => hbit

theorem SameControl.faults (h : SameControl s t) : t.faults = s.faults := by rw [h]

theorem Moved.faultsKept (h : Moved s t) : FaultsKept s t := by
  cases h with
  | completed k h => exact faultsKept_of_eq h.faults
  | faulted n h => exact faultsKept_of_or (f := causeBit n) (by rw [raiseCmdFault_faults, h.faults])
  | at_position p h => exact faultsKept_of_eq h.faults

theorem faultsKept_writeReg (s : State) (r : RegName) (v : Word) : FaultsKept s (writeReg s r v) := by
  cases r
  case cmd =>
    simp only [writeReg, writeCmd]
    split
    · exact faultsKept_of_or rfl
    · exact faultsKept_of_eq rfl
  case status =>
    simp only [writeReg]
    split <;> exact faultsKept_of_eq rfl
  all_goals exact faultsKept_of_eq rfl

theorem faultsKept_hostAccess (P : Params) (op : HostOp) (s : State) : FaultsKept s (hostAccess P op s) := by
  cases op with
  | read addr width =>
    simp only [hostAccess, hostRead]
    split <;> exact faultsKept_of_eq rfl
  | write addr width v =>
    simp only [hostAccess, hostWrite]
    split
    · exact faultsKept_of_eq rfl
    · exact faultsKept_of_eq rfl
    · exact faultsKept_writeReg s _ v
  | memRead a =>
    simp only [hostAccess, hostMemRead]
    split_ifs <;> exact faultsKept_of_eq rfl
  | memWrite a b =>
    simp only [hostAccess, hostMemWrite]
    split <;> exact faultsKept_of_eq rfl

theorem abandon_faults (P : Params) (s : State) : (abandon P s).faults = s.faults := by
  unfold abandon
  split <;> rfl

theorem armBusError_faults (n : Nat) (s : State) : (armBusError n s).faults = s.faults := by
  unfold armBusError
  split <;> rfl

theorem faultsKept_onEvent {e : Event} (he : e ≠ .reset) (h : onEvent Config.chip exec e s = .next t) :
    FaultsKept s t := by
  cases e with
  | host op =>
    cases h
    exact faultsKept_hostAccess _ op s
  | run => exact (moved_engineRun h).faultsKept
  | tick =>
    cases h
    exact (moved_tick _ s).faultsKept
  | reset => exact absurd rfl he
  | powerLoss =>
    cases h
    exact faultsKept_of_eq (abandon_faults _ s)
  | busError n =>
    cases h
    exact faultsKept_of_eq (armBusError_faults n s)

/-- Settles O55: by what a step can be; the engine completes, faults with one more bit, or moves on. -/
theorem faultsSticky : Obligations.FaultsSticky := by
  intro s t h hreset
  rcases step_cases h with ⟨-, -, h⟩ | ⟨e, rest, henv, -, h⟩ | ⟨e, rest, henv, -, h⟩
  · exact (moved_engineRun h).faultsKept
  · exact faultsKept_onEvent (s := { s with env := rest }) (fun he => hreset rest (he ▸ henv)) h
  · cases e with
    | powerLoss =>
      cases h
      exact faultsKept_of_eq rfl
    | reset => exact absurd henv (hreset rest)
    | host op => cases h
    | run => cases h
    | tick => cases h
    | busError n => cases h

/-! ### Slots -/

theorem slotAt_coreFrom_state (P : Params) {c d : Nat} (j : Nat) (s : State) (hd : d < 15) :
    (slotAt P (coreFrom P c j s) d).state = (slotAt P s d).state := by
  obtain ⟨t, -, -, hother, hsame, h⟩ := coreFrom_cases P c j s
  have ht : (slotAt P t d).state = (slotAt P s d).state := by
    by_cases hdc : d = c
    · subst hdc
      rw [hsame hd]
    · rw [hother d hdc]
  rcases h with h | h <;> rw [h] <;> exact ht

/-- A transition of slot `c` that a command can make (R35). -/
def SlotMove (i : Instr) (c : Nat) (s t : State) : Prop :=
  (slotAt Config.chip t c).state = (slotAt Config.chip s c).state ∨
    (i = .ofbInit c ∧ (slotAt Config.chip s c).state ≠ .initialized ∧
      (slotAt Config.chip t c).state = .initialized ∧ t.code = .ok) ∨
    (i = .ofbFinish c ∧ (slotAt Config.chip s c).state ≠ .finished ∧
      slotAt Config.chip t c = { emptySlot Config.chip with state := .finished } ∧ t.code = .ok)

theorem slotMove_of_slots {i : Instr} {c : Nat} (h : t.slots = s.slots) : SlotMove i c s t :=
  .inl (by rw [slotAt_congr h])

/-- A command that its checks turn away leaves every slot alone. -/
theorem slotMove_guarded {i : Instr} {c : Nat} {v : Verdict} {body : State → State}
    (h : v = .pass → SlotMove i c s (body s)) : SlotMove i c s (guarded v body s) :=
  guarded_keeps (fun _ => slotMove_of_slots rfl) (fun _ => slotMove_of_slots rfl) h

theorem slotMove_initBind {c d : Nat} (hd : d < 15) (hs : (slotAt Config.chip s c).state ≠ .initialized) :
    SlotMove (.ofbInit c) d s (initBind Config.chip c s) := by
  rcases initBind_frame Config.chip c s with h | ⟨kb, iv, b, f, -, h⟩ <;> rw [h]
  · exact slotMove_of_slots rfl
  · by_cases hdc : d = c
    · subst hdc
      exact .inr (.inl ⟨rfl, hs, congrArg Slot.state (slotAt_setSlot_same _ s _ hd), rfl⟩)
    · exact .inl (congrArg Slot.state (slotAt_setSlot_other _ s _ hdc))

theorem slotMove_finishZeroize {c d : Nat} (hd : d < 15) (hs : (slotAt Config.chip s c).state ≠ .finished) :
    SlotMove (.ofbFinish c) d s (finishZeroize Config.chip c s) := by
  by_cases hdc : d = c
  · subst hdc
    exact .inr (.inr ⟨rfl, hs, slotAt_setSlot_same _ s _ hd, rfl⟩)
  · exact .inl (congrArg Slot.state (slotAt_setSlot_other _ s _ hdc))

/-- Every end of OFB_ONESHOT's run leaves the slots alone and the scratch context zero (R91, R111). -/
theorem oneshotRun_slots (P : Params) (s : State) :
    (oneshotRun P s).slots = s.slots ∧ (oneshotRun P s).scratch = zeroScratch P := by
  obtain ⟨t, ht, -, h⟩ := oneshotRun_cases P s
  have hs : t.slots = s.slots := by rw [ht]
  rcases h with h | h <;> rw [h] <;> exact ⟨hs, rfl⟩

theorem encodeRun_slots (P : Params) (s : State) : (encodeRun P s).slots = s.slots := by
  obtain ⟨t, ht, -, -, h⟩ := encodeRun_cases P s
  have hs : t.slots = s.slots := by rw [ht]
  rcases h with h | h <;> rw [h] <;> exact hs

theorem verifyRun_slots (P : Params) (s : State) : (verifyRun P s).slots = s.slots := by
  obtain ⟨t, ht, -, h⟩ := verifyRun_cases P s
  have hs : t.slots = s.slots := by rw [ht]
  rcases h with h | h <;> rw [h] <;> exact hs

/-- Settles O22: by the command; only OFB_INIT and OFB_FINISH write a slot's state, past their checks. -/
theorem slotTransitions : Obligations.SlotTransitions := by
  intro i s t c h hc
  cases i with
  | ofbInit d =>
    cases h
    exact slotMove_guarded fun hv => slotMove_initBind hc (initCheck_pass hv).2
  | ofbCore d =>
    cases h
    exact slotMove_guarded fun _ => .inl (slotAt_coreFrom_state _ 0 s hc)
  | ofbFinish d =>
    cases h
    exact slotMove_guarded fun hv => slotMove_finishZeroize hc (finishCheck_pass hv).2
  | ofbOneshot x =>
    cases h
    exact slotMove_guarded fun _ => slotMove_of_slots (oneshotRun_slots _ s).1
  | pkcs1Encode x =>
    cases h
    exact slotMove_guarded fun _ => slotMove_of_slots (encodeRun_slots _ s)
  | pkcs1Verify x =>
    cases h
    exact slotMove_guarded fun _ => slotMove_of_slots (verifyRun_slots _ s)

/-- Settles O39: OFB_ONESHOT turned away changes neither; every end of its run zeroizes the scratch context. -/
theorem oneshotLeavesNoSecret : Obligations.OneshotLeavesNoSecret := by
  intro x s t hsc h
  cases h
  exact guarded_keeps (Q := fun t => t.scratch = zeroScratch Config.chip ∧ t.slots = s.slots)
    (fun _ => ⟨hsc, rfl⟩) (fun _ => ⟨hsc, rfl⟩) (fun _ => (oneshotRun_slots _ s).symm)

end Sys2Proof.Machine
end

section
/-! SUPPORT. The live operand registers and the engine's moves: no move reads or writes them (R38). -/

namespace Sys2Proof.Machine

variable {P : Params} {s : State}

/-- The live operand registers become `o` (R37). -/
def setOpr (o : OperandRegs) (s : State) : State := { s with opr := o }

/-- An outcome of a phase with the live operand registers replaced. -/
def setOprOut (o : OperandRegs) : Except State State → Except State State
  | .ok s => .ok (setOpr o s)
  | .error s => .error (setOpr o s)

variable (o : OperandRegs)

theorem afterRead_setOpr (s : State) (a n : Nat) : afterRead (setOpr o s) a n = setOpr o (afterRead s a n) := by
  unfold afterRead
  rw [show (setOpr o s).raced = s.raced from rfl, show (setOpr o s).volatile = s.volatile from rfl]
  split <;> rfl

theorem readBytes_setOpr (P : Params) (s : State) (a n : Nat) :
    readBytes P (setOpr o s) a n = (readBytes P s a n).map fun r => (r.1, setOpr o r.2) := by
  unfold readBytes
  rw [afterRead_setOpr, show accessFails P (setOpr o s) a n = accessFails P s a n from rfl]
  split <;> rfl

theorem readBlock_setOpr (P : Params) (s : State) (a : Nat) :
    readBlock P (setOpr o s) a = (readBlock P s a).map fun r => (r.1, setOpr o r.2) := by
  unfold readBlock
  rw [afterRead_setOpr, show accessFails P (setOpr o s) a 8 = accessFails P s a 8 from rfl]
  split <;> rfl

theorem readByte_setOpr (P : Params) (s : State) (a : Nat) :
    readByte P (setOpr o s) a = (readByte P s a).map fun r => (r.1, setOpr o r.2) := by
  unfold readByte
  rw [afterRead_setOpr, show accessFails P (setOpr o s) a 1 = accessFails P s a 1 from rfl]
  split <;> rfl

theorem writeBlock_setOpr (P : Params) (s : State) (a : Nat) (blk : Block) :
    writeBlock P (setOpr o s) a blk = setOprOut o (writeBlock P s a blk) := by
  unfold writeBlock
  rw [show accessFails P (setOpr o s) a 8 = accessFails P s a 8 from rfl]
  split <;> rfl

theorem writeByte_setOpr (P : Params) (s : State) (a : Nat) (b : Byte) :
    writeByte P (setOpr o s) a b = setOprOut o (writeByte P s a b) := by
  unfold writeByte
  rw [show accessFails P (setOpr o s) a 1 = accessFails P s a 1 from rfl]
  split <;> rfl

theorem readKeyIv_setOpr (P : Params) (s : State) :
    readKeyIv P (setOpr o s) = (readKeyIv P s).map fun r => (r.1, r.2.1, setOpr o r.2.2) := by
  unfold readKeyIv
  rw [readBytes_setOpr, show keyAddr (setOpr o s) = keyAddr s from rfl]
  cases readBytes P s (keyAddr s) P.keyBytes with
  | none => rfl
  | some r =>
    simp only [Option.map_some, readBlock_setOpr, show ivAddr (setOpr o s) = ivAddr s from rfl]
    cases readBlock P r.2 (ivAddr s) <;> rfl

/-- An outcome of a block pass with the live operand registers replaced. -/
def setOprBlock (o : OperandRegs) : Except State (Block × State) → Except State (Block × State)
  | .ok r => .ok (r.1, setOpr o r.2)
  | .error s => .error (setOpr o s)

theorem ofbBlock_setOpr (P : Params) (ks : List Byte) (fb : Block) (j : Nat) (s : State) :
    ofbBlock P ks fb j (setOpr o s) = setOprBlock o (ofbBlock P ks fb j s) := by
  unfold ofbBlock
  rw [readBlock_setOpr, show srcAddr (setOpr o s) = srcAddr s from rfl,
    show dstAddr (setOpr o s) = dstAddr s from rfl]
  cases readBlock P s (srcAddr s + 8 * j) with
  | none => rfl
  | some r =>
    simp only [Option.map_some, writeBlock_setOpr]
    cases writeBlock P r.2 (dstAddr s + 8 * j) (ofbStep P ks fb r.1).1 <;> rfl

theorem coreBody_setOpr (P : Params) (c j : Nat) (s : State) :
    coreBody P c j (setOpr o s) = setOprOut o (coreBody P c j s) := by
  unfold coreBody
  rw [ofbBlock_setOpr, show slotAt P (setOpr o s) c = slotAt P s c from rfl]
  cases ofbBlock P (slotAt P s c).key (slotAt P s c).fb j s <;> rfl

theorem oneshotBody_setOpr (P : Params) (j : Nat) (s : State) :
    oneshotBody P j (setOpr o s) = setOprOut o (oneshotBody P j s) := by
  unfold oneshotBody
  rw [ofbBlock_setOpr, show (setOpr o s).scratch = s.scratch from rfl]
  cases ofbBlock P s.scratch.key s.scratch.fb j s <;> rfl

theorem encodeBody_setOpr (P : Params) (i : Nat) (s : State) :
    encodeBody P i (setOpr o s) = setOprOut o (encodeBody P i s) := writeByte_setOpr o P s _ _

theorem verifyBody_setOpr (P : Params) (i : Nat) (s : State) :
    verifyBody P i (setOpr o s) = setOprOut o (verifyBody P i s) := by
  unfold verifyBody
  rw [readByte_setOpr, show srcAddr (setOpr o s) = srcAddr s from rfl]
  cases readByte P s (srcAddr s + i) <;> rfl

theorem captureDigest_setOpr (P : Params) (s : State) :
    captureDigest P (setOpr o s) = setOprOut o (captureDigest P s) := by
  unfold captureDigest
  rw [readBytes_setOpr, show digAddr (setOpr o s) = digAddr s from rfl]
  cases readBytes P s (digAddr s) P.hashLen <;> rfl

theorem verifyCapture_setOpr (P : Params) (s : State) :
    verifyCapture P (setOpr o s) = setOprOut o (verifyCapture P s) := by
  unfold verifyCapture
  rw [captureDigest_setOpr]
  cases captureDigest P s <;> rfl

theorem oneshotBind_setOpr (P : Params) (s : State) :
    oneshotBind P (setOpr o s) = setOprOut o (oneshotBind P s) := by
  unfold oneshotBind
  rw [readKeyIv_setOpr]
  cases readKeyIv P s <;> rfl

theorem initBind_setOpr (P : Params) (c : Nat) (s : State) :
    initBind P c (setOpr o s) = setOpr o (initBind P c s) := by
  unfold initBind
  rw [readKeyIv_setOpr]
  cases readKeyIv P s <;> rfl

/-- A command's start commutes with the replacement where its body does. -/
theorem guarded_setOpr {v : Verdict} {body : State → State} (h : body (setOpr o s) = setOpr o (body s)) :
    guarded v body (setOpr o s) = setOpr o (guarded v body s) := by
  cases v with
  | reject k => rfl
  | fault n => rfl
  | pass => exact h

theorem guarded_setProgress_setOpr (v : Verdict) (p : Progress) (s : State) :
    guarded v (fun s' => setProgress s' p) (setOpr o s) = setOpr o (guarded v (fun s' => setProgress s' p) s) :=
  guarded_setOpr o (body := fun s' => setProgress s' p) rfl

/-- A phase, then what follows it, commutes with the replacement where both ends do. -/
theorem andThen_setOpr {r : Except State State} {fail next : State → State}
    (hfail : ∀ s, fail (setOpr o s) = setOpr o (fail s)) (hnext : ∀ s, next (setOpr o s) = setOpr o (next s)) :
    andThen (setOprOut o r) fail next = setOpr o (andThen r fail next) := by
  cases r with
  | error e => exact hfail e
  | ok e => exact hnext e

theorem loopMove_setOpr {body : Nat → State → Except State State} {n j : Nat} {at' : Nat → Progress}
    {fail done : State → State} (hbody : body j (setOpr o s) = setOprOut o (body j s))
    (hfail : ∀ s, fail (setOpr o s) = setOpr o (fail s)) (hdone : done (setOpr o s) = setOpr o (done s)) :
    loopMove body n j at' fail done (setOpr o s) = setOpr o (loopMove body n j at' fail done s) := by
  unfold loopMove
  rw [hbody]
  split
  · exact andThen_setOpr o hfail fun _ => rfl
  · exact hdone

theorem startMove_setOpr (P : Params) (i : Instr) (s : State) :
    startMove P i (setOpr o s) = setOpr o (startMove P i s) := by
  cases i with
  | ofbInit c => exact guarded_setProgress_setOpr o _ _ s
  | ofbCore c => exact guarded_setProgress_setOpr o _ _ s
  | ofbFinish c => exact guarded_setOpr o (body := finishZeroize P c) rfl
  | ofbOneshot x => exact guarded_setProgress_setOpr o _ _ s
  | pkcs1Encode x => exact guarded_setProgress_setOpr o _ _ s
  | pkcs1Verify x => exact guarded_setProgress_setOpr o _ _ s

/-- No move of the engine reads or writes the live operand registers (R38). -/
theorem tick_setOpr (P : Params) (s : State) : tick P (setOpr o s) = setOpr o (tick P s) := by
  cases hp : s.progress with
  | idle => rw [tick_idle hp, tick_idle (s := setOpr o s) hp]
  | accepted =>
    cases hd : decode s.cmd with
    | illegal w =>
      rw [tick_illegal hp hd, tick_illegal (s := setOpr o s) hp hd]
      rfl
    | command i => rw [tick_command hp hd, tick_command (s := setOpr o s) hp hd, startMove_setOpr]
  | initReads c => rw [tick_initReads hp, tick_initReads (s := setOpr o s) hp, initBind_setOpr]
  | core c j =>
    rw [tick_core hp, tick_core (s := setOpr o s) hp]
    exact loopMove_setOpr o (coreBody_setOpr o P c j s) (fun _ => rfl) rfl
  | oneshotReads =>
    rw [tick_oneshotReads hp, tick_oneshotReads (s := setOpr o s) hp, oneshotBind_setOpr]
    exact andThen_setOpr o (fun _ => rfl) (fun _ => rfl)
  | oneshot j =>
    rw [tick_oneshot hp, tick_oneshot (s := setOpr o s) hp]
    exact loopMove_setOpr o (oneshotBody_setOpr o P j s) (fun _ => rfl) rfl
  | encodeDigest =>
    rw [tick_encodeDigest hp, tick_encodeDigest (s := setOpr o s) hp, captureDigest_setOpr]
    exact andThen_setOpr o (fun _ => rfl) (fun _ => rfl)
  | encode i =>
    rw [tick_encode hp, tick_encode (s := setOpr o s) hp]
    exact loopMove_setOpr o (encodeBody_setOpr o P i s) (fun _ => rfl) rfl
  | verifyDigest =>
    rw [tick_verifyDigest hp, tick_verifyDigest (s := setOpr o s) hp, verifyCapture_setOpr]
    exact andThen_setOpr o (fun _ => rfl) (fun _ => rfl)
  | verify i =>
    rw [tick_verify hp, tick_verify (s := setOpr o s) hp]
    exact loopMove_setOpr o (verifyBody_setOpr o P i s) (fun _ => rfl) rfl

theorem tick_opr (P : Params) (s : State) : (tick P s).opr = s.opr := by
  have h : tick P s = setOpr s.opr (tick P s) := tick_setOpr s.opr P s
  rw [h, setOpr]

/-- The operand registers after a write of `v` to position `r` (R37). -/
def writeOperand (o : OperandRegs) (r : RegName) (v : Word) : OperandRegs :=
  match r with
  | .dst => { o with dst := v }
  | .src => { o with src := v }
  | .len => { o with len := v }
  | .key => { o with key := v }
  | .iv => { o with iv := v }
  | .mode => { o with mode := v }
  | .dig => { o with dig := v }
  | .cfg0 | .cfg1 | .ctrl | .status | .faults | .ctxStat | .ctxMode | .unmapped | .cmd => o

/-- A write at an operand register's position replaces the live operand registers and nothing else (R37). -/
theorem writeReg_operand {r : RegName} (hr : r ∈ [RegName.dst, .src, .len, .key, .iv, .mode, .dig]) (s : State)
    (v : Word) : writeReg s r v = setOpr (writeOperand s.opr r v) s := by
  fin_cases hr <;> rfl

/-- Settles O56: a move neither reads nor writes what an operand write replaces. -/
theorem operandWritesDuringCommand : Obligations.OperandWritesDuringCommand := by
  intro P s r v hr
  rw [writeReg_operand hr, writeReg_operand hr, tick_setOpr, tick_opr]

end Sys2Proof.Machine
end

section
/-! SUPPORT. The register words field by field (R24 to R31, R70), and what they are read from (R36, R44). -/

namespace Sys2Proof.Machine

variable {P : Params} {s t : State}

/-! ### CTXSTAT and CTXMODE -/

/-- Field `j` of a word that holds a field of the same width at position `n`, and nothing else. -/
theorem field_of_shifted {w n j : Nat} (x : BitVec w) (hj : w * j + w ≤ 32) :
    ((x.setWidth 32 <<< (w * n)).extractLsb' (w * j) w) = if j = n then x else 0 := by
  ext k hk
  have hbit : w * j + k < 32 := by omega
  simp only [BitVec.getElem_extractLsb', BitVec.getLsbD_shiftLeft, BitVec.getLsbD_setWidth]
  rcases Nat.lt_trichotomy j n with hlt | rfl | hgt
  · have hle : w * (j + 1) ≤ w * n := Nat.mul_le_mul_left w hlt
    rw [Nat.mul_add, Nat.mul_one] at hle
    simp [Nat.ne_of_lt hlt, show w * j + k < w * n by omega]
  · simp [hbit, BitVec.getLsbD_eq_getElem hk]
    omega
  · have hle : w * (n + 1) ≤ w * j := Nat.mul_le_mul_left w hgt
    rw [Nat.mul_add, Nat.mul_one] at hle
    simp [Nat.ne_of_gt hgt, BitVec.getLsbD_of_ge x (w * j + k - w * n) (by omega)]

/-- A field of a word put together by `|||`. -/
theorem field_or (a b : Word) (i n : Nat) :
    (a ||| b).extractLsb' i n = a.extractLsb' i n ||| b.extractLsb' i n := by
  ext k hk
  simp

theorem ctxStatBits_field (P : Params) (s : State) (n : Nat) {j : Nat} (hj : j < 16) :
    (ctxStatBits P s n).extractLsb' (2 * j) 2 = if j < n then slotStateBits (slotAt P s j).state else 0 := by
  induction n with
  | zero => simp [ctxStatBits]
  | succ n ih =>
    rw [ctxStatBits, field_or, ih, field_of_shifted _ (by omega)]
    rcases Nat.lt_trichotomy j n with hlt | rfl | hgt
    · simp [hlt, Nat.ne_of_lt hlt, Nat.lt_succ_of_lt hlt]
    · simp
    · simp [Nat.ne_of_gt hgt, show ¬ j < n by omega, show ¬ j < n + 1 by omega]

theorem ctxModeBits_field (P : Params) (s : State) (n : Nat) {j : Nat} (hj : j < 32) :
    (ctxModeBits P s n).extractLsb' j 1 = if j < n then directionBit (slotAt P s j).mode else 0 := by
  induction n with
  | zero => simp [ctxModeBits]
  | succ n ih =>
    have hf := field_of_shifted (n := n) (directionBit (slotAt P s n).mode) (show 1 * j + 1 ≤ 32 by omega)
    rw [Nat.one_mul, Nat.one_mul] at hf
    rw [ctxModeBits, field_or, ih, hf]
    rcases Nat.lt_trichotomy j n with hlt | rfl | hgt
    · simp [hlt, Nat.ne_of_lt hlt, Nat.lt_succ_of_lt hlt]
    · simp
    · simp [Nat.ne_of_gt hgt, show ¬ j < n by omega, show ¬ j < n + 1 by omega]

/-- The state encoding of R34. -/
theorem slotStateBits_eq (x : SlotState) :
    slotStateBits x = if x = .uninit then 0 else if x = .initialized then 1 else 2 := by
  cases x <;> rfl

/-- The mode encoding of R71. -/
theorem directionBit_eq (d : Direction) : directionBit d = if d = .encrypt then 0 else 1 := by
  cases d <;> rfl

/-- CTXSTAT is read from the slots' states alone. -/
theorem ctxStatBits_of_states (h : ∀ c, (slotAt P s c).state = (slotAt P t c).state) (n : Nat) :
    ctxStatBits P s n = ctxStatBits P t n := by
  induction n with
  | zero => rfl
  | succ n ih => simp only [ctxStatBits, ih, h]

/-- CTXMODE is read from the slots' modes alone. -/
theorem ctxModeBits_of_modes (h : ∀ c, (slotAt P s c).mode = (slotAt P t c).mode) (n : Nat) :
    ctxModeBits P s n = ctxModeBits P t n := by
  induction n with
  | zero => rfl
  | succ n ih => simp only [ctxModeBits, ih, h]

theorem slotAt_resetFor (P : Params) (ram volatile : List Region) (c : Nat) :
    slotAt P (resetFor P ram volatile) c = emptySlot P := by
  by_cases hc : c < 15 <;> simp [slotAt, resetFor, hc]

theorem slotAt_reset (c : Nat) : slotAt Config.chip State.reset c = emptySlot Config.chip :=
  slotAt_resetFor _ _ _ c

/-- Empty slots read 0 in CTXSTAT. -/
theorem ctxStatBits_empty (h : ∀ c, slotAt P s c = emptySlot P) (n : Nat) : ctxStatBits P s n = 0 := by
  induction n with
  | zero => rfl
  | succ n ih => simp [ctxStatBits, ih, h, emptySlot, slotStateBits]

/-- Empty slots read 0 in CTXMODE. -/
theorem ctxModeBits_empty (h : ∀ c, slotAt P s c = emptySlot P) (n : Nat) : ctxModeBits P s n = 0 := by
  induction n with
  | zero => rfl
  | succ n ih => simp [ctxModeBits, ih, h, emptySlot, directionBit]

/-- Settles O13: by induction on the slots put together so far. -/
theorem ctxStatFields : Obligations.CtxStatFields :=
  ⟨fun P s j hj => by rw [ctxStatWord, ctxStatBits_field P s _ hj, slotStateBits_eq],
    ctxStatBits_empty slotAt_reset _⟩

/-- Settles O14: by induction on the slots put together so far. -/
theorem ctxModeFields : Obligations.CtxModeFields :=
  ⟨fun P s j hj => by rw [ctxModeWord, ctxModeBits_field P s _ hj, directionBit_eq],
    ctxModeBits_empty slotAt_reset _⟩

/-! ### Secrets -/

/-- A slot with its secrets replaced has its state and its mode. -/
theorem slotAt_withSecrets (P : Params) (s : State) (ks : Vector (List Byte × Block) 15) (sc : Scratch)
    (db : List Byte) (df : Byte) (c : Nat) :
    (slotAt P (withSecrets s ks sc db df) c).state = (slotAt P s c).state ∧
      (slotAt P (withSecrets s ks sc db df) c).mode = (slotAt P s c).mode := by
  by_cases hc : c < 15 <;> simp [slotAt, withSecrets, hc]

/-- Settles O16: CTXSTAT and CTXMODE read states and modes of the slots; no other position reads a slot at all. -/
theorem registerReadsHideSecrets : Obligations.RegisterReadsHideSecrets := by
  intro P s ks sc db df r
  cases r
  case ctxStat => exact ctxStatBits_of_states (fun c => (slotAt_withSecrets P s ks sc db df c).1) _
  case ctxMode => exact ctxModeBits_of_modes (fun c => (slotAt_withSecrets P s ks sc db df c).2) _
  all_goals rfl

/-! ### STATUS, CFG0, CFG1 and CTRL -/

theorem bit_le (b : Bool) : bit b ≤ 1 := by cases b <;> decide

theorem toNat_ofBool_eq_bit (b : Bool) : (BitVec.ofBool b).toNat = bit b := by cases b <;> rfl

/-- STATUS as a number (R27). -/
theorem statusWord_toNat (s : State) : (statusWord s).toNat =
    bit s.busy + 2 * bit s.done + 16 * (codeBits s.code).toNat + 256 * bit (faultSummary s) := by
  have h1 := bit_le s.busy
  have h2 := bit_le s.done
  have h3 := (codeBits s.code).isLt
  have h4 := bit_le (faultSummary s)
  unfold statusWord
  rw [BitVec.toNat_ofNat, Nat.mod_eq_of_lt (by omega)]
  omega

/-- The code numbers of R70. -/
theorem codeBits_eq (k : StatusCode) : codeBits k =
    if k = .ok then 0 else if k = .invalidInput then 1 else if k = .invalidOutput then 2
    else if k = .invalidArg then 3 else if k = .invalidMode then 4
    else if k = .verificationFailed then 5 else 7 := by
  cases k <;> rfl

/-- A field of STATUS, from its number. -/
theorem statusWord_field {s : State} {i n : Nat} {x : BitVec n}
    (h : (bit s.busy + 2 * bit s.done + 16 * (codeBits s.code).toNat + 256 * bit (faultSummary s)) / 2 ^ i % 2 ^ n =
      x.toNat) : (statusWord s).extractLsb' i n = x :=
  BitVec.eq_of_toNat_eq (by rw [field_toNat, statusWord_toNat, h])

/-- Settles O7: each field is a digit of the sum that STATUS is. -/
theorem statusFields : Obligations.StatusFields := by
  intro s
  have h1 := bit_le s.busy
  have h2 := bit_le s.done
  have h3 := (codeBits s.code).isLt
  have h4 := bit_le (faultSummary s)
  have h5 : decide (s.faults ≠ 0) = faultSummary s := decide_not
  refine ⟨statusWord_field ?_, statusWord_field ?_, statusWord_field ?_, ?_, statusWord_field ?_,
    statusWord_field ?_, statusWord_field ?_⟩
  · rw [toNat_ofBool_eq_bit]; omega
  · rw [toNat_ofBool_eq_bit]; omega
  · simp only [BitVec.ofNat_eq_ofNat, BitVec.toNat_ofNat]; omega
  · rw [← codeBits_eq]
    exact statusWord_field (by omega)
  · simp only [BitVec.ofNat_eq_ofNat, BitVec.toNat_ofNat]; omega
  · rw [h5, toNat_ofBool_eq_bit]; omega
  · simp only [BitVec.ofNat_eq_ofNat, BitVec.toNat_ofNat]; omega

/-- Settles O15: each field is a digit of the sum that the word is. -/
theorem configurationWords : Obligations.ConfigurationWords := by
  intro P
  have h1 := P.numCtx_le
  have h2 : P.diLen ≤ 255 := P.diLen_le
  have h3 : P.hashLen ≤ P.diLen := Nat.le_add_left _ _
  have h4 := P.keyBytes_lt
  refine ⟨?_, BitVec.eq_of_toNat_eq ?_, ?_, ?_, ?_, ?_, BitVec.eq_of_toNat_eq ?_⟩ <;>
    simp only [field_toNat, cfg0Word_toNat, cfg1Word_toNat, BitVec.ofNat_eq_ofNat, BitVec.toNat_ofNat] <;> omega

theorem ctrlWord_eq (s : State) : ctrlWord s = if s.irqEn then 1 else 0 := by
  unfold ctrlWord
  cases s.irqEn <;> rfl

end Sys2Proof.Machine
end

section
/-! SUPPORT. The register window: the steps that take an access to it (R21 to R38), the interrupt output and the
reset. -/

namespace Sys2Proof.Machine

variable {s t : State}

/-! ### Steps that take an access of the window -/

theorem target_regOffset (P : Params) (r : RegName) : target P (P.base + regOffset r) 32 = .register r :=
  target_offset P (regAt_regOffset r) (by cases r <;> decide)

/-- No position reads the pending events. -/
theorem readReg_env (P : Params) (s : State) (rest : List Event) (r : RegName) :
    readReg P { s with env := rest } r = readReg P s r := by
  cases r
  case ctxStat => exact ctxStatBits_congr P (s := { s with env := rest }) (t := s) rfl _
  case ctxMode => exact ctxModeBits_congr P (s := { s with env := rest }) (t := s) rfl _
  all_goals rfl

/-- The step that takes an aligned 32-bit read of a position (R21, R22). -/
theorem step_read {r : RegName} {rest : List Event} (hp : s.powered = true)
    (h : s.env = .host (.read (Config.chip.base + regOffset r) 32) :: rest) :
    step s = .next { s with env := rest, resp := .data (readReg Config.chip s r) } := by
  rw [step_host hp h, hostAccess, hostRead, target_regOffset, ← readReg_env Config.chip s rest]
  rfl

/-- The step that takes an aligned 32-bit write of a position (R21, R22). -/
theorem step_write {r : RegName} {v : Word} {rest : List Event} (hp : s.powered = true)
    (h : s.env = .host (.write (Config.chip.base + regOffset r) 32 v) :: rest) :
    step s = .next (respond (writeReg { s with env := rest } r v) .written) := by
  rw [step_host hp h, hostAccess, hostWrite, target_regOffset]

/-- Settles O8: STATUS stands at offset 0x0C. -/
theorem statusWriteClearsDone : Obligations.StatusWriteClearsDone := by
  intro s v rest hp h
  rw [step_write (r := .status) hp h, writeReg]
  split <;> rfl

/-- A position stands at its own offset only (R21). -/
theorem eq_regOffset_of_regAt {off : Nat} {r : RegName} (h : regAt off = some r) : off = regOffset r := by
  unfold regAt at h
  split at h <;> cases h <;> rfl

/-- No position stands at an offset that is no multiple of 4 (R21). -/
theorem regAt_misaligned {off : Nat} (h : off % 4 ≠ 0) : regAt off = none := by
  cases hr : regAt off with
  | none => rfl
  | some r =>
    have h4 : regOffset r % 4 = 0 := by cases r <;> rfl
    exact absurd (eq_regOffset_of_regAt hr ▸ h4) h

/-- An access that touches the window and is not an aligned 32-bit one reaches no position (R22). -/
theorem target_badAccess {P : Params} {addr width : Nat} (h1 : P.base < addr + (width + 7) / 8)
    (h2 : addr < P.base + 64) (h3 : ¬ (width = 32 ∧ addr % 4 = 0)) : target P addr width = .badAccess := by
  have ht : touchesWindow P addr width = true := by simp [touchesWindow, h1, h2]
  unfold target
  rw [ht, if_pos rfl]
  split
  · rename_i hw
    have hbase := P.base_aligned
    have hoff : (addr - P.base) % 4 ≠ 0 := by omega
    rw [regAt_misaligned hoff]
  · rfl

/-- Settles O9: such an access reaches no position, so it is answered with a bus error and nothing else. -/
theorem narrowAccessRefused : Obligations.NarrowAccessRefused := by
  intro s addr width v rest hp h1 h2 h3 h
  rcases h with h | h
  · rw [step_host hp h, hostAccess, hostRead, target_badAccess h1 h2 h3]
    rfl
  · rw [step_host hp h, hostAccess, hostWrite, target_badAccess h1 h2 h3]
    rfl

/-- Settles O10: the six offsets are those of the read-only positions and the unmapped one. -/
theorem readOnlyAndReserved : Obligations.ReadOnlyAndReserved := by
  intro s v rest hp
  refine ⟨fun off hoff h => ?_, fun h => ?_, fun h => step_read (r := .unmapped) hp h⟩
  · fin_cases hoff
    · exact step_write (r := .cfg0) hp h
    · exact step_write (r := .cfg1) hp h
    · exact step_write (r := .faults) hp h
    · exact step_write (r := .ctxStat) hp h
    · exact step_write (r := .ctxMode) hp h
    · exact step_write (r := .unmapped) hp h
  · exact ⟨_, step_write (r := .ctrl) hp h, rfl, ctrlWord_eq _⟩

theorem faultsWord_fields (s : State) :
    (faultsWord s).extractLsb' 0 4 = s.faults ∧ (faultsWord s).extractLsb' 4 28 = 0 := by
  have hlt := s.faults.isLt
  have hn : (faultsWord s).toNat = s.faults.toNat := by
    rw [faultsWord, BitVec.toNat_setWidth, Nat.mod_eq_of_lt (by omega)]
  constructor <;> apply BitVec.eq_of_toNat_eq <;> rw [field_toNat, hn]
  · omega
  · simp only [BitVec.ofNat_eq_ofNat, BitVec.toNat_ofNat]; omega

/-- Settles O11: position by position. -/
theorem registerMapReads : Obligations.RegisterMapReads :=
  ⟨rfl, fun _ _ _ hp h => step_read hp h, fun _ s =>
    ⟨rfl, rfl, ctrlWord_eq s, rfl, (faultsWord_fields s).1, (faultsWord_fields s).2, rfl, rfl, rfl, rfl, rfl, rfl,
      rfl, rfl, rfl, rfl, rfl⟩⟩

/-- CTXSTAT, CTXMODE and every position that is no operand register read the same whatever the operand registers
hold. -/
theorem readReg_setOpr (P : Params) (s : State) (o : OperandRegs) {r : RegName}
    (hr : r ∉ [RegName.dst, .src, .len, .key, .iv, .mode, .dig]) : readReg P (setOpr o s) r = readReg P s r := by
  cases r
  case ctxStat => exact ctxStatBits_congr P (s := setOpr o s) (t := s) rfl _
  case ctxMode => exact ctxModeBits_congr P (s := setOpr o s) (t := s) rfl _
  case dst | src | len | key | iv | mode | dig => simp at hr
  all_goals rfl

/-- An operand register reads as it was written, and the others as before. -/
theorem readReg_writeOperand (P : Params) (s : State) {r r' : RegName} (v : Word)
    (hr : r ∈ [RegName.dst, .src, .len, .key, .iv, .mode, .dig]) :
    readReg P (setOpr (writeOperand s.opr r v) s) r' = if r' = r then v else readReg P s r' := by
  by_cases hr' : r' ∈ [RegName.dst, .src, .len, .key, .iv, .mode, .dig]
  · fin_cases hr <;> fin_cases hr' <;> rfl
  · rw [readReg_setOpr P s _ hr', if_neg fun he : r' = r => hr' (he ▸ hr)]

/-- Settles O12: a write at an operand register's offset replaces that register alone. -/
theorem operandRegisterReadBack : Obligations.OperandRegisterReadBack := by
  refine ⟨fun P s r r' v hr => ⟨?_, ?_, fun hne => ?_⟩, fun s r v rest hp hr h => ?_,
    fun _ _ => ⟨rfl, rfl, rfl, rfl, rfl, rfl, rfl⟩⟩
  · rw [writeReg_operand hr, readReg_writeOperand P s v hr, if_pos rfl]
  · rw [writeReg_operand hr]
    rfl
  · rw [writeReg_operand hr, readReg_writeOperand P s v hr, if_neg hne]
  · rw [step_write hp h, writeReg_operand hr, writeReg_operand hr]
    rfl

/-! ### Acceptance -/

/-- With no event pending, the step from an accepted command is its meaning (R57, R72). -/
theorem step_accepted {i : Instr} (hp : s.powered = true) (henv : s.env = []) (hacc : s.progress = .accepted)
    (hd : decode s.cmd = .command i) : step s = exec i s := by
  simp only [step, move, henv, hp, if_true, engineRun, hacc, hd]

/-- Settles O6: CMD stands at offset 0x20, and the engine's run of an accepted word is its command's meaning. -/
theorem cmdAccess : Obligations.CmdAccess := by
  intro s w rest hp
  refine ⟨fun h => step_read (r := .cmd) hp h, fun h => ⟨fun hb => ?_, fun hb => ?_⟩⟩
  · rw [step_write (r := .cmd) hp h, writeReg, writeCmd, if_pos hb]
    rfl
  · refine ⟨_, ?_, rfl, fun hrest i hd => step_accepted hp hrest rfl hd⟩
    rw [step_write (r := .cmd) hp h, writeReg, writeCmd, if_neg (by simp [hb])]
    rfl

/-! ### The interrupt output -/

theorem SameControl.irqEn (h : SameControl s t) : t.irqEn = s.irqEn := by rw [h]

/-- Every command ends with DONE set and the mask as before (R14, R42). -/
theorem exec_done_irqEn {i : Instr} (h : exec i s = .next t) : t.done = true ∧ t.irqEn = s.irqEn := by
  obtain ⟨b, hb, ⟨k, rfl⟩ | ⟨n, rfl⟩⟩ := exec_ends h
  · exact ⟨rfl, hb.irqEn⟩
  · exact ⟨rfl, hb.irqEn⟩

/-- Settles O18: IRQ is the mask and DONE, and each of the four sets or clears one of them. -/
theorem interruptFollowsDone : Obligations.InterruptFollowsDone := by
  refine ⟨fun i s t h => ?_, fun s v hv => ?_, fun s w hb => ?_, fun s v hv => ⟨?_, rfl⟩⟩
  · obtain ⟨hdone, hen⟩ := exec_done_irqEn h
    rw [irq, hdone, hen, Bool.and_true]
  · rw [writeReg, if_pos hv, irq, acknowledge_done, Bool.and_false]
  · rw [writeReg, writeCmd, if_neg (by simp [hb]), irq, accept_done, Bool.and_false]
  · rw [irq, writeReg, hv, Bool.false_and]

/-! ### Reset -/

theorem readReg_reset {r : RegName} (h0 : r ≠ .cfg0) (h1 : r ≠ .cfg1) : readReg Config.chip State.reset r = 0 := by
  cases r
  case cfg0 => exact absurd rfl h0
  case cfg1 => exact absurd rfl h1
  case ctxStat => exact ctxStatBits_empty slotAt_reset _
  case ctxMode => exact ctxModeBits_empty slotAt_reset _
  all_goals rfl

/-- Settles O50: at reset no event is pending and the engine is idle. -/
theorem resetState : Obligations.ResetState :=
  ⟨rfl, rfl, fun _ => readReg_reset, fun c _ => slotAt_reset c, rfl, rfl⟩

/-- What abandoning a command leaves of data memory: free values in the bytes of the write in progress (R127). -/
theorem abandon_mem (P : Params) (s : State) :
    (∀ a n, writeInProgress s = some (a, n) → SameOutside s.mem (abandon P s).mem a n) ∧
      (writeInProgress s = none → (abandon P s).mem = s.mem) := by
  unfold abandon
  refine ⟨fun a n h => ?_, fun h => by rw [h]⟩
  rw [h]
  exact fun x hx => memGet_scramble_out P s.ram s.mem a s.free n hx

/-- The step that takes a reset, whether the block is under power or not. -/
theorem step_reset {rest : List Event} (h : s.env = .reset :: rest) :
    step s = .next (applyReset Config.chip { s with env := rest }) := by
  unfold step move
  rw [h]
  cases s.powered <;> rfl

/-- Settles O51: a reset is the same step from every state, and only the abandoned write touches data memory. -/
theorem resetAtAnyMoment : Obligations.ResetAtAnyMoment := by
  intro s rest h
  obtain ⟨hsome, hnone⟩ := abandon_mem Config.chip { s with env := rest }
  exact ⟨_, step_reset h, rfl, hsome, hnone⟩

end Sys2Proof.Machine
end

section
/-! SUPPORT. The order of the block passes (R56), for every overlap of the data buffers: the contents that data memory
passes through, and OFB_CORE and OFB_ONESHOT past their checks in the plain situation. -/

namespace Sys2Proof.Machine

variable {P : Params} {s : State}

/-- The content of data memory before pass `k` of the block loop (R83, R91). -/
def contentAt (P : Params) (key : List Byte) (fb : Block) (s : State) (k : Nat) : Memory :=
  (streamFrom P key (srcAddr s) (dstAddr s) k 0 s.mem fb).1

/-- Pass `k` writes output block `k`, computed from data block `k` as it is then. -/
theorem contentAt_succ (P : Params) (key : List Byte) (fb : Block) (s : State) (k : Nat) :
    contentAt P key fb s (k + 1) =
      memSetBytes (contentAt P key fb s k) (dstAddr s + 8 * k)
        (xorBlock (memBlock (contentAt P key fb s k) (srcAddr s + 8 * k)) (keystream P key fb (k + 1))).toList := by
  rw [contentAt, streamFrom_add, streamFrom_fb, Nat.zero_add]
  rfl

/-- A loop that ends in the last of these contents has passed through them in order. -/
theorem passesInOrder_contentAt {key : List Byte} {fb : Block} {t : State}
    (h : t.mem = contentAt P key fb s (lenArg s / 8)) : PassesInOrder P key fb s t := by
  refine ⟨contentAt P key fb s, rfl, h, fun j _ => ⟨fun i => ?_, ?_⟩⟩
  · rw [contentAt_succ, memGet_memSetBytes_in _ _ _ _ (by simp)]
    simp
  · rw [contentAt_succ]
    simpa using sameOutside_memSetBytes (contentAt P key fb s j) (dstAddr s + 8 * j)
      (xorBlock (memBlock (contentAt P key fb s j) (srcAddr s + 8 * j)) (keystream P key fb (j + 1))).toList

/-- Backed buffers fit in the address space (R53). -/
theorem not_overrun {a m b n : Nat} (ha : Backed P s a m) (hb : Backed P s b n) (hm : 0 < m) (hn : 0 < n) :
    ¬ (2 ^ 32 < a + m ∨ 2 ^ 32 < b + n) := by
  have hla := allBacked_le ha hm
  have hlb := allBacked_le hb hn
  omega

theorem coreCheck_eq_pass {c : Nat} (hc : c < P.numCtx) (hlive : (slotAt P s c).state = .initialized)
    (hsrc : s.lat.src ≠ 0) (hdst : s.lat.dst ≠ 0) (hlen : lenArg s ≠ 0) (hlen8 : lenArg s % 8 = 0)
    (hs : Backed P s (srcAddr s) (lenArg s)) (hd : Backed P s (dstAddr s) (lenArg s)) :
    coreCheck P c s = .pass := by
  have hfit := not_overrun hs hd (by omega) (by omega)
  rw [coreCheck_eq, if_neg (by omega), if_neg (by simpa using hlive), if_neg hsrc, if_neg hdst, if_neg (by omega),
    if_neg hfit]

theorem oneshotCheck_eq_pass (hkey : s.lat.key ≠ 0) (hiv : s.lat.iv ≠ 0) (hmode : s.lat.mode = 1 ∨ s.lat.mode = 2)
    (hsrc : s.lat.src ≠ 0) (hdst : s.lat.dst ≠ 0) (hlen : lenArg s ≠ 0) (hlen8 : lenArg s % 8 = 0)
    (hk : Backed P s (keyAddr s) P.keyBytes) (hi : Backed P s (ivAddr s) 8)
    (hs : Backed P s (srcAddr s) (lenArg s)) (hd : Backed P s (dstAddr s) (lenArg s)) :
    oneshotCheck P s = .pass := by
  have hfit := not_overrun hs hd (by omega) (by omega)
  have hfit' := not_overrun hk hi P.keyBytes_pos (by omega)
  rw [oneshotCheck_eq, if_neg (not_or.mpr ⟨hkey, hiv⟩), if_neg (by tauto), if_neg hfit', if_neg hsrc, if_neg hdst,
    if_neg (by omega), if_neg hfit]

/-- OFB_CORE past its checks in the plain situation (R83). -/
theorem coreFrom_quiet {c : Nat} (hc : c < 15) (hlen8 : lenArg s % 8 = 0) (hq : Quiet s)
    (hs : Readable P s (srcAddr s) (lenArg s)) (hd : Backed P s (dstAddr s) (lenArg s)) :
    coreFrom P c 0 s = complete
      (setSlotFb P (setMem s (contentAt P (slotAt P s c).key (slotAt P s c).fb s (lenArg s / 8))) c
        (keystream P (slotAt P s c).key (slotAt P s c).fb (lenArg s / 8))) .ok := by
  have hn : 8 * blockCount s = lenArg s := by rw [blockCount]; omega
  rw [coreFrom, Nat.sub_zero, coreLoop_quiet hc hq (by rwa [hn]) (by rwa [hn]), streamFrom_fb]
  rfl

/-- OFB_ONESHOT's loop and its end in the plain situation, from what the scratch context holds (R91). -/
theorem oneshotFrom_quiet (hlen8 : lenArg s % 8 = 0) (hq : Quiet s) (hs : Readable P s (srcAddr s) (lenArg s))
    (hd : Backed P s (dstAddr s) (lenArg s)) :
    oneshotFrom P 0 s = complete
      (setScratch (setMem s (contentAt P s.scratch.key s.scratch.fb s (lenArg s / 8))) (zeroScratch P)) .ok := by
  have hn : 8 * blockCount s = lenArg s := by rw [blockCount]; omega
  rw [oneshotFrom, Nat.sub_zero, oneshotLoop_quiet hq (by rwa [hn]) (by rwa [hn])]
  rfl

/-- OFB_ONESHOT past its checks in the plain situation: key and IV are those in memory before it (R91). -/
theorem oneshotRun_quiet (hlen8 : lenArg s % 8 = 0) (hq : Quiet s)
    (hk : Readable P s (keyAddr s) P.keyBytes) (hi : Readable P s (ivAddr s) 8)
    (hs : Readable P s (srcAddr s) (lenArg s)) (hd : Backed P s (dstAddr s) (lenArg s)) :
    oneshotRun P s = complete
      (setScratch
        (setMem s (contentAt P (memString s.mem (keyAddr s) P.keyBytes) (memBlock s.mem (ivAddr s)) s
          (lenArg s / 8)))
        (zeroScratch P)) .ok := by
  rw [oneshotRun, oneshotBind, readKeyIv_quiet hq hk hi]
  exact oneshotFrom_quiet (s := setScratch s _) hlen8 hq hs hd

/-- Settles O37: past the checks both loops run to their end, through the contents before each pass. -/
theorem overlapFollowsOrder : Obligations.OverlapFollowsOrder := by
  refine ⟨fun c s hc hlive hsrc hdst hlen hlen8 hq hs hd => ?_,
    fun x s hkey hiv hmode hsrc hdst hlen hlen8 hq hk hi hs hd => ?_⟩
  · have hc15 := lt_fifteen hc
    have hexec : exec (.ofbCore c) s = .next (coreFrom Config.chip c 0 s) := by
      rw [exec, execOfbCore, ofbCore, coreCheck_eq_pass hc hlive hsrc hdst hlen hlen8 hs.1 hd, guarded_pass]
    rw [coreFrom_quiet hc15 hlen8 hq hs hd] at hexec
    exact ⟨_, hexec, rfl, slotAt_setSlotFb_same _ (setMem s _) _ hc15,
      fun d hdc => slotAt_setSlotFb_other _ (setMem s _) _ hdc, passesInOrder_contentAt rfl⟩
  · have hexec : exec (.ofbOneshot x) s = .next (oneshotRun Config.chip s) := by
      rw [exec, execOfbOneshot, ofbOneshot,
        oneshotCheck_eq_pass hkey hiv hmode hsrc hdst hlen hlen8 hk.1 hi.1 hs.1 hd, guarded_pass]
    rw [oneshotRun_quiet hlen8 hq hk hi hs hd] at hexec
    exact ⟨_, hexec, rfl, passesInOrder_contentAt rfl⟩

end Sys2Proof.Machine
end

section
/-! SUPPORT. The plain situation from step to step: the engine races no byte and announces no bus error, and neither
does a host that keeps its duty on the buffers (R57, R60, R134). -/

namespace Sys2Proof.Machine

variable {P : Params} {s t : State}

/-! ### The phases of a command -/

theorem SameControl.raced (h : SameControl s t) : t.raced = s.raced := by rw [h]

/-- A phase keeps the plain situation where it announces no bus error. -/
theorem SameControl.quiet (h : SameControl s t) (hb : s.busErrIn = none → t.busErrIn = none) (hq : Quiet s) :
    Quiet t :=
  ⟨h.raced.trans hq.1, hb hq.2⟩

/-- The announcement of a bus error, after the accesses of a block pass, is still none where it was. -/
theorem ofbBlock_busErrIn_none (P : Params) (ks : List Byte) (fb : Block) (j : Nat) (h : s.busErrIn = none) :
    (blockState (ofbBlock P ks fb j s)).busErrIn = none := by
  cases hr : ofbBlock P ks fb j s with
  | error e =>
    obtain ⟨k, b, f, rfl, rfl | rfl⟩ := ofbBlock_error hr <;> simp [blockState, h]
  | ok r =>
    obtain ⟨-, ht⟩ := ofbBlock_ok (f := r.1) (s' := r.2) hr
    simp [blockState, ht, h]

theorem quiet_coreBody (P : Params) (c j : Nat) (hq : Quiet s) : Quiet (outState (coreBody P c j s)) := by
  refine (sameControl_coreBody P c j s).quiet (fun h => ?_) hq
  have hb := ofbBlock_busErrIn_none P (slotAt P s c).key (slotAt P s c).fb j h
  unfold coreBody
  cases hr : ofbBlock P (slotAt P s c).key (slotAt P s c).fb j s <;> rw [hr] at hb <;> exact hb

theorem quiet_oneshotBody (P : Params) (j : Nat) (hq : Quiet s) : Quiet (outState (oneshotBody P j s)) := by
  refine (sameControl_oneshotBody P j s).quiet (fun h => ?_) hq
  have hb := ofbBlock_busErrIn_none P s.scratch.key s.scratch.fb j h
  unfold oneshotBody
  cases hr : ofbBlock P s.scratch.key s.scratch.fb j s <;> rw [hr] at hb <;> exact hb

theorem quiet_encodeBody (P : Params) (i : Nat) (hq : Quiet s) : Quiet (outState (encodeBody P i s)) := by
  refine (sameControl_encodeBody P i s).quiet (fun h => ?_) hq
  unfold encodeBody
  rcases writeByte_cases P s (dstAddr s + i) (expectedByte P (lenArg s) s.dbuf i) with ⟨-, hw⟩ | ⟨-, hw⟩ <;>
    simp [hw, outState, h]

theorem quiet_verifyBody (P : Params) (i : Nat) (hq : Quiet s) : Quiet (outState (verifyBody P i s)) := by
  refine (sameControl_verifyBody P i s).quiet (fun h => ?_) hq
  unfold verifyBody
  cases hr : readByte P s (srcAddr s + i) with
  | none => exact h
  | some r =>
    obtain ⟨-, ht, -⟩ := readByte_some (b := r.1) (s' := r.2) hr
    simp [outState, ht, h]

theorem quiet_captureDigest (P : Params) (hq : Quiet s) : Quiet (outState (captureDigest P s)) := by
  refine (sameControl_captureDigest P s).quiet (fun h => ?_) hq
  unfold captureDigest
  cases hr : readBytes P s (digAddr s) P.hashLen with
  | none => exact h
  | some r =>
    obtain ⟨-, ht, -⟩ := readBytes_some (bs := r.1) (s' := r.2) hr
    simp [outState, ht, h]

theorem quiet_verifyCapture (P : Params) (hq : Quiet s) : Quiet (outState (verifyCapture P s)) := by
  have hc := quiet_captureDigest P hq
  unfold verifyCapture
  cases hr : captureDigest P s <;> rw [hr] at hc <;> exact hc

theorem quiet_oneshotBind (P : Params) (hq : Quiet s) : Quiet (outState (oneshotBind P s)) := by
  refine (sameControl_oneshotBind P s).quiet (fun h => ?_) hq
  unfold oneshotBind
  cases hr : readKeyIv P s with
  | none => exact h
  | some r =>
    obtain ⟨-, ht⟩ := readKeyIv_some (kb := r.1) (iv := r.2.1) (s' := r.2.2) hr
    simp [outState, ht, h]

/-! ### Moves and runs of the engine -/

theorem quiet_complete (s : State) (k : StatusCode) : Quiet (complete s k) := ⟨rfl, rfl⟩

theorem quiet_raiseCmdFault (s : State) (n : FaultCause) : Quiet (raiseCmdFault s n) := ⟨rfl, rfl⟩

/-- A command's end forgets the records, and its first move past the checks keeps them. -/
theorem quiet_guarded {v : Verdict} {body : State → State} (h : Quiet (body s)) : Quiet (guarded v body s) :=
  guarded_keeps (quiet_complete s) (quiet_raiseCmdFault s) fun _ => h

theorem quiet_initBind (P : Params) (c : Nat) (s : State) : Quiet (initBind P c s) := by
  rcases initBind_frame P c s with h | ⟨kb, iv, b, f, -, h⟩ <;> rw [h] <;> exact ⟨rfl, rfl⟩

theorem quiet_startMove (P : Params) (i : Instr) (hq : Quiet s) : Quiet (startMove P i s) := by
  cases i with
  | ofbFinish c => exact quiet_guarded (quiet_complete _ _)
  | ofbInit c | ofbCore c | ofbOneshot x | pkcs1Encode x | pkcs1Verify x => exact quiet_guarded hq

/-- Every move of the engine keeps the plain situation. -/
theorem quiet_tick (P : Params) (hq : Quiet s) : Quiet (tick P s) := by
  cases hp : s.progress with
  | idle => rwa [tick_idle hp]
  | accepted =>
    cases hd : decode s.cmd with
    | illegal w => exact (tick_illegal (P := P) hp hd).symm ▸ quiet_raiseCmdFault s _
    | command i => exact (tick_command (P := P) hp hd).symm ▸ quiet_startMove P i hq
  | initReads c => exact (tick_initReads (P := P) hp).symm ▸ quiet_initBind P c s
  | core c j =>
    rw [tick_core hp]
    exact loopMove_of_keeps Quiet (quiet_coreBody P c j hq) (fun _ _ => quiet_raiseCmdFault _ _) (fun _ _ h => h)
      (quiet_complete _ _)
  | oneshotReads =>
    rw [tick_oneshotReads hp]
    exact andThen_of_keeps Quiet (quiet_oneshotBind P hq) (fun _ _ => quiet_raiseCmdFault _ _) (fun _ h => h)
  | oneshot j =>
    rw [tick_oneshot hp]
    exact loopMove_of_keeps Quiet (quiet_oneshotBody P j hq) (fun _ _ => quiet_raiseCmdFault _ _) (fun _ _ h => h)
      (quiet_complete _ _)
  | encodeDigest =>
    rw [tick_encodeDigest hp]
    exact andThen_of_keeps Quiet (quiet_captureDigest P hq) (fun _ _ => quiet_raiseCmdFault _ _) (fun _ h => h)
  | encode i =>
    rw [tick_encode hp]
    exact loopMove_of_keeps Quiet (quiet_encodeBody P i hq) (fun _ _ => quiet_raiseCmdFault _ _) (fun _ _ h => h)
      (quiet_complete _ _)
  | verifyDigest =>
    rw [tick_verifyDigest hp]
    exact andThen_of_keeps Quiet (quiet_verifyCapture P hq) (fun _ _ => quiet_raiseCmdFault _ _) (fun _ h => h)
  | verify i =>
    rw [tick_verify hp]
    exact loopMove_of_keeps Quiet (quiet_verifyBody P i hq) (fun _ _ => quiet_raiseCmdFault _ _) (fun _ _ h => h)
      (quiet_complete _ _)

/-- Where both what follows a phase's failure and what follows its success forget the records, so does the whole. -/
theorem quiet_andThen {r : Except State State} {fail next : State → State} (hfail : ∀ e, Quiet (fail e))
    (hnext : ∀ e, Quiet (next e)) : Quiet (andThen r fail next) :=
  andThen_of_keeps (fun _ => True) trivial (fun e _ => hfail e) (fun e _ => hnext e)

/-- The engine's run to the end of a command past its checks keeps the plain situation. -/
theorem quiet_resume (P : Params) (hq : Quiet s) : Quiet (resume P s) := by
  have hfault : ∀ e, Quiet (busFault e) := fun e => quiet_raiseCmdFault e _
  have hofault : ∀ e, Quiet (oneshotFault P e) := fun _ => quiet_raiseCmdFault _ _
  unfold resume
  split
  case h_1 => exact hq
  case h_2 => exact hq
  case h_3 c _ => exact quiet_initBind P c s
  case h_4 => exact quiet_andThen hfault fun _ => quiet_complete _ _
  case h_5 => exact quiet_andThen hofault fun _ => quiet_andThen hofault fun _ => quiet_complete _ _
  case h_6 => exact quiet_andThen hofault fun _ => quiet_complete _ _
  case h_7 => exact quiet_andThen hfault fun _ => quiet_andThen hfault fun _ => quiet_complete _ _
  case h_8 => exact quiet_andThen hfault fun _ => quiet_complete _ _
  case h_9 => exact quiet_andThen hfault fun _ => quiet_andThen hfault fun _ => quiet_complete _ _
  case h_10 => exact quiet_andThen hfault fun _ => quiet_complete _ _

/-- Every command forgets the records when it ends. -/
theorem quiet_exec {i : Instr} (h : exec i s = .next t) : Quiet t := by
  obtain ⟨b, -, ⟨k, rfl⟩ | ⟨n, rfl⟩⟩ := exec_ends h
  · exact quiet_complete b k
  · exact quiet_raiseCmdFault b n

theorem quiet_engineRun (hq : Quiet s) (h : engineRun Config.chip exec s = .next t) : Quiet t := by
  unfold engineRun at h
  split at h
  · split at h
    · cases h
      exact quiet_raiseCmdFault s _
    · exact quiet_exec h
  · cases h
    exact quiet_resume _ hq

/-- No move or run of the engine races a byte. -/
theorem Moved.raced (h : Moved s t) (hr : s.raced = []) : t.raced = [] := by
  cases h with
  | completed k h => rfl
  | faulted n h => rfl
  | at_position p h => exact h.raced.trans hr

/-! ### Host accesses and the other events -/

/-- What an event other than an announced bus error keeps of the records: no byte is raced that was not, and no bus
error is announced that was not. -/
structure KeepsRecords (s t : State) : Prop where
  raced : s.raced = [] → t.raced = []
  busErrIn : s.busErrIn = none → t.busErrIn = none

theorem KeepsRecords.of_eq (hr : t.raced = s.raced) (hb : t.busErrIn = s.busErrIn) : KeepsRecords s t :=
  ⟨fun h => hr.trans h, fun h => hb.trans h⟩

theorem keepsRecords_writeReg (s : State) (r : RegName) (v : Word) : KeepsRecords s (writeReg s r v) := by
  cases r
  case cmd =>
    simp only [writeReg, writeCmd]
    split
    · exact .of_eq rfl rfl
    · exact ⟨fun _ => rfl, fun _ => rfl⟩
  case status =>
    simp only [writeReg]
    split <;> exact .of_eq rfl rfl
  all_goals exact .of_eq rfl rfl

/-- A host access by R134 keeps the records: a write to data memory while a command runs is outside its buffers. -/
theorem keepsRecords_hostAccess {op : HostOp} (hduty : DutyBuffers P (.host op) s) :
    KeepsRecords s (hostAccess P op s) := by
  cases op with
  | read addr width =>
    simp only [hostAccess, hostRead]
    split <;> exact .of_eq rfl rfl
  | write addr width v =>
    simp only [hostAccess, hostWrite]
    split
    · exact .of_eq rfl rfl
    · exact .of_eq rfl rfl
    · have hw := keepsRecords_writeReg s
      exact ⟨(hw _ v).raced, (hw _ v).busErrIn⟩
  | memRead a =>
    simp only [hostAccess, hostMemRead]
    split_ifs <;> exact .of_eq rfl rfl
  | memWrite a b =>
    have hout : (s.busy && inSomeBuffer P s a) = false := by
      cases hb : s.busy with
      | false => rfl
      | true => exact (hduty hb).1 a b rfl
    simp only [hostAccess, hostMemWrite, hout]
    split <;> exact .of_eq rfl rfl

theorem keepsRecords_losePower (P : Params) (s : State) : KeepsRecords s (losePower P s) := by
  unfold losePower abandon
  split <;> exact .of_eq rfl rfl

theorem armBusError_raced (n : Nat) (s : State) : (armBusError n s).raced = s.raced := by
  unfold armBusError
  split <;> rfl

theorem KeepsRecords.quiet (h : KeepsRecords s t) (hq : Quiet s) : Quiet t := ⟨h.raced hq.1, h.busErrIn hq.2⟩

/-- Where a host access keeps R134, no event races a byte, and none but an announced bus error ends the plain
situation. -/
theorem quiet_onEvent {e : Event} (hduty : DutyBuffers Config.chip e s) (hr : s.raced = [])
    (h : onEvent Config.chip exec e s = .next t) :
    t.raced = [] ∧ ((∀ n, e ≠ .busError n) → s.busErrIn = none → Quiet t) := by
  cases e with
  | host op =>
    cases h
    have hk := keepsRecords_hostAccess hduty
    exact ⟨hk.raced hr, fun _ hb => hk.quiet ⟨hr, hb⟩⟩
  | run => exact ⟨(moved_engineRun h).raced hr, fun _ hb => quiet_engineRun ⟨hr, hb⟩ h⟩
  | tick =>
    cases h
    exact ⟨(moved_tick _ s).raced hr, fun _ hb => quiet_tick _ ⟨hr, hb⟩⟩
  | reset =>
    cases h
    exact ⟨rfl, fun _ _ => ⟨rfl, rfl⟩⟩
  | powerLoss =>
    cases h
    have hk := keepsRecords_losePower Config.chip s
    exact ⟨hk.raced hr, fun _ hb => hk.quiet ⟨hr, hb⟩⟩
  | busError n =>
    cases h
    exact ⟨(armBusError_raced n s).trans hr, fun he => absurd rfl (he n)⟩

/-- The step of a powered block that takes an event. -/
theorem step_event {e : Event} {rest : List Event} (hp : s.powered = true) (henv : s.env = e :: rest) :
    step s = onEvent Config.chip exec e { s with env := rest } := by
  simp only [step, move, henv, hp, if_true]

/-- The step of a powered block with no event pending (R141). -/
theorem step_no_event (hp : s.powered = true) (henv : s.env = []) : step s = engineRun Config.chip exec s := by
  simp only [step, move, henv, hp, if_true]

/-- Settles O54: event by event, and by the engine's run where none is pending. -/
theorem dutyKeepsQuiet : Obligations.DutyKeepsQuiet := by
  refine ⟨fun s t e rest hp henv hduty hr h => ?_, fun s t hp henv hq h => ?_⟩
  · rw [step_event hp henv] at h
    exact quiet_onEvent (s := { s with env := rest }) hduty hr h
  · rw [step_no_event hp henv] at h
    exact quiet_engineRun hq h

end Sys2Proof.Machine
end

section
/-! SUPPORT. The engine's moves, one after another, and the command as one indivisible step (R57): no phase reads its
own position, so a loop run move by move ends where the loop run at once does. -/

namespace Sys2Proof.Machine

variable {P : Params} {s t : State}

/-! ### No phase reads the engine's position (R41) -/

/-- An outcome of a phase with the engine's position replaced. -/
def setProgressOut (p : Progress) : Except State State → Except State State
  | .ok s => .ok (setProgress s p)
  | .error s => .error (setProgress s p)

/-- An outcome of a block pass with the engine's position replaced. -/
def setProgressBlock (p : Progress) : Except State (Block × State) → Except State (Block × State)
  | .ok r => .ok (r.1, setProgress r.2 p)
  | .error s => .error (setProgress s p)

theorem accessFails_setProgress (P : Params) (s : State) (p : Progress) (a n : Nat) :
    accessFails P (setProgress s p) a n = accessFails P s a n := rfl

theorem afterRead_setProgress (s : State) (p : Progress) (a n : Nat) :
    afterRead (setProgress s p) a n = setProgress (afterRead s a n) p := by
  unfold afterRead
  rw [setProgress_raced, setProgress_volatile]
  split <;> rfl

theorem readBytes_setProgress (P : Params) (s : State) (p : Progress) (a n : Nat) :
    readBytes P (setProgress s p) a n = (readBytes P s a n).map fun r => (r.1, setProgress r.2 p) := by
  unfold readBytes
  rw [accessFails_setProgress, afterRead_setProgress]
  split <;> rfl

theorem readBlock_setProgress (P : Params) (s : State) (p : Progress) (a : Nat) :
    readBlock P (setProgress s p) a = (readBlock P s a).map fun r => (r.1, setProgress r.2 p) := by
  unfold readBlock
  rw [accessFails_setProgress, afterRead_setProgress]
  split <;> rfl

theorem readByte_setProgress (P : Params) (s : State) (p : Progress) (a : Nat) :
    readByte P (setProgress s p) a = (readByte P s a).map fun r => (r.1, setProgress r.2 p) := by
  unfold readByte
  rw [accessFails_setProgress, afterRead_setProgress]
  split <;> rfl

theorem writeBlock_setProgress (P : Params) (s : State) (p : Progress) (a : Nat) (blk : Block) :
    writeBlock P (setProgress s p) a blk = setProgressOut p (writeBlock P s a blk) := by
  unfold writeBlock
  rw [accessFails_setProgress]
  split <;> rfl

theorem readKeyIv_setProgress (P : Params) (s : State) (p : Progress) :
    readKeyIv P (setProgress s p) = (readKeyIv P s).map fun r => (r.1, r.2.1, setProgress r.2.2 p) := by
  unfold readKeyIv
  rw [readBytes_setProgress, show keyAddr (setProgress s p) = keyAddr s from rfl]
  cases readBytes P s (keyAddr s) P.keyBytes with
  | none => rfl
  | some r =>
    simp only [Option.map_some, readBlock_setProgress, show ivAddr (setProgress s p) = ivAddr s from rfl]
    cases readBlock P r.2 (ivAddr s) <;> rfl

theorem ofbBlock_setProgress (P : Params) (ks : List Byte) (fb : Block) (j : Nat) (s : State) (p : Progress) :
    ofbBlock P ks fb j (setProgress s p) = setProgressBlock p (ofbBlock P ks fb j s) := by
  unfold ofbBlock
  rw [readBlock_setProgress, show srcAddr (setProgress s p) = srcAddr s from rfl,
    show dstAddr (setProgress s p) = dstAddr s from rfl]
  cases readBlock P s (srcAddr s + 8 * j) with
  | none => rfl
  | some r =>
    simp only [Option.map_some, writeBlock_setProgress]
    cases writeBlock P r.2 (dstAddr s + 8 * j) (ofbStep P ks fb r.1).1 <;> rfl

theorem coreBody_setProgress (P : Params) (c j : Nat) (s : State) (p : Progress) :
    coreBody P c j (setProgress s p) = setProgressOut p (coreBody P c j s) := by
  unfold coreBody
  rw [ofbBlock_setProgress, show slotAt P (setProgress s p) c = slotAt P s c from rfl]
  cases ofbBlock P (slotAt P s c).key (slotAt P s c).fb j s <;> rfl

theorem oneshotBody_setProgress (P : Params) (j : Nat) (s : State) (p : Progress) :
    oneshotBody P j (setProgress s p) = setProgressOut p (oneshotBody P j s) := by
  unfold oneshotBody
  rw [ofbBlock_setProgress, setProgress_scratch]
  cases ofbBlock P s.scratch.key s.scratch.fb j s <;> rfl

theorem encodeBody_setProgress (P : Params) (i : Nat) (s : State) (p : Progress) :
    encodeBody P i (setProgress s p) = setProgressOut p (encodeBody P i s) := by
  unfold encodeBody writeByte
  rw [accessFails_setProgress, show dstAddr (setProgress s p) = dstAddr s from rfl]
  split <;> rfl

theorem verifyBody_setProgress (P : Params) (i : Nat) (s : State) (p : Progress) :
    verifyBody P i (setProgress s p) = setProgressOut p (verifyBody P i s) := by
  unfold verifyBody
  rw [readByte_setProgress, show srcAddr (setProgress s p) = srcAddr s from rfl]
  cases readByte P s (srcAddr s + i) <;> rfl

theorem captureDigest_setProgress (P : Params) (s : State) (p : Progress) :
    captureDigest P (setProgress s p) = setProgressOut p (captureDigest P s) := by
  unfold captureDigest
  rw [readBytes_setProgress, show digAddr (setProgress s p) = digAddr s from rfl]
  cases readBytes P s (digAddr s) P.hashLen <;> rfl

theorem verifyCapture_setProgress (P : Params) (s : State) (p : Progress) :
    verifyCapture P (setProgress s p) = setProgressOut p (verifyCapture P s) := by
  unfold verifyCapture
  rw [captureDigest_setProgress]
  cases captureDigest P s <;> rfl

theorem oneshotBind_setProgress (P : Params) (s : State) (p : Progress) :
    oneshotBind P (setProgress s p) = setProgressOut p (oneshotBind P s) := by
  unfold oneshotBind
  rw [readKeyIv_setProgress]
  cases readKeyIv P s <;> rfl

/-- The end of OFB_INIT is idle, wherever it began. -/
theorem initBind_setProgress (P : Params) (c : Nat) (s : State) (p : Progress) :
    initBind P c (setProgress s p) = initBind P c s := by
  unfold initBind
  rw [readKeyIv_setProgress]
  cases readKeyIv P s <;> rfl

/-- A phase and its ends, from another position, where the ends forget the position. -/
theorem andThen_setProgressOut {p : Progress} {r : Except State State} {fail next : State → State}
    (hfail : ∀ u, fail (setProgress u p) = fail u) (hnext : ∀ u, next (setProgress u p) = next u) :
    andThen (setProgressOut p r) fail next = andThen r fail next := by
  cases r with
  | error e => exact hfail e
  | ok u => exact hnext u

/-! ### Moves reach the end of a loop -/

/-- Some number of the engine's moves lead from `s` to `t`. -/
def Reaches (P : Params) (s t : State) : Prop := ∃ n, (tick P)^[n] s = t

/-- One move, and then those that follow. -/
theorem Reaches.of_tick (h : Reaches P (tick P s) t) : Reaches P s t := by
  obtain ⟨n, hn⟩ := h
  exact ⟨n + 1, hn⟩

theorem Reaches.of_tick_eq (h : tick P s = t) : Reaches P s t := ⟨1, h⟩

/-- What a loop of the engine is: at position `at' j` a move is one of the loop, which counts to `count`; no pass of its
body changes the count, and neither its body nor its ends read the engine's position. -/
structure EngineLoop (P : Params) (body : Nat → State → Except State State) (count : State → Nat)
    (at' : Nat → Progress) (fail done : State → State) : Prop where
  tick_eq : ∀ {j u}, u.progress = at' j → tick P u = loopMove body (count u) j at' fail done u
  count_eq : ∀ {j u v}, body j u = .ok v → count v = count u
  count_setProgress : ∀ u p, count (setProgress u p) = count u
  body_setProgress : ∀ j u p, body j (setProgress u p) = setProgressOut p (body j u)
  fail_setProgress : ∀ u p, fail (setProgress u p) = fail u
  done_setProgress : ∀ u p, done (setProgress u p) = done u

section
variable {body : Nat → State → Except State State} {count : State → Nat} {at' : Nat → Progress}
  {fail done : State → State}

theorem EngineLoop.forLoop_setProgress (h : EngineLoop P body count at' fail done) (n j : Nat) (s : State)
    (p : Progress) : forLoop body n j (setProgress s p) = setProgressOut p (forLoop body n j s) := by
  induction n generalizing j s with
  | zero => rfl
  | succ n ih =>
    rw [forLoop, forLoop, h.body_setProgress]
    cases body j s with
    | error e => rfl
    | ok u => exact ih (j + 1) u

/-- The loop at once, from another position. -/
theorem EngineLoop.andThen_setProgress (h : EngineLoop P body count at' fail done) (n j : Nat) (s : State)
    (p : Progress) :
    andThen (forLoop body n j (setProgress s p)) fail done = andThen (forLoop body n j s) fail done := by
  rw [h.forLoop_setProgress]
  exact andThen_setProgressOut (h.fail_setProgress · p) (h.done_setProgress · p)

/-- From its position `j` on, the loop move by move ends where the loop at once does: by induction on the passes that
are left, each of them one move, and the loop's end one more. -/
theorem EngineLoop.reaches (h : EngineLoop P body count at' fail done) {n j : Nat} (hp : s.progress = at' j)
    (hn : count s - j = n) : Reaches P s (andThen (forLoop body n j s) fail done) := by
  have htick := h.tick_eq hp
  induction n generalizing j s with
  | zero =>
    rw [loopMove, if_neg (by omega)] at htick
    exact .of_tick_eq htick
  | succ n ih =>
    rw [loopMove, if_pos (by omega)] at htick
    rw [forLoop]
    cases hb : body j s with
    | error e =>
      rw [hb] at htick
      exact .of_tick_eq htick
    | ok u =>
      rw [hb, andThen_ok] at htick
      have hcount : count (setProgress u (at' (j + 1))) = count s :=
        (h.count_setProgress u _).trans (h.count_eq hb)
      have hrest := ih (s := setProgress u (at' (j + 1))) (j := j + 1) rfl (by omega) (h.tick_eq rfl)
      rw [h.andThen_setProgress] at hrest
      exact .of_tick (htick ▸ hrest)

/-- The loop from its first pass, entered from any position. -/
theorem EngineLoop.reaches_of_setProgress (h : EngineLoop P body count at' fail done) (s : State) :
    Reaches P (setProgress s (at' 0)) (andThen (forLoop body (count s - 0) 0 s) fail done) := by
  have hr := h.reaches (s := setProgress s (at' 0)) (n := count s - 0) rfl (by rw [h.count_setProgress])
  rwa [h.andThen_setProgress] at hr

end

/-- What a body that succeeds leaves of the latched operands. -/
theorem sameControl_of_ok {r : Except State State} (h : SameControl s (outState r)) (hr : r = .ok t) :
    SameControl s t := by
  subst hr
  exact h

theorem engineLoop_core (P : Params) (c : Nat) :
    EngineLoop P (coreBody P c) blockCount (.core c) busFault coreDone where
  tick_eq := tick_core
  count_eq hb := (sameControl_of_ok (sameControl_coreBody P c _ _) hb).blockCount
  count_setProgress _ _ := rfl
  body_setProgress := coreBody_setProgress P c
  fail_setProgress _ _ := rfl
  done_setProgress _ _ := rfl

theorem engineLoop_oneshot (P : Params) :
    EngineLoop P (oneshotBody P) blockCount .oneshot (oneshotFault P) (oneshotDone P) where
  tick_eq := tick_oneshot
  count_eq hb := (sameControl_of_ok (sameControl_oneshotBody P _ _) hb).blockCount
  count_setProgress _ _ := rfl
  body_setProgress := oneshotBody_setProgress P
  fail_setProgress _ _ := rfl
  done_setProgress _ _ := rfl

theorem engineLoop_encode (P : Params) : EngineLoop P (encodeBody P) lenArg .encode busFault encodeDone where
  tick_eq := tick_encode
  count_eq hb := (sameControl_of_ok (sameControl_encodeBody P _ _) hb).lenArg
  count_setProgress _ _ := rfl
  body_setProgress := encodeBody_setProgress P
  fail_setProgress _ _ := rfl
  done_setProgress _ _ := rfl

theorem engineLoop_verify (P : Params) : EngineLoop P (verifyBody P) lenArg .verify busFault verifyDone where
  tick_eq := tick_verify
  count_eq hb := (sameControl_of_ok (sameControl_verifyBody P _ _) hb).lenArg
  count_setProgress _ _ := rfl
  body_setProgress := verifyBody_setProgress P
  fail_setProgress _ _ := rfl
  done_setProgress _ _ := rfl

/-! ### Moves reach the end of a command -/

/-- A read phase that is one move, then the rest of its command: the moves reach what the phase and the rest give at
once, from the position that the checks left. -/
theorem reaches_andThen {r : Except State State} {p q : Progress} {fail next : State → State}
    (htick : tick P (setProgress s p) = andThen (setProgressOut p r) fail (fun u => setProgress u q))
    (hfail : ∀ u, fail (setProgress u p) = fail u) (hnext : ∀ u, Reaches P (setProgress u q) (next u)) :
    Reaches P (setProgress s p) (andThen r fail next) := by
  cases r with
  | error e => exact .of_tick_eq (htick.trans (hfail e))
  | ok u => exact .of_tick (htick ▸ hnext u)

theorem reaches_coreFrom (P : Params) (c : Nat) (s : State) :
    Reaches P (setProgress s (.core c 0)) (coreFrom P c 0 s) :=
  (engineLoop_core P c).reaches_of_setProgress s

theorem reaches_oneshotRun (P : Params) (s : State) :
    Reaches P (setProgress s .oneshotReads) (oneshotRun P s) :=
  reaches_andThen (by rw [tick_oneshotReads rfl, oneshotBind_setProgress]) (fun _ => rfl)
    (engineLoop_oneshot P).reaches_of_setProgress

theorem reaches_encodeRun (P : Params) (s : State) :
    Reaches P (setProgress s .encodeDigest) (encodeRun P s) :=
  reaches_andThen (by rw [tick_encodeDigest rfl, captureDigest_setProgress]) (fun _ => rfl)
    (engineLoop_encode P).reaches_of_setProgress

theorem reaches_verifyRun (P : Params) (s : State) :
    Reaches P (setProgress s .verifyDigest) (verifyRun P s) :=
  reaches_andThen (by rw [tick_verifyDigest rfl, verifyCapture_setProgress]) (fun _ => rfl)
    (engineLoop_verify P).reaches_of_setProgress

theorem reaches_initBind (P : Params) (c : Nat) (s : State) :
    Reaches P (setProgress s (.initReads c)) (initBind P c s) :=
  .of_tick_eq (by rw [tick_initReads rfl, initBind_setProgress])

/-- A command whose first move is its checks: turned away in that move, or its body is reached from its first phase. -/
theorem reaches_guarded {v : Verdict} {p : Progress} {body : State → State}
    (htick : tick P s = guarded v (fun u => setProgress u p) s) (hbody : Reaches P (setProgress s p) (body s)) :
    Reaches P s (guarded v body s) := by
  cases v with
  | reject k => exact .of_tick_eq htick
  | fault n => exact .of_tick_eq htick
  | pass => exact .of_tick (htick ▸ hbody)

/-- Settles O57: command by command, its checks in one move, its read phase in one and each pass of its loop in one. -/
theorem movesReachMeaning : Obligations.MovesReachMeaning := by
  intro s t i hp hd h
  have htick : tick Config.chip s = startMove Config.chip i s := tick_command hp hd
  show Reaches Config.chip s t
  cases i with
  | ofbInit c =>
    cases h
    exact reaches_guarded htick (reaches_initBind _ c s)
  | ofbCore c =>
    cases h
    exact reaches_guarded htick (reaches_coreFrom _ c s)
  | ofbFinish c =>
    cases h
    exact .of_tick_eq htick
  | ofbOneshot x =>
    cases h
    exact reaches_guarded htick (reaches_oneshotRun _ s)
  | pkcs1Encode x =>
    cases h
    exact reaches_guarded htick (reaches_encodeRun _ s)
  | pkcs1Verify x =>
    cases h
    exact reaches_guarded htick (reaches_verifyRun _ s)

end Sys2Proof.Machine
end

section
/-! SUPPORT. What a read of a raced byte can return (R55, R60): the lists of choices, and each value reached. -/

namespace Sys2Proof.Machine

variable {P : Params} {s : State} {a : Nat}

/-- An engine read of a byte without read side effects gives its choices, each for some free value. -/
theorem readsOneOf_readChoices (h : hasReadEffect s.volatile a = false) {vs : List Byte}
    (hvs : ∀ v, v ∈ readChoices s a ↔ v ∈ vs) : ReadsOneOf P s a vs := by
  refine ⟨fun k => (hvs _).mp (engineByte_mem P k h), fun k v hv => ?_⟩
  obtain ⟨n, hn⟩ := freeChoice_reaches ((hvs v).mpr hv)
  exact ⟨n, by rw [engineByte, h]; exact hn P k⟩

/-- A byte without read side effects whose address no host raced reads as it is in memory. -/
theorem engineByte_unraced (P : Params) (k : Nat) (h : hasReadEffect s.volatile a = false)
    (hr : ∀ c ∈ s.raced, c.1 ≠ a) : engineByte P s a k = memGet s.mem a := by
  have hchoices : readChoices s a = [memGet s.mem a] := by simpa [readChoices] using hr
  simpa [hchoices] using engineByte_mem P k h

/-- A byte with read side effects reads as any value (R55). -/
theorem engineByte_of_hasReadEffect (P : Params) (k : Nat) (v : Byte) (h : hasReadEffect s.volatile a = true) :
    engineByte { P with free := fun _ => v.toNat } s a k = v := by
  simp [engineByte, h]

/-- What a host's read of an output byte of the running command answers (R60). -/
theorem hostMemRead_output (P : Params) (hbusy : s.busy = true) (hout : inOutput s a = true)
    (hb : backed P s.ram a = true) (h : hasReadEffect s.volatile a = false) :
    (hostAccess P (.memRead a) s).resp = .byte (freeChoice P s.free (outputChoices s a)) := by
  simp [hostAccess, hostMemRead, hb, h, hbusy, hout]

/-- A host read of an output byte gives its choices, each for some free value. -/
theorem hostReadsOneOf_outputChoices (hbusy : s.busy = true) (hout : inOutput s a = true)
    (hb : backed P s.ram a = true) (h : hasReadEffect s.volatile a = false) {vs : List Byte}
    (hvs : ∀ v, v ∈ outputChoices s a ↔ v ∈ vs) : HostReadsOneOf P s a vs := by
  refine ⟨⟨_, (hvs _).mp (freeChoice_mem P s.free (by simp [outputChoices])), hostMemRead_output P hbusy hout hb h⟩,
    fun v hv => ?_⟩
  obtain ⟨n, hn⟩ := freeChoice_reaches ((hvs v).mpr hv)
  exact ⟨n, by rw [hostMemRead_output { P with free := fun _ => n } hbusy hout hb h, hn P]⟩

/-- The state after a host raced the byte at `a` of a running command's buffers, the first to do so: `b` is in memory,
and the value before and `b` are kept among those a read may return. -/
def racedState (s : State) (a : Nat) (b : Byte) : State :=
  respond { setMem s (memSet s.mem a b) with raced := [(a, b), (a, memGet s.mem a)] } .written

theorem hostMemWrite_race {b : Byte} (hbusy : s.busy = true) (hbuf : inSomeBuffer P s a = true)
    (hraced : s.raced = []) (hb : backed P s.ram a = true) :
    hostAccess P (.memWrite a b) s = racedState s a b := by
  simp [hostAccess, hostMemWrite, hb, hbusy, hbuf, hraced, racedState]

theorem readChoices_racedState (s : State) (a : Nat) (b : Byte) :
    readChoices (racedState s a b) a = [b, b, memGet s.mem a] := by
  simp [readChoices, racedState]

/-- The state after the engine then wrote `e` to the raced byte. -/
def rewrittenState (s : State) (a : Nat) (b e : Byte) : State :=
  setMem (racedState s a b) (memSet (racedState s a b).mem a e)

/-- The engine's own write to a raced byte replaces the value in memory only. -/
theorem readChoices_rewrittenState (s : State) (a : Nat) (b e : Byte) :
    readChoices (rewrittenState s a b e) a = [e, b, memGet s.mem a] := by
  simp [readChoices, rewrittenState, racedState]

theorem readsOneOf_rewrittenState (b e : Byte) (h : hasReadEffect s.volatile a = false) :
    ReadsOneOf P (rewrittenState s a b e) a [e, b, memGet s.mem a] :=
  readsOneOf_readChoices (s := rewrittenState s a b e) h fun _ => by rw [readChoices_rewrittenState]

theorem hostReadsOneOf_rewrittenState (b e : Byte) (hbusy : s.busy = true) (hout : inOutput s a = true)
    (hb : backed P s.ram a = true) (h : hasReadEffect s.volatile a = false) :
    HostReadsOneOf P (rewrittenState s a b e) a [memGet s.accMem a, e, b, memGet s.mem a] :=
  hostReadsOneOf_outputChoices (s := rewrittenState s a b e) hbusy hout hb h fun _ => by
    rw [outputChoices, readChoices_rewrittenState]
    rfl

theorem engineByte_racedState_other {x : Nat} (P : Params) (b : Byte) (k : Nat) (hx : x ≠ a)
    (h : hasReadEffect s.volatile x = false) : engineByte P (racedState s a b) x k = memGet s.mem x := by
  rw [engineByte_unraced (s := racedState s a b) P k h (by simp [racedState, hx.symm])]
  exact memGet_memSet_other _ _ hx

/-- Settles O53: each list is that of the choices, and a free value reaches each of its members. -/
theorem racesGiveOldOrNew : Obligations.RacesGiveOldOrNew := by
  refine ⟨fun P s a k h hraced => engineByte_unraced P k h (by simp [hraced]),
    fun P s a k v h => ⟨_, engineByte_of_hasReadEffect P k v h⟩,
    fun P s a b hbusy hbuf hraced hb h => ?_, fun P s a hbusy hout hb h hraced => ?_⟩
  · rw [hostMemWrite_race hbusy hbuf hraced hb]
    refine ⟨memGet_memSet_same _ _ _, readsOneOf_readChoices (s := racedState s a b) h ?_,
      fun x k hx hpx => engineByte_racedState_other P b k hx hpx,
      fun e => ⟨readsOneOf_rewrittenState b e h, fun hout => hostReadsOneOf_rewrittenState b e hbusy hout hb h⟩⟩
    simp [readChoices_racedState]
  · refine hostReadsOneOf_outputChoices hbusy hout hb h ?_
    simp [outputChoices, readChoices, hraced]

end Sys2Proof.Machine
end

section
/-! SUPPORT. The command word (R66 to R75): the fields of an encoded command, the decoder by the fields of the word, and
the step that meets an accepted word. -/

namespace Sys2Proof.Machine

variable {s : State} {w : Word} {i : Instr} {rest : List Event}

/-! ### The fields of a word -/

/-- The fields of a well-formed command's word, whatever the command (R66, R68). -/
theorem encode_fields (h : i.WellFormed) :
    opcField (encode i) = i.opcode ∧ (ctxField (encode i)).toNat = i.ctx ∧ rsvField (encode i) = 0 :=
  Laws.EncodingFields.fields_of_sum i.opcode i.ctx h

/-- Without reserved bits, OPC and CTX are the whole word (R66). -/
theorem ofNat_opcField_ctxField (h : rsvField w = 0) :
    BitVec.ofNat 32 ((opcField w).toNat + 2 ^ 8 * (ctxField w).toNat) = w := by
  have hw := w.isLt
  have hrsv : w.toNat / 2 ^ 12 % 2 ^ 20 = 0 := (field_toNat w 12 20).symm.trans (congrArg BitVec.toNat h)
  apply BitVec.eq_of_toNat_eq
  rw [BitVec.toNat_ofNat, opcField, ctxField, field_toNat, field_toNat]
  omega

/-! ### The decoder by the fields -/

/-- The words that decode to a command: no reserved bit, its opcode in OPC, its number in CTX (R66, R68, R72). -/
theorem decode_eq_command_iff :
    decode w = .command i ↔ rsvField w = 0 ∧ opcField w = i.opcode ∧ (ctxField w).toNat = i.ctx := by
  constructor
  · intro h
    unfold decode at h
    split_ifs at h with hrsv hop hop hop hop hop hop <;> cases h <;> exact ⟨not_not.mp hrsv, hop, rfl⟩
  · rintro ⟨hrsv, hop, hctx⟩
    cases i <;> simp [decode, hrsv, hop, hctx, Instr.opcode, Instr.ctx]

/-- Settles O1: the three fields of an encoded command are what the decoder asks for. -/
theorem decodeOfEncode : Obligations.DecodeOfEncode := by
  intro i h
  obtain ⟨hop, hctx, hrsv⟩ := encode_fields h
  exact decode_eq_command_iff.mpr ⟨hrsv, hop, hctx⟩

/-- Settles O2: CTX is a 4-bit number, and a word without reserved bits is made of OPC and CTX. -/
theorem encodeOfDecode : Obligations.EncodeOfDecode := by
  intro w i h
  obtain ⟨hrsv, hop, hctx⟩ := decode_eq_command_iff.mp h
  constructor
  · exact hctx.symm.trans_lt (ctxField w).isLt
  · rw [encode, ← hop, ← hctx, ofNat_opcField_ctxField hrsv]

/-- A reserved bit decides before the opcode (R72, R73). -/
theorem decode_of_rsvField_ne_zero (h : rsvField w ≠ 0) : decode w = .illegal .reservedBits := if_pos h

/-- Settles O3: the fields of each word, read off. -/
theorem specWordsDecode : Obligations.SpecWordsDecode :=
  ⟨decode_eq_command_iff.mpr ⟨rfl, rfl, rfl⟩, decode_eq_command_iff.mpr ⟨rfl, rfl, rfl⟩,
    decode_eq_command_iff.mpr ⟨rfl, rfl, rfl⟩, decode_eq_command_iff.mpr ⟨rfl, rfl, rfl⟩,
    decode_eq_command_iff.mpr ⟨rfl, rfl, rfl⟩, decode_eq_command_iff.mpr ⟨rfl, rfl, rfl⟩,
    decode_eq_command_iff.mpr ⟨rfl, rfl, rfl⟩, decode_of_rsvField_ne_zero (by decide)⟩

/-- The words that are no command: a reserved bit, or none of the six opcodes (R73). -/
theorem decode_illegal_iff : (∃ why, decode w = .illegal why) ↔
    rsvField w ≠ 0 ∨ (opcField w ≠ 0x01 ∧ opcField w ≠ 0x02 ∧ opcField w ≠ 0x03 ∧ opcField w ≠ 0x04 ∧
      opcField w ≠ 0x10 ∧ opcField w ≠ 0x11) := by
  unfold decode
  split_ifs <;> simp_all

/-- The bytes that are no opcode, as the ranges of R73. -/
theorem undefinedOpcode_iff (b : BitVec 8) :
    (b ≠ 0x01 ∧ b ≠ 0x02 ∧ b ≠ 0x03 ∧ b ≠ 0x04 ∧ b ≠ 0x10 ∧ b ≠ 0x11) ↔
      (b = 0x00 ∨ (0x05 ≤ b.toNat ∧ b.toNat ≤ 0x0F) ∨ 0x12 ≤ b.toNat) := by
  bv_omega

/-! ### The step that meets an accepted word -/

theorem engineRun_illegal {why : IllegalWord} (hacc : s.progress = .accepted) (hd : decode s.cmd = .illegal why) :
    engineRun Config.chip exec s = .next (raiseCmdFault s .illegal) := by
  simp only [engineRun, hacc, hd]

theorem engineRun_command (hacc : s.progress = .accepted) (hd : decode s.cmd = .command i) :
    engineRun Config.chip exec s = exec i s := by
  simp only [engineRun, hacc, hd]

/-- The step that takes the event `run`: the engine runs to the end of its command. -/
theorem step_run (hp : s.powered = true) (henv : s.env = .run :: rest) :
    step s = engineRun Config.chip exec { s with env := rest } := step_event hp henv

/-- The step that takes the event `tick`: one move of the engine. -/
theorem step_tick (hp : s.powered = true) (henv : s.env = .tick :: rest) :
    step s = .next (tick Config.chip { s with env := rest }) := step_event hp henv

/-- A word placed by `withFetchWord` is run by the next step, from the state that its acceptance makes. -/
theorem step_withFetchWord (s : State) (w : Word) :
    step (s.withFetchWord 32 w.toNat) = engineRun Config.chip exec { accept s w with powered := true } := by
  have hw : BitVec.ofNat 32 (w.toNat % 2 ^ 32) = w := by
    rw [Nat.mod_eq_of_lt w.isLt, BitVec.ofNat_toNat, BitVec.setWidth_eq]
  rw [step_run (rest := s.env) rfl rfl, State.withFetchWord, hw]
  rfl

/-- Settles O4: the ranges of R73 from the decoder's fields; each of the four steps is CmdFault(ILLEGAL). -/
theorem illegalWordsFault : Obligations.IllegalWordsFault := by
  intro w
  refine ⟨decode_illegal_iff.trans (or_congr Iff.rfl (undefinedOpcode_iff _)), ?_⟩
  rintro ⟨why, hd⟩
  refine ⟨fun s hp henv hacc hcmd => ?_, fun s rest hp henv hacc hcmd => ?_, fun s => ?_⟩
  · exact (step_no_event hp henv).trans (engineRun_illegal hacc (hcmd ▸ hd))
  · have hd' : decode { s with env := rest }.cmd = .illegal why := hcmd ▸ hd
    rcases henv with henv | henv
    · exact (step_run hp henv).trans (engineRun_illegal hacc hd')
    · exact (step_tick hp henv).trans (congrArg _ (tick_illegal hacc hd'))
  · exact (step_withFetchWord s w).trans (engineRun_illegal rfl hd)

/-- Settles O5: an accepted word that decodes to a command is run as that command's meaning. -/
theorem stepRunsDecoded : Obligations.StepRunsDecoded := by
  refine ⟨fun s i hp hacc hd => ⟨fun henv => ?_, fun rest henv => ?_⟩, fun s w i hd => ?_⟩
  · exact step_accepted hp henv hacc hd
  · exact (step_run hp henv).trans (engineRun_command hacc hd)
  · exact (step_withFetchWord s w).trans (engineRun_command rfl hd)

end Sys2Proof.Machine
end

section
/-! SUPPORT. The outcome of each OFB command in the order of its checks (R80, R107, R115), and of its run past them. -/

namespace Sys2Proof.Machine

variable {P : Params} {s : State} {c : Nat}

/-! ### A command by its checks -/

theorem guarded_ite (p : Prop) [Decidable p] (v w : Verdict) (body : State → State) (s : State) :
    guarded (if p then v else w) body s = if p then guarded v body s else guarded w body s :=
  apply_ite (fun v => guarded v body s) p v w

/-- OFB_INIT, check by check (R81). -/
theorem ofbInit_eq (P : Params) (c : Nat) (s : State) : ofbInit P c s =
    if P.numCtx ≤ c then complete s .invalidOutput
    else if (slotAt P s c).state = .initialized then raiseCmdFault s .seq
    else if s.lat.key = 0 ∨ s.lat.iv = 0 then complete s .invalidInput
    else if s.lat.mode ≠ 1 ∧ s.lat.mode ≠ 2 then complete s .invalidMode
    else if 2 ^ 32 < keyAddr s + P.keyBytes ∨ 2 ^ 32 < ivAddr s + 8 then complete s .invalidArg
    else initBind P c s := by
  rw [ofbInit, initCheck_eq]
  simp only [guarded_ite, guarded_reject, guarded_fault, guarded_pass]

/-- OFB_CORE, check by check (R83). -/
theorem ofbCore_eq (P : Params) (c : Nat) (s : State) : ofbCore P c s =
    if P.numCtx ≤ c then complete s .invalidOutput
    else if (slotAt P s c).state ≠ .initialized then raiseCmdFault s .seq
    else if s.lat.src = 0 then complete s .invalidInput
    else if s.lat.dst = 0 then complete s .invalidOutput
    else if lenArg s = 0 ∨ lenArg s % 8 ≠ 0 then complete s .invalidArg
    else if 2 ^ 32 < srcAddr s + lenArg s ∨ 2 ^ 32 < dstAddr s + lenArg s then complete s .invalidArg
    else coreFrom P c 0 s := by
  rw [ofbCore, coreCheck_eq]
  simp only [guarded_ite, guarded_reject, guarded_fault, guarded_pass]

/-- OFB_FINISH, check by check (R89). -/
theorem ofbFinish_eq (P : Params) (c : Nat) (s : State) : ofbFinish P c s =
    if P.numCtx ≤ c then complete s .invalidOutput
    else if (slotAt P s c).state = .finished then raiseCmdFault s .seq
    else finishZeroize P c s := by
  rw [ofbFinish, finishCheck]
  simp only [guarded_ite, guarded_reject, guarded_fault, guarded_pass]

/-- OFB_ONESHOT, check by check (R91). -/
theorem ofbOneshot_eq (P : Params) (s : State) : ofbOneshot P s =
    if s.lat.key = 0 ∨ s.lat.iv = 0 then complete s .invalidInput
    else if s.lat.mode ≠ 1 ∧ s.lat.mode ≠ 2 then complete s .invalidMode
    else if 2 ^ 32 < keyAddr s + P.keyBytes ∨ 2 ^ 32 < ivAddr s + 8 then complete s .invalidArg
    else if s.lat.src = 0 then complete s .invalidInput
    else if s.lat.dst = 0 then complete s .invalidOutput
    else if lenArg s = 0 ∨ lenArg s % 8 ≠ 0 then complete s .invalidArg
    else if 2 ^ 32 < srcAddr s + lenArg s ∨ 2 ^ 32 < dstAddr s + lenArg s then complete s .invalidArg
    else oneshotRun P s := by
  rw [ofbOneshot, oneshotCheck_eq]
  simp only [guarded_ite, guarded_reject, guarded_pass]

/-- A check that fails gives its outcome; one that passes leaves the outcome to the checks after it. -/
theorem outcome_ite {p : Prop} [Decidable p] {t a b : State} {Q : Prop} (h : t = if p then a else b)
    (hpass : ¬ p → t = b → Q) : if p then t = a else Q := by
  split_ifs at h ⊢ with hp
  · exact h
  · exact hpass hp h

/-- Settles O19: a validation code comes from the checks, which complete with nothing else changed. -/
theorem validationPrecedesMutation : Obligations.ValidationPrecedesMutation := by
  intro i s t h hcode
  obtain ⟨t', ht, hcases⟩ := exec_cases i s
  obtain rfl : t' = t := by simpa [ht] using h
  rcases hcases with ⟨k, -, rfl⟩ | rfl | ⟨b, -, rfl | rfl | ⟨-, rfl⟩⟩
  · rfl
  all_goals simp at hcode

/-! ### OFB_INIT and OFB_FINISH -/

theorem readKeyIv_of_key_fails (h : accessFails P s (keyAddr s) P.keyBytes = true) : readKeyIv P s = none := by
  rw [readKeyIv, readBytes, if_pos h]

/-- OFB_INIT past its checks: a failing key read is a bus error; else the reads bind the slot or one of them is. -/
theorem initBind_outcome (hc : c < 15) :
    if accessFails P s (keyAddr s) P.keyBytes = true then initBind P c s = raiseCmdFault s .busError
    else (initBind P c s).code = .ok ∧ (initBind P c s).faults = s.faults ∧
        (slotAt P (initBind P c s) c).state = .initialized ∨
      initBind P c s = raiseCmdFault s .busError := by
  split_ifs with hkey
  · rw [initBind, readKeyIv_of_key_fails hkey]
    rfl
  · rcases initBind_frame P c s with h | ⟨kb, iv, b, f, -, h⟩ <;> rw [h]
    · exact .inr rfl
    · exact .inl ⟨rfl, rfl, congrArg Slot.state (slotAt_setSlot_same P s _ hc)⟩

/-- Settles O27: check by check; past the last, OFB_INIT's reads decide. -/
theorem initOutcomes : Obligations.InitOutcomes := fun c s =>
  ⟨_, rfl,
    outcome_ite (ofbInit_eq Config.chip c s) fun hc h => outcome_ite h fun _ h => outcome_ite h fun _ h =>
    outcome_ite h fun _ h => outcome_ite h fun _ h => by
      rw [h]
      exact initBind_outcome (lt_fifteen (Nat.lt_of_not_le hc))⟩

/-- Settles O28: the check of the slot's state decides. -/
theorem reinitRefused : Obligations.ReinitRefused := by
  intro c s hc hlive
  rw [exec, execOfbInit, ofbInit_eq, if_neg (by omega), if_pos hlive]
  rfl

/-- Settles O34: both checks pass, and nothing after them can fail. -/
theorem finishZeroizes : Obligations.FinishZeroizes := by
  intro c s hc hstate
  rw [exec, execOfbFinish, ofbFinish_eq, if_neg (by omega), if_neg hstate]
  rfl

/-- Settles O35: each check in its turn. -/
theorem finishErrors : Obligations.FinishErrors := by
  refine fun c s => ⟨fun hc => ?_, fun hc hstate => ?_⟩
  · rw [exec, execOfbFinish, ofbFinish_eq, if_pos hc]
  · rw [exec, execOfbFinish, ofbFinish_eq, if_neg (by omega), if_pos hstate]

/-! ### OFB_CORE and OFB_ONESHOT -/

theorem blockCount_pos (h : ¬ (lenArg s = 0 ∨ lenArg s % 8 ≠ 0)) : 0 < blockCount s := by
  rw [blockCount]
  omega

/-- Where the first data block cannot be read, OFB_CORE ends at it, before any slot is written (R83, R111). -/
theorem coreFrom_of_read_fails (hlen : 0 < blockCount s) (h : accessFails P s (srcAddr s) 8 = true) :
    ∃ e, coreFrom P c 0 s = busFault e ∧ e.faults = s.faults ∧ e.slots = s.slots := by
  obtain ⟨n, hn⟩ : ∃ n, blockCount s = n + 1 := ⟨blockCount s - 1, by omega⟩
  have hread : readBlock P s (srcAddr s + 8 * 0) = none := if_pos h
  rw [coreFrom, Nat.sub_zero, hn, forLoop, coreBody, ofbBlock, hread]
  exact ⟨_, rfl, rfl, rfl⟩

/-- The status of a command that ended with a bus error or with Ok (R106, R111). -/
theorem status_of_end {b t : State} (hf : b.faults = s.faults) (h : t = busFault b ∨ t = complete b .ok) :
    t.code = .ok ∧ t.faults = s.faults ∨ t.code = .cmdFault ∧ t.faults = s.faults ||| 0b1000 := by
  rcases h with rfl | rfl <;> rw [← hf]
  · exact .inr ⟨rfl, rfl⟩
  · exact .inl ⟨rfl, rfl⟩

/-- OFB_CORE past its checks: a first data block that cannot be read ends it with every slot as it was. -/
theorem coreFrom_outcome (hlen : 0 < blockCount s) :
    if accessFails P s (srcAddr s) 8 = true then
      (coreFrom P c 0 s).code = .cmdFault ∧ (coreFrom P c 0 s).faults = s.faults ||| 0b1000 ∧
        (coreFrom P c 0 s).slots = s.slots
    else (coreFrom P c 0 s).code = .ok ∧ (coreFrom P c 0 s).faults = s.faults ∨
      (coreFrom P c 0 s).code = .cmdFault ∧ (coreFrom P c 0 s).faults = s.faults ||| 0b1000 := by
  split_ifs with hread
  · obtain ⟨e, he, hfaults, hslots⟩ := coreFrom_of_read_fails (c := c) hlen hread
    rw [he, ← hfaults]
    exact ⟨rfl, rfl, hslots⟩
  · obtain ⟨t, ht, -, -, -, h⟩ := coreFrom_cases P c 0 s
    exact status_of_end (b := t) (by rw [ht]) h

/-- Settles O30: check by check; past the last, the block loop decides. -/
theorem coreOutcomes : Obligations.CoreOutcomes := fun c s =>
  ⟨_, rfl,
    outcome_ite (ofbCore_eq Config.chip c s) fun _ h => outcome_ite h fun _ h => outcome_ite h fun _ h =>
    outcome_ite h fun _ h => outcome_ite h fun hlen h => outcome_ite h fun _ h => by
      rw [h]
      exact coreFrom_outcome (blockCount_pos hlen)⟩

/-- OFB_ONESHOT past its checks: a failing key read leaves nothing but the zero scratch context. -/
theorem oneshotRun_outcome (P : Params) (s : State) :
    if accessFails P s (keyAddr s) P.keyBytes = true then
      oneshotRun P s = raiseCmdFault { s with scratch := zeroScratch P } .busError
    else (oneshotRun P s).scratch = zeroScratch P ∧
      ((oneshotRun P s).code = .ok ∧ (oneshotRun P s).faults = s.faults ∨
        (oneshotRun P s).code = .cmdFault ∧ (oneshotRun P s).faults = s.faults ||| 0b1000) := by
  split_ifs with hkey
  · rw [oneshotRun, oneshotBind, readKeyIv_of_key_fails hkey]
    rfl
  · obtain ⟨t, ht, -, h⟩ := oneshotRun_cases P s
    exact ⟨(oneshotRun_slots P s).2, status_of_end (b := setScratch t (zeroScratch P)) (by rw [ht]; rfl) h⟩

/-- Settles O38: check by check; past the last, the reads and the block loop decide. -/
theorem oneshotOutcomes : Obligations.OneshotOutcomes := fun _ s =>
  ⟨_, rfl,
    outcome_ite (ofbOneshot_eq Config.chip s) fun _ h => outcome_ite h fun _ h => outcome_ite h fun _ h =>
    outcome_ite h fun _ h => outcome_ite h fun _ h => outcome_ite h fun _ h => outcome_ite h fun _ h => by
      rw [h]
      exact oneshotRun_outcome _ s⟩

end Sys2Proof.Machine
end

section
/-! SUPPORT. The frames of the commands: what each leaves alone from every state, whatever its outcome (R79, R81, R83,
R89, R91, R98, R99). -/

namespace Sys2Proof.Machine

variable {P : Params} {s t : State} {c : Nat}

/-! ### Commands that store nothing -/

/-- What OFB_INIT and OFB_FINISH on slot `c` leave alone. -/
def OnlySlot (P : Params) (c : Nat) (s t : State) : Prop :=
  t.mem = s.mem ∧ t.scratch = s.scratch ∧ t.dbuf = s.dbuf ∧ t.diff = s.diff ∧
    ∀ d, d ≠ c → slotAt P t d = slotAt P s d

theorem OnlySlot.refl (P : Params) (c : Nat) (s : State) : OnlySlot P c s s := ⟨rfl, rfl, rfl, rfl, fun _ _ => rfl⟩

/-- Turned away by its checks, a command changes the status only (R79). -/
theorem onlySlot_guarded {v : Verdict} {body : State → State} (h : OnlySlot P c s (body s)) :
    OnlySlot P c s (guarded v body s) :=
  guarded_keeps (fun _ => OnlySlot.refl P c s) (fun _ => OnlySlot.refl P c s) fun _ => h

theorem onlySlot_initBind (P : Params) (c : Nat) (s : State) : OnlySlot P c s (initBind P c s) := by
  rcases initBind_frame P c s with h | ⟨kb, iv, b, f, -, h⟩ <;> rw [h]
  · exact OnlySlot.refl P c s
  · exact ⟨rfl, rfl, rfl, rfl, fun d hd => slotAt_setSlot_other P s _ hd⟩

theorem onlySlot_finishZeroize (P : Params) (c : Nat) (s : State) : OnlySlot P c s (finishZeroize P c s) :=
  ⟨rfl, rfl, rfl, rfl, fun _ hd => slotAt_setSlot_other P s _ hd⟩

theorem verifyRun_frame (P : Params) (s : State) :
    (verifyRun P s).mem = s.mem ∧ (verifyRun P s).scratch = s.scratch ∧ (verifyRun P s).slots = s.slots := by
  obtain ⟨t, ht, -, h⟩ := verifyRun_cases P s
  have hframe : t.mem = s.mem ∧ t.scratch = s.scratch ∧ t.slots = s.slots := by rw [ht]; exact ⟨rfl, rfl, rfl⟩
  rcases h with h | h <;> rw [h] <;> exact hframe

/-- Settles O24: turned away by their checks or past them, the three commands leave these alone. -/
theorem frameWithoutStore : Obligations.FrameWithoutStore := by
  refine ⟨fun c s t h => ?_, fun x s t h => ?_⟩
  · rcases h with h | h <;> cases h
    · exact onlySlot_guarded (onlySlot_initBind _ c s)
    · exact onlySlot_guarded (onlySlot_finishZeroize _ c s)
  · cases h
    exact guarded_keeps (Q := fun t => t.mem = s.mem ∧ t.scratch = s.scratch ∧ t.slots = s.slots)
      (fun _ => ⟨rfl, rfl, rfl⟩) (fun _ => ⟨rfl, rfl, rfl⟩) fun _ => verifyRun_frame _ s

/-! ### Commands that store -/

/-- What OFB_CORE on slot `c` leaves alone. -/
def CoreFrame (P : Params) (c : Nat) (s t : State) : Prop :=
  SameOutside s.mem t.mem (dstAddr s) (lenArg s) ∧ t.scratch = s.scratch ∧ t.dbuf = s.dbuf ∧ t.diff = s.diff ∧
    (∀ d, d ≠ c → slotAt P t d = slotAt P s d) ∧ slotAt P t c = { slotAt P s c with fb := (slotAt P t c).fb }

/-- What OFB_ONESHOT leaves alone. -/
def OneshotFrame (P : Params) (s t : State) : Prop :=
  SameOutside s.mem t.mem (dstAddr s) (lenArg s) ∧ t.slots = s.slots ∧ t.dbuf = s.dbuf ∧ t.diff = s.diff ∧
    (t.scratch = s.scratch ∨ t.scratch = zeroScratch P)

/-- What PKCS1_ENCODE leaves alone. -/
def EncodeFrame (s t : State) : Prop :=
  SameOutside s.mem t.mem (dstAddr s) (lenArg s) ∧ t.slots = s.slots ∧ t.scratch = s.scratch ∧ t.diff = s.diff

theorem CoreFrame.refl (P : Params) (c : Nat) (s : State) : CoreFrame P c s s :=
  ⟨sameOutside_refl _ _ _, rfl, rfl, rfl, fun _ _ => rfl, rfl⟩

theorem OneshotFrame.refl (P : Params) (s : State) : OneshotFrame P s s :=
  ⟨sameOutside_refl _ _ _, rfl, rfl, rfl, .inl rfl⟩

theorem EncodeFrame.refl (s : State) : EncodeFrame s s := ⟨sameOutside_refl _ _ _, rfl, rfl, rfl⟩

theorem coreFrame_coreFrom (P : Params) (j : Nat) (s : State) (hc : c < 15) : CoreFrame P c s (coreFrom P c j s) := by
  obtain ⟨t, ht, hmem, hother, hsame, h⟩ := coreFrom_cases P c j s
  have hframe : CoreFrame P c s t :=
    ⟨hmem, by rw [ht], by rw [ht], by rw [ht], hother, hsame hc⟩
  rcases h with h | h <;> rw [h] <;> exact hframe

theorem oneshotFrame_oneshotRun (P : Params) (s : State) : OneshotFrame P s (oneshotRun P s) := by
  obtain ⟨t, ht, hmem, h⟩ := oneshotRun_cases P s
  have hframe : OneshotFrame P s (setScratch t (zeroScratch P)) :=
    ⟨hmem, by rw [ht]; rfl, by rw [ht]; rfl, by rw [ht]; rfl, .inr rfl⟩
  rcases h with h | h <;> rw [h] <;> exact hframe

theorem encodeFrame_encodeRun (P : Params) (s : State) : EncodeFrame s (encodeRun P s) := by
  obtain ⟨t, ht, hmem, -, h⟩ := encodeRun_cases P s
  have hframe : EncodeFrame s t := ⟨hmem, by rw [ht], by rw [ht], by rw [ht]⟩
  rcases h with h | h <;> rw [h] <;> exact hframe

/-- Settles O25: turned away by their checks or past them, the three commands leave these alone. -/
theorem frameWithStore : Obligations.FrameWithStore := by
  refine ⟨fun c s t h => ?_, fun x s t h => ?_, fun x s t h => ?_⟩ <;> cases h
  · exact guarded_keeps (Q := CoreFrame Config.chip c s) (fun _ => CoreFrame.refl _ c s)
      (fun _ => CoreFrame.refl _ c s) fun hv => coreFrame_coreFrom _ 0 s (lt_fifteen (coreCheck_pass hv).1)
  · exact guarded_keeps (Q := OneshotFrame Config.chip s) (fun _ => OneshotFrame.refl _ s)
      (fun _ => OneshotFrame.refl _ s) fun _ => oneshotFrame_oneshotRun _ s
  · exact guarded_keeps (Q := EncodeFrame s) (fun _ => EncodeFrame.refl s) (fun _ => EncodeFrame.refl s)
      fun _ => encodeFrame_encodeRun _ s

end Sys2Proof.Machine
end

section
/-! SUPPORT. The OFB commands in the plain situation: OFB_INIT binds, OFB_CORE and OFB_ONESHOT stream (R78, R81, R83,
R86, R91). -/

namespace Sys2Proof.Machine

variable {P : Params} {s t : State} {c : Nat}

/-- Settles O33: the lanes of the exclusive or. -/
theorem byteLanes : Obligations.ByteLanes := fun P ks fb d i => ⟨xorBlock_getElem d (P.E ks fb) i i.isLt, rfl⟩

/-! ### OFB_INIT -/

theorem directionOf_getD {w : Word} (h : w = 1 ∨ w = 2) :
    (directionOf w).getD .encrypt = if w = 2 then .decrypt else .encrypt := by
  rcases h with rfl | rfl <;> rfl

/-- The slot that OFB_INIT binds in the plain situation (R81). -/
def boundSlot (P : Params) (s : State) : Slot where
  state := .initialized
  mode := (directionOf s.lat.mode).getD .encrypt
  key := memString s.mem (keyAddr s) P.keyBytes
  fb := memBlock s.mem (ivAddr s)

/-- The state in which OFB_INIT ends in the plain situation (R81). -/
def boundState (P : Params) (c : Nat) (s : State) : State := complete (setSlot s c (boundSlot P s)) .ok

theorem slotAt_boundState (s : State) (hc : c < P.numCtx) : slotAt P (boundState P c s) c = boundSlot P s :=
  slotAt_setSlot_same P s _ (lt_fifteen hc)

/-- OFB_INIT past its checks in the plain situation (R81). -/
theorem initBind_quiet (hq : Quiet s) (hk : Readable P s (keyAddr s) P.keyBytes) (hi : Readable P s (ivAddr s) 8) :
    initBind P c s = boundState P c s := by
  rw [initBind, readKeyIv_quiet hq hk hi]
  rfl

/-- Settles O26: every check passes and both reads answer. -/
theorem initBinds : Obligations.InitBinds := by
  intro c s hc hdead hkey hiv hmode hq hk hi
  have hfit := not_overrun hk.1 hi.1 Config.chip.keyBytes_pos (by omega)
  rw [exec, execOfbInit, ofbInit_eq, if_neg (by omega), if_neg hdead, if_neg (not_or.mpr ⟨hkey, hiv⟩),
    if_neg (by tauto), if_neg hfit, initBind_quiet hq hk hi, boundState, boundSlot, directionOf_getD hmode]
  rfl

/-! ### The output of the block loop -/

/-- The output bytes of the whole block loop, when the data buffers are disjoint or the same (R78, R86). -/
theorem stream_get {key : List Byte} {fb : Block} {src dst n j : Nat} {m : Memory} (h : DisjointOrSame src dst n)
    (hj : j < n / 8) (i : Fin 8) :
    memGet (streamFrom P key src dst (n / 8) 0 m fb).1 (dst + 8 * j + i) =
      memGet m (src + 8 * j + i) ^^^ (keystream P key fb (j + 1))[i] := by
  have := streamFrom_get (P := P) (key := key) (j := 0) (m := m) (fb := fb)
    (show DisjointOrSame (src + 8 * 0) (dst + 8 * 0) (8 * (n / 8)) by omega) hj i.isLt
  rw [Nat.zero_add] at this
  exact this

/-- The whole block loop changes no byte outside the output buffer (R83). -/
theorem sameOutside_stream (P : Params) (key : List Byte) (src dst n : Nat) (m : Memory) (fb : Block) :
    SameOutside m (streamFrom P key src dst (n / 8) 0 m fb).1 dst n :=
  sameOutside_mono (streamFrom_outside P key src dst (n / 8) 0 m fb) (by omega) (by omega)

/-! ### OFB_CORE -/

/-- The premises of a plain run of OFB_CORE on slot `c`: its checks pass, and no access fails or is raced (R83). -/
structure CoreReady (P : Params) (c : Nat) (s : State) : Prop where
  present : c < P.numCtx
  live : (slotAt P s c).state = .initialized
  src_ne : s.lat.src ≠ 0
  dst_ne : s.lat.dst ≠ 0
  len_ne : lenArg s ≠ 0
  len_mod : lenArg s % 8 = 0
  quiet : Quiet s
  src_readable : Readable P s (srcAddr s) (lenArg s)
  dst_backed : Backed P s (dstAddr s) (lenArg s)

/-- A plain run of OFB_CORE (R83, R86). -/
theorem CoreReady.ofbCore_eq (h : CoreReady P c s) : ofbCore P c s = complete
    (setSlotFb P (setMem s (contentAt P (slotAt P s c).key (slotAt P s c).fb s (lenArg s / 8))) c
      (keystream P (slotAt P s c).key (slotAt P s c).fb (lenArg s / 8))) .ok := by
  rw [ofbCore, coreCheck_eq_pass h.present h.live h.src_ne h.dst_ne h.len_ne h.len_mod h.src_readable.1 h.dst_backed,
    guarded_pass, coreFrom_quiet (lt_fifteen h.present) h.len_mod h.quiet h.src_readable h.dst_backed]

/-- Settles O29: the run's last state, byte by byte and slot by slot. -/
theorem coreStreams : Obligations.CoreStreams := by
  intro c s hc hlive hsrc hdst hlen hmod hq hs hd hbuf
  have h := CoreReady.ofbCore_eq ⟨hc, hlive, hsrc, hdst, hlen, hmod, hq, hs, hd⟩
  refine ⟨_, congrArg Host.Outcome.next h, rfl, fun j i hj => ?_, ?_, ?_, fun d hdc => ?_⟩
  · exact stream_get hbuf hj i
  · exact sameOutside_stream _ _ _ _ _ _ _
  · exact slotAt_setSlotFb_same _ (setMem s _) _ (lt_fifteen hc)
  · exact slotAt_setSlotFb_other _ (setMem s _) _ hdc

/-! ### OFB_ONESHOT -/

/-- Settles O36: the same loop on the key and IV in memory. -/
theorem oneshotRuns : Obligations.OneshotRuns := by
  intro x s hkey hiv hmode hsrc hdst hlen hmod hq hk hi hs hd hbuf
  have hpass := oneshotCheck_eq_pass hkey hiv hmode hsrc hdst hlen hmod hk.1 hi.1 hs.1 hd
  have hexec : exec (.ofbOneshot x) s = .next (oneshotRun Config.chip s) := by
    rw [exec, execOfbOneshot, ofbOneshot, hpass, guarded_pass]
  rw [oneshotRun_quiet hmod hq hk hi hs hd] at hexec
  exact ⟨_, hexec, rfl, fun j i hj => stream_get hbuf hj i, sameOutside_stream _ _ _ _ _ _ _⟩

end Sys2Proof.Machine
end

section
/-! SUPPORT. Two plain runs of OFB_CORE: in two parts it is OFB_CORE of the whole (R85), and on its own output with the
same key and IV it gives the data back (R87). -/

namespace Sys2Proof.Machine

variable {P : Params} {s t : State} {c : Nat}

/-! ### What a plain run leaves -/

/-- What is left of a plain run of OFB_CORE on slot `c` over `n` bytes from `src` to `dst`. -/
structure Streamed (P : Params) (c : Nat) (src dst n : Nat) (s t : State) : Prop where
  code : t.code = .ok
  mem : t.mem = (streamFrom P (slotAt P s c).key src dst (n / 8) 0 s.mem (slotAt P s c).fb).1
  slots : t.slots = (setSlotFb P s c (keystream P (slotAt P s c).key (slotAt P s c).fb (n / 8))).slots
  ram : t.ram = s.ram
  volatile : t.volatile = s.volatile
  quiet : Quiet t

theorem Streamed.slot {src dst n : Nat} (h : Streamed P c src dst n s t) (hc : c < P.numCtx) :
    slotAt P t c =
      { slotAt P s c with fb := keystream P (slotAt P s c).key (slotAt P s c).fb (n / 8) } :=
  (slotAt_congr h.slots c).trans (slotAt_setSlotFb_same P s _ (lt_fifteen hc))

theorem Streamed.backed {src dst n a m : Nat} (h : Streamed P c src dst n s t) (hb : Backed P s a m) :
    Backed P t a m := by
  rwa [Backed, h.ram]

theorem Streamed.readable {src dst n a m : Nat} (h : Streamed P c src dst n s t) (hr : Readable P s a m) :
    Readable P t a m :=
  ⟨h.backed hr.1, by rw [Plain, h.volatile]; exact hr.2⟩

theorem CoreReady.streamed (h : CoreReady P c s) :
    Streamed P c (srcAddr s) (dstAddr s) (lenArg s) s (ofbCore P c s) := by
  rw [h.ofbCore_eq]
  exact ⟨rfl, rfl, rfl, rfl, rfl, rfl, rfl⟩

theorem Streamed.get {src dst n j : Nat} (h : Streamed P c src dst n s t) (hbuf : DisjointOrSame src dst n)
    (hj : j < n / 8) (i : Fin 8) :
    memGet t.mem (dst + 8 * j + i) =
      memGet s.mem (src + 8 * j + i) ^^^ (keystream P (slotAt P s c).key (slotAt P s c).fb (j + 1))[i] := by
  rw [h.mem]
  exact stream_get hbuf hj i

/-! ### Streaming -/

/-- The state with the latched operands of a data run replaced (R38). -/
def withData (s : State) (src dst : Word) (n : Nat) : State :=
  { s with lat := { s.lat with src := src, dst := dst, len := BitVec.ofNat 32 n } }

theorem lenArg_withData (s : State) (src dst : Word) {n : Nat} (h : n < 2 ^ 32) :
    lenArg (withData s src dst n) = n := Nat.mod_eq_of_lt h

/-- A plain run of OFB_CORE on given operands. -/
theorem streamed_withData {src dst : Word} {n : Nat} (hc : c < P.numCtx) (hlive : (slotAt P s c).state = .initialized)
    (hsrc : src ≠ 0) (hdst : dst ≠ 0) (hn : 0 < n) (hmod : n % 8 = 0) (hlt : n < 2 ^ 32) (hq : Quiet s)
    (hs : Readable P s src.toNat n) (hd : Backed P s dst.toNat n) :
    Streamed P c src.toNat dst.toNat n s (ofbCore P c (withData s src dst n)) := by
  have hlen := lenArg_withData s src dst hlt
  have h : CoreReady P c (withData s src dst n) :=
    ⟨hc, hlive, hsrc, hdst, by omega, by omega, hq, by rw [hlen]; exact hs, by rw [hlen]; exact hd⟩
  have hrun := h.streamed
  rw [hlen] at hrun
  exact ⟨hrun.code, hrun.mem, hrun.slots, hrun.ram, hrun.volatile, hrun.quiet⟩

/-- `m + n` keystream blocks are `m`, then `n` from there (R86). -/
theorem keystream_add (P : Params) (key : List Byte) (fb : Block) (m n : Nat) :
    keystream P key fb (m + n) = keystream P key (keystream P key fb m) n := by
  induction n with
  | zero => rfl
  | succ n ih => rw [← Nat.add_assoc, keystream, ih, keystream]

/-- Two runs one after the other leave what one run over both parts leaves (R85; R56 where the buffers overlap). -/
theorem Streamed.append {src dst n m : Nat} {t u v : State} (hc : c < P.numCtx) (hn : n % 8 = 0)
    (ht : Streamed P c src dst n s t) (hu : Streamed P c (src + n) (dst + n) m t u)
    (hv : Streamed P c src dst (n + m) s v) : u.mem = v.mem ∧ u.slots = v.slots := by
  have hdiv : (n + m) / 8 = n / 8 + m / 8 := by omega
  have hn8 : n = 8 * (n / 8) := by omega
  have hslot := ht.slot hc
  constructor
  · rw [hu.mem, hv.mem, hdiv, streamFrom_add, streamFrom_fb, ← ht.mem, hslot, ← streamFrom_shift, ← hn8]
  · rw [hu.slots, hv.slots, hdiv, keystream_add, setSlotFb_slots, hslot, ht.slots]
    exact congrArg State.slots (setSlot_setSlot s c _ _)

theorem toNat_add_ofNat {w : Word} {n : Nat} (h : w.toNat + n < 2 ^ 32) :
    (w + BitVec.ofNat 32 n).toNat = w.toNat + n := by
  rw [BitVec.toNat_add, BitVec.toNat_ofNat]
  omega

theorem add_ofNat_ne_zero {w : Word} {n : Nat} (h : w.toNat + n < 2 ^ 32) (hn : 0 < n) : w + BitVec.ofNat 32 n ≠ 0 := by
  intro h0
  have hzero := congrArg BitVec.toNat h0
  rw [toNat_add_ofNat h, BitVec.ofNat_eq_ofNat, BitVec.toNat_zero] at hzero
  omega

/-- Settles O31: the three runs are plain, and the first two are together the third. -/
theorem streaming : Obligations.Streaming := by
  intro c s t1 t2 t l1 l2 hc hlive hsrc hdst h1 h1mod h2 h2mod hlt hq hs hd e1 e2 e
  change Readable Config.chip s s.lat.src.toNat (l1 + l2) at hs
  change Backed Config.chip s s.lat.dst.toNat (l1 + l2) at hd
  have hsle := allBacked_le hs.1 (by omega)
  have hdle := allBacked_le hd (by omega)
  have hsadd := toNat_add_ofNat (w := s.lat.src) (n := l1) (by omega)
  have hdadd := toNat_add_ofNat (w := s.lat.dst) (n := l1) (by omega)
  have r1 : Streamed Config.chip c s.lat.src.toNat s.lat.dst.toNat l1 s t1 := by
    cases e1
    exact streamed_withData hc hlive hsrc hdst h1 h1mod (by omega) hq (readable_mono hs (by omega) (by omega))
      (allBacked_mono hd (by omega) (by omega))
  have r2 : Streamed Config.chip c (s.lat.src.toNat + l1) (s.lat.dst.toNat + l1) l2 t1 t2 := by
    cases e2
    have hlive1 : (slotAt Config.chip t1 c).state = .initialized := by rw [r1.slot hc, hlive]
    rw [← hsadd, ← hdadd]
    refine streamed_withData hc hlive1 (add_ofNat_ne_zero (by omega) h1) (add_ofNat_ne_zero (by omega) h1) h2 h2mod
      (by omega) r1.quiet ?_ ?_
    · rw [hsadd]
      exact r1.readable (readable_mono hs (by omega) (by omega))
    · rw [hdadd]
      exact r1.backed (allBacked_mono hd (by omega) (by omega))
  have r : Streamed Config.chip c s.lat.src.toNat s.lat.dst.toNat (l1 + l2) s t := by
    cases e
    exact streamed_withData hc hlive hsrc hdst (by omega) (by omega) hlt hq hs hd
  obtain ⟨hmem, hslots⟩ := r1.append hc h1mod r2 r
  exact ⟨r1.code, r2.code, r.code, hmem, hslots⟩

/-! ### The round trip -/

/-- Strings of whole blocks that agree block by block are equal. -/
theorem memString_eq_of_blocks {m m' : Memory} {a b n : Nat} (hmod : n % 8 = 0)
    (h : ∀ j (i : Fin 8), j < n / 8 → memGet m (a + 8 * j + i) = memGet m' (b + 8 * j + i)) :
    memString m a n = memString m' b n := by
  refine List.ext_getElem (by simp) fun k hk _ => ?_
  rw [memString_length] at hk
  have := h (k / 8) ⟨k % 8, by omega⟩ (by omega)
  rw [memString_getElem, memString_getElem]
  simpa only [Nat.add_assoc, Nat.div_add_mod] using this

/-- State `t` with slot `d` bound to what slot `c` of `s` held, in some direction, and the output of `s`'s operands as
the input of the next run. -/
def rebind (P : Params) (c d : Nat) (mode : Direction) (dst2 : Word) (s t : State) : State :=
  { setSlot t d { state := .initialized, mode := mode, key := (slotAt P s c).key, fb := (slotAt P s c).fb } with
    lat := { s.lat with src := s.lat.dst, dst := dst2 } }

theorem slotAt_rebind {d : Nat} (c : Nat) (mode : Direction) (dst2 : Word) (s t : State) (hd : d < P.numCtx) :
    slotAt P (rebind P c d mode dst2 s t) d =
      { state := .initialized, mode := mode, key := (slotAt P s c).key, fb := (slotAt P s c).fb } :=
  slotAt_setSlot_same P t _ (lt_fifteen hd)

/-- Settles O32: the second run applies the same keystream to the first run's output, and it cancels. -/
theorem roundTrip : Obligations.RoundTrip := by
  intro c d s t u mode dst2 hc hd hlive hsrc hdst hdst2 hlen hmod hq hs hsd hd2 hbuf hbuf2 ht hu
  have r1 : Streamed Config.chip c (srcAddr s) (dstAddr s) (lenArg s) s t := by
    cases ht
    exact CoreReady.streamed ⟨hc, hlive, hsrc, hdst, hlen, hmod, hq, hs, hsd.1⟩
  have hslot := slotAt_rebind (P := Config.chip) c mode dst2 s t hd
  have r2 : Streamed Config.chip d (dstAddr s) dst2.toNat (lenArg s) (rebind Config.chip c d mode dst2 s t) u := by
    cases hu
    exact CoreReady.streamed ⟨hd, congrArg Slot.state hslot, hdst, hdst2, hlen, hmod, r1.quiet,
      r1.readable hsd, r1.backed hd2⟩
  refine ⟨r2.code, memString_eq_of_blocks hmod fun j i hj => ?_⟩
  rw [r2.get hbuf2 hj i, hslot]
  exact (congrArg (· ^^^ _) (r1.get hbuf hj i)).trans
    (by rw [BitVec.xor_assoc, BitVec.xor_self, BitVec.xor_zero])

end Sys2Proof.Machine
end

section
/-! SUPPORT. One-shot equals the sequence OFB_INIT, OFB_CORE, OFB_FINISH (R92): the checks of the one are those of the
others in turn, and where no access got a bus error both stream the same bytes. -/

namespace Sys2Proof.Machine

variable {P : Params} {s t : State} {c : Nat}

/-! ### The checks -/

/-- A check, then another where the first passes (R80). -/
def Verdict.thenCheck (v w : Verdict) : Verdict := if v = .pass then w else v

theorem thenCheck_of_ne {v w : Verdict} (h : v ≠ .pass) : v.thenCheck w = v := if_neg h

theorem thenCheck_pass (w : Verdict) : Verdict.pass.thenCheck w = w := if_pos rfl

/-- The checks of OFB_ONESHOT are those of OFB_INIT on a slot with no context, then those of OFB_CORE on a slot that
was bound (R91). -/
theorem oneshotCheck_eq_thenCheck {s1 : State} (hc : c < P.numCtx) (hdead : (slotAt P s c).state = .uninit)
    (hlive : (slotAt P s1 c).state = .initialized) (hlat : s1.lat = s.lat) :
    oneshotCheck P s = (initCheck P c s).thenCheck (coreCheck P c s1) := by
  have hpresent : ¬ P.numCtx ≤ c := by omega
  have hdead' : ¬ (slotAt P s c).state = .initialized := by simp [hdead]
  have hlive' : ¬ (slotAt P s1 c).state ≠ .initialized := not_not.mpr hlive
  rw [oneshotCheck_eq, initCheck_eq, coreCheck_eq, if_neg hpresent, if_neg hdead', if_neg hpresent, if_neg hlive',
    show lenArg s1 = lenArg s by rw [lenArg, lenArg, hlat], show srcAddr s1 = srcAddr s by rw [srcAddr, srcAddr, hlat],
    show dstAddr s1 = dstAddr s by rw [dstAddr, dstAddr, hlat], hlat]
  split_ifs <;> rfl

/-- A command that its checks turn away does not end with Ok (R79). -/
theorem guarded_code_ne_ok {v : Verdict} {body : State → State} (hv : verdictOk v) (hne : v ≠ .pass) :
    (guarded v body s).code ≠ .ok := by
  cases v with
  | reject k => rintro rfl; simp [verdictOk] at hv
  | fault n => simp
  | pass => exact absurd rfl hne

/-- Two commands that are turned away alike leave the same data memory and CODE, from states with the same data
memory. -/
theorem guarded_eq_of_ne {v : Verdict} (body body' : State → State) (hne : v ≠ .pass) (hmem : s.mem = t.mem) :
    (guarded v body s).mem = (guarded v body' t).mem ∧ (guarded v body s).code = (guarded v body' t).code := by
  cases v with
  | reject k => exact ⟨hmem, rfl⟩
  | fault n => exact ⟨hmem, rfl⟩
  | pass => exact absurd rfl hne

theorem coreCheck_pass_len (h : coreCheck P c s = .pass) : lenArg s % 8 = 0 := by
  rw [coreCheck_eq] at h
  split_ifs at h
  omega

/-! ### A phase without a bus error had backed buffers -/

theorem busFault_bit (e : State) : (busFault e).faults.getLsbD 3 = true := by
  simp [busFault, causeBit]

theorem busFault_code_ne_ok (e : State) : (busFault e).code ≠ .ok := by simp [busFault]

theorem backed_append {a m n : Nat} (h : Backed P s a m) (h' : Backed P s (a + m) n) : Backed P s a (m + n) := by
  rw [Backed, allBacked_iff] at *
  intro i hi
  by_cases him : i < m
  · exact h i him
  · have := h' (i - m) (by omega)
    rwa [show a + m + (i - m) = a + i by omega] at this

/-- OFB_INIT past its checks ends with a bus error, or key and IV are backed. -/
theorem initBind_backed (P : Params) (c : Nat) (s : State) : initBind P c s = busFault s ∨
    Backed P s (keyAddr s) P.keyBytes ∧ Backed P s (ivAddr s) 8 := by
  rw [initBind, readKeyIv]
  cases hkey : readBytes P s (keyAddr s) P.keyBytes with
  | none => exact .inl rfl
  | some r =>
    obtain ⟨hk, hafter, -⟩ := readBytes_some (bs := r.1) (s' := r.2) hkey
    cases hiv : readBlock P r.2 (ivAddr s) with
    | none => exact .inl (by simp only [hiv])
    | some r' =>
      obtain ⟨hi, -⟩ := readBlock_some (d := r'.1) (s' := r'.2) hiv
      have hi := allBacked_of_accessFails hi
      rw [hafter, afterRead_ram] at hi
      exact .inr ⟨allBacked_of_accessFails hk, hi⟩

/-- A pass of OFB_CORE that succeeds had both its blocks backed. -/
theorem backed_of_coreBody {j : Nat} (h : coreBody P c j s = .ok t) :
    Backed P s (srcAddr s + 8 * j) 8 ∧ Backed P s (dstAddr s + 8 * j) 8 := by
  by_contra hn
  obtain ⟨e, he⟩ := ofbBlock_not_backed (ks := (slotAt P s c).key) (fb := (slotAt P s c).fb)
    (not_and_or.mp hn)
  rw [coreBody, he] at h
  cases h

/-- A loop of OFB_CORE that succeeds had both its buffers backed. -/
theorem backed_of_coreLoop {n j : Nat} (h : forLoop (coreBody P c) n j s = .ok t) :
    Backed P s (srcAddr s + 8 * j) (8 * n) ∧ Backed P s (dstAddr s + 8 * j) (8 * n) := by
  induction n generalizing j s with
  | zero => exact ⟨rfl, rfl⟩
  | succ n ih =>
    rw [forLoop] at h
    cases hb : coreBody P c j s with
    | error e => simp [hb] at h
    | ok s' =>
      simp only [hb] at h
      have hsame := sameControl_of_ok (sameControl_coreBody P c j s) hb
      have hram : s'.ram = s.ram := by rw [hsame]
      obtain ⟨hs0, hd0⟩ := backed_of_coreBody hb
      obtain ⟨hs, hd⟩ := ih h
      rw [srcAddr, hsame.lat, Backed, hram, Nat.mul_succ, ← Nat.add_assoc] at hs
      rw [dstAddr, hsame.lat, Backed, hram, Nat.mul_succ, ← Nat.add_assoc] at hd
      rw [Nat.mul_succ, Nat.add_comm (8 * n)]
      exact ⟨backed_append hs0 hs, backed_append hd0 hd⟩

/-- OFB_CORE past its checks ends with a bus error, or its data buffers are backed. -/
theorem coreFrom_backed (hmod : lenArg s % 8 = 0) : (∃ e, coreFrom P c 0 s = busFault e) ∨
    Backed P s (srcAddr s) (lenArg s) ∧ Backed P s (dstAddr s) (lenArg s) := by
  rw [coreFrom, Nat.sub_zero]
  cases h : forLoop (coreBody P c) (blockCount s) 0 s with
  | error e => exact .inl ⟨e, rfl⟩
  | ok t =>
    have hn : 8 * blockCount s = lenArg s := by rw [blockCount]; omega
    have hb := backed_of_coreLoop h
    rw [hn] at hb
    exact .inr hb

/-! ### The sequence -/

theorem thenIfOk_ok {next : State → Host.Outcome State Fault Refusal} (h : t.code = .ok) :
    thenIfOk (.next t) next = next t := if_pos h

/-- A sequence stops at a command that does not complete with Ok. -/
theorem thenIfOk_stop {next : State → Host.Outcome State Fault Refusal} {u : State} (h : t.code ≠ .ok)
    (hu : thenIfOk (.next t) next = .next u) : u = t := by
  rw [thenIfOk, if_neg h] at hu
  cases hu
  rfl

/-- A sequence that stopped at a bus error has the BUS_ERROR bit. -/
theorem not_busFault {next : State → Host.Outcome State Fault Refusal} {e u : State}
    (hbit : u.faults.getLsbD 3 = false) : thenIfOk (.next (busFault e)) next ≠ .next u := by
  intro hu
  rw [thenIfOk_stop (busFault_code_ne_ok e) hu, busFault_bit] at hbit
  cases hbit

/-- OFB_FINISH on a live slot zeroizes it (R89, R90). -/
theorem ofbFinish_of_live (hc : c < P.numCtx) (hlive : (slotAt P s c).state = .initialized) :
    ofbFinish P c s = finishZeroize P c s := by
  rw [ofbFinish_eq, if_neg (by omega), if_neg (by simp [hlive])]

/-- OFB_CORE on slot `c`, then, where it completed with Ok, OFB_FINISH (R92). -/
def coreThenFinish (c : Nat) (s : State) : Host.Outcome State Fault Refusal :=
  thenIfOk (exec (.ofbCore c) s) (exec (.ofbFinish c))

/-- OFB_CORE without a bus error, then OFB_FINISH: turned away by OFB_CORE's checks, or the stream of a slot. -/
theorem coreThenFinish_cases {u : State} (hq : Quiet s) (hp : Plain s (srcAddr s) (lenArg s))
    (hu : coreThenFinish c s = .next u) (hbit : u.faults.getLsbD 3 = false) :
    (coreCheck Config.chip c s ≠ .pass ∧ u = ofbCore Config.chip c s) ∨
    (coreCheck Config.chip c s = .pass ∧ Readable Config.chip s (srcAddr s) (lenArg s) ∧
      Backed Config.chip s (dstAddr s) (lenArg s) ∧ u.code = .ok ∧
      u.mem = contentAt Config.chip (slotAt Config.chip s c).key (slotAt Config.chip s c).fb s (lenArg s / 8)) := by
  rw [coreThenFinish, exec, execOfbCore] at hu
  by_cases hv : coreCheck Config.chip c s = .pass
  · have hmod := coreCheck_pass_len hv
    have hrun : ofbCore Config.chip c s = coreFrom Config.chip c 0 s := by rw [ofbCore, hv, guarded_pass]
    rw [hrun] at hu
    rcases coreFrom_backed (c := c) hmod with ⟨e, he⟩ | ⟨hs, hd⟩
    · rw [he] at hu
      exact absurd hu (not_busFault hbit)
    · obtain ⟨hc, hlive⟩ := coreCheck_pass hv
      have hend := coreFrom_quiet (lt_fifteen hc) hmod hq ⟨hs, hp⟩ hd
      have hlive' := (slotAt_coreFrom_state Config.chip (c := c) 0 s (lt_fifteen hc)).trans hlive
      rw [thenIfOk_ok (by rw [hend]; rfl), exec, execOfbFinish, ofbFinish_of_live hc hlive'] at hu
      cases hu
      exact .inr ⟨hv, ⟨hs, hp⟩, hd, rfl, congrArg State.mem hend⟩
  · have hne : (ofbCore Config.chip c s).code ≠ .ok := guarded_code_ne_ok (coreCheck_ok _ _ _) hv
    exact .inl ⟨hv, thenIfOk_stop hne hu⟩

/-- Settles O40: the checks decide alike, and past them both stream the same bytes. -/
theorem oneshotEqualsSequence : Obligations.OneshotEqualsSequence := by
  intro c x s t u hc hdead hq _ hpk hpi hps ht hu _ hbit
  cases ht
  change thenIfOk (.next (ofbInit Config.chip c s)) (coreThenFinish c) = .next u at hu
  have hslot := slotAt_boundState s hc
  have hcheck := oneshotCheck_eq_thenCheck (s1 := boundState Config.chip c s) hc hdead (congrArg Slot.state hslot) rfl
  by_cases hv : initCheck Config.chip c s = .pass
  · rw [ofbInit, hv, guarded_pass] at hu
    rw [hv, thenCheck_pass] at hcheck
    rcases initBind_backed Config.chip c s with hb | ⟨hk, hi⟩
    · rw [hb] at hu
      exact absurd hu (not_busFault hbit)
    · rw [initBind_quiet hq ⟨hk, hpk⟩ ⟨hi, hpi⟩, thenIfOk_ok rfl] at hu
      rcases coreThenFinish_cases (s := boundState Config.chip c s) (quiet_complete _ _) hps hu hbit with
        ⟨hne, rfl⟩ | ⟨hpass, hs, hd, hcode, hmem⟩
      · rw [ofbOneshot, hcheck]
        exact guarded_eq_of_ne _ _ hne rfl
      · have hmod : lenArg s % 8 = 0 := coreCheck_pass_len (s := boundState Config.chip c s) hpass
        rw [ofbOneshot, hcheck, hpass, guarded_pass,
          oneshotRun_quiet hmod hq ⟨hk, hpk⟩ ⟨hi, hpi⟩ hs hd, hmem, hcode]
        exact ⟨congrArg (fun v : Slot => contentAt Config.chip v.key v.fb s (lenArg s / 8)) hslot.symm, rfl⟩
  · have hne : (ofbInit Config.chip c s).code ≠ .ok := guarded_code_ne_ok (initCheck_ok _ _ _) hv
    rw [thenIfOk_stop hne hu, ofbOneshot, hcheck, thenCheck_of_ne hv]
    exact guarded_eq_of_ne _ _ hv rfl

end Sys2Proof.Machine
end

section
/-! SUPPORT. The recorded directions: no access reads the slot file, and no phase of a command past its checks but
OFB_CORE's loop, which reads a slot's key and feedback register, so that the directions decide nothing (R84). -/

namespace Sys2Proof.Machine

variable {P : Params} {s t : State} {c : Nat}

/-! ### Accesses and phases that do not read the slot file -/

/-- The slot file becomes its image under `g`. -/
def mapSlots (g : Vector Slot 15 → Vector Slot 15) (s : State) : State := { s with slots := g s.slots }

/-- An outcome with the state of its error changed by `f`, and its value by `h`. -/
def mapOut {α : Type} (f : State → State) (h : α → α) : Except State α → Except State α
  | .ok a => .ok (h a)
  | .error e => .error (f e)

/-- What a read returned, with the state after it changed by `f`. -/
def mapRead {α : Type} (f : State → State) (r : α × State) : α × State := (r.1, f r.2)

variable (g : Vector Slot 15 → Vector Slot 15)

theorem afterRead_mapSlots (s : State) (a n : Nat) : afterRead (mapSlots g s) a n = mapSlots g (afterRead s a n) := by
  unfold afterRead
  rw [show (mapSlots g s).raced = s.raced from rfl, show (mapSlots g s).volatile = s.volatile from rfl]
  split <;> rfl

theorem accessFails_mapSlots (P : Params) (s : State) (a n : Nat) :
    accessFails P (mapSlots g s) a n = accessFails P s a n := rfl

theorem readBytes_mapSlots (P : Params) (s : State) (a n : Nat) :
    readBytes P (mapSlots g s) a n = (readBytes P s a n).map (mapRead (mapSlots g)) := by
  unfold readBytes
  rw [afterRead_mapSlots, accessFails_mapSlots]
  split <;> rfl

theorem readBlock_mapSlots (P : Params) (s : State) (a : Nat) :
    readBlock P (mapSlots g s) a = (readBlock P s a).map (mapRead (mapSlots g)) := by
  unfold readBlock
  rw [afterRead_mapSlots, accessFails_mapSlots]
  split <;> rfl

theorem readByte_mapSlots (P : Params) (s : State) (a : Nat) :
    readByte P (mapSlots g s) a = (readByte P s a).map (mapRead (mapSlots g)) := by
  unfold readByte
  rw [afterRead_mapSlots, accessFails_mapSlots]
  split <;> rfl

theorem writeBlock_mapSlots (P : Params) (s : State) (a : Nat) (blk : Block) :
    writeBlock P (mapSlots g s) a blk = mapOut (mapSlots g) (mapSlots g) (writeBlock P s a blk) := by
  unfold writeBlock
  rw [accessFails_mapSlots]
  split <;> rfl

theorem readKeyIv_mapSlots (P : Params) (s : State) :
    readKeyIv P (mapSlots g s) = (readKeyIv P s).map fun r => (r.1, mapRead (mapSlots g) r.2) := by
  unfold readKeyIv
  rw [readBytes_mapSlots, show keyAddr (mapSlots g s) = keyAddr s from rfl]
  cases readBytes P s (keyAddr s) P.keyBytes with
  | none => rfl
  | some r =>
    simp only [Option.map_some, mapRead, readBlock_mapSlots, show ivAddr (mapSlots g s) = ivAddr s from rfl]
    cases readBlock P r.2 (ivAddr s) <;> rfl

theorem ofbBlock_mapSlots (P : Params) (ks : List Byte) (fb : Block) (j : Nat) (s : State) :
    ofbBlock P ks fb j (mapSlots g s) = mapOut (mapSlots g) (mapRead (mapSlots g)) (ofbBlock P ks fb j s) := by
  unfold ofbBlock
  rw [readBlock_mapSlots, show srcAddr (mapSlots g s) = srcAddr s from rfl,
    show dstAddr (mapSlots g s) = dstAddr s from rfl]
  cases readBlock P s (srcAddr s + 8 * j) with
  | none => rfl
  | some r =>
    simp only [Option.map_some, mapRead, writeBlock_mapSlots]
    cases writeBlock P r.2 (dstAddr s + 8 * j) (ofbStep P ks fb r.1).1 <;> rfl

theorem oneshotBind_mapSlots (P : Params) (s : State) :
    oneshotBind P (mapSlots g s) = mapOut (mapSlots g) (mapSlots g) (oneshotBind P s) := by
  unfold oneshotBind
  rw [readKeyIv_mapSlots]
  cases readKeyIv P s <;> rfl

theorem oneshotBody_mapSlots (P : Params) (j : Nat) (s : State) :
    oneshotBody P j (mapSlots g s) = mapOut (mapSlots g) (mapSlots g) (oneshotBody P j s) := by
  unfold oneshotBody
  rw [show (mapSlots g s).scratch = s.scratch from rfl, ofbBlock_mapSlots]
  cases ofbBlock P s.scratch.key s.scratch.fb j s <;> rfl

theorem encodeBody_mapSlots (P : Params) (i : Nat) (s : State) :
    encodeBody P i (mapSlots g s) = mapOut (mapSlots g) (mapSlots g) (encodeBody P i s) := by
  unfold encodeBody writeByte
  rw [accessFails_mapSlots, show dstAddr (mapSlots g s) = dstAddr s from rfl]
  split <;> rfl

theorem verifyBody_mapSlots (P : Params) (i : Nat) (s : State) :
    verifyBody P i (mapSlots g s) = mapOut (mapSlots g) (mapSlots g) (verifyBody P i s) := by
  unfold verifyBody
  rw [readByte_mapSlots, show srcAddr (mapSlots g s) = srcAddr s from rfl]
  cases readByte P s (srcAddr s + i) <;> rfl

theorem captureDigest_mapSlots (P : Params) (s : State) :
    captureDigest P (mapSlots g s) = mapOut (mapSlots g) (mapSlots g) (captureDigest P s) := by
  unfold captureDigest
  rw [readBytes_mapSlots, show digAddr (mapSlots g s) = digAddr s from rfl]
  cases readBytes P s (digAddr s) P.hashLen <;> rfl

theorem verifyCapture_mapSlots (P : Params) (s : State) :
    verifyCapture P (mapSlots g s) = mapOut (mapSlots g) (mapSlots g) (verifyCapture P s) := by
  unfold verifyCapture
  rw [captureDigest_mapSlots]
  cases captureDigest P s <;> rfl

/-! ### Loops and whole commands -/

/-- A loop commutes with a change of state that its body commutes with. -/
theorem forLoop_mapOut {f : State → State} {body : Nat → State → Except State State}
    (hbody : ∀ j s, body j (f s) = mapOut f f (body j s)) (n j : Nat) (s : State) :
    forLoop body n j (f s) = mapOut f f (forLoop body n j s) := by
  induction n generalizing j s with
  | zero => rfl
  | succ n ih =>
    rw [forLoop, forLoop, hbody]
    cases body j s with
    | error e => rfl
    | ok t => exact ih (j + 1) t

/-- A phase, then what follows it, commutes with a change of state that both ends commute with. -/
theorem andThen_mapOut {f : State → State} {fail next : State → State} (r : Except State State)
    (hfail : ∀ s, fail (f s) = f (fail s)) (hnext : ∀ s, next (f s) = f (next s)) :
    andThen (mapOut f f r) fail next = f (andThen r fail next) := by
  cases r with
  | error e => exact hfail e
  | ok t => exact hnext t

/-- A command commutes with a change of the slot file that its run past the checks commutes with. -/
theorem guarded_mapSlots {body : State → State} (v : Verdict) (h : body (mapSlots g s) = mapSlots g (body s)) :
    guarded v body (mapSlots g s) = mapSlots g (guarded v body s) := by
  cases v with
  | reject k => rfl
  | fault n => rfl
  | pass => exact h

/-- A loop with its ends commutes with a change of the slot file that its body commutes with. -/
theorem andThen_forLoop_mapSlots {body : Nat → State → Except State State} (fail done : State → State)
    (hbody : ∀ j s, body j (mapSlots g s) = mapOut (mapSlots g) (mapSlots g) (body j s))
    (hfail : ∀ s, fail (mapSlots g s) = mapSlots g (fail s)) (hdone : ∀ s, done (mapSlots g s) = mapSlots g (done s))
    (n j : Nat) (s : State) :
    andThen (forLoop body n j (mapSlots g s)) fail done = mapSlots g (andThen (forLoop body n j s) fail done) := by
  rw [forLoop_mapOut hbody]
  exact andThen_mapOut _ hfail hdone

/-- OFB_ONESHOT does not read the slot file (R91). -/
theorem ofbOneshot_mapSlots (P : Params) (s : State) : ofbOneshot P (mapSlots g s) = mapSlots g (ofbOneshot P s) := by
  have hloop (s : State) : oneshotFrom P 0 (mapSlots g s) = mapSlots g (oneshotFrom P 0 s) :=
    andThen_forLoop_mapSlots g (oneshotFault P) (oneshotDone P) (oneshotBody_mapSlots g P) (fun _ => rfl)
      (fun _ => rfl) _ 0 s
  refine guarded_mapSlots g (oneshotCheck P s) ?_
  rw [oneshotRun, oneshotRun, oneshotBind_mapSlots]
  exact andThen_mapOut _ (fun _ => rfl) hloop

/-- PKCS1_ENCODE does not read the slot file (R98). -/
theorem pkcs1Encode_mapSlots (P : Params) (s : State) :
    pkcs1Encode P (mapSlots g s) = mapSlots g (pkcs1Encode P s) := by
  have hloop (s : State) : encodeFrom P 0 (mapSlots g s) = mapSlots g (encodeFrom P 0 s) :=
    andThen_forLoop_mapSlots g busFault encodeDone (encodeBody_mapSlots g P) (fun _ => rfl) (fun _ => rfl) _ 0 s
  refine guarded_mapSlots g (encodeCheck P s) ?_
  rw [encodeRun, encodeRun, captureDigest_mapSlots]
  exact andThen_mapOut _ (fun _ => rfl) hloop

/-- PKCS1_VERIFY does not read the slot file (R99). -/
theorem pkcs1Verify_mapSlots (P : Params) (s : State) :
    pkcs1Verify P (mapSlots g s) = mapSlots g (pkcs1Verify P s) := by
  have hloop (s : State) : verifyFrom P 0 (mapSlots g s) = mapSlots g (verifyFrom P 0 s) :=
    andThen_forLoop_mapSlots g busFault verifyDone (verifyBody_mapSlots g P) (fun _ => rfl) (fun _ => rfl) _ 0 s
  refine guarded_mapSlots g (verifyCheck P s) ?_
  rw [verifyRun, verifyRun, verifyCapture_mapSlots]
  exact andThen_mapOut _ (fun _ => rfl) hloop

/-! ### The directions -/

/-- The slot file with its directions replaced. -/
def setModes (ms : Vector Direction 15) (v : Vector Slot 15) : Vector Slot 15 :=
  Vector.zipWith (fun sl m => { sl with mode := m }) v ms

variable (ms : Vector Direction 15)

theorem withModes_eq_mapSlots (s : State) : withModes s ms = mapSlots (setModes ms) s := rfl

/-- A slot after its direction was replaced, where there is one. -/
theorem slotAt_withModes (P : Params) (s : State) (hc : c < 15) :
    slotAt P (withModes s ms) c = { slotAt P s c with mode := ms[c] } := by
  simp [slotAt, withModes, hc]

/-- The rest of a slot does not change with the directions. -/
theorem slotAt_withModes_rest (P : Params) (c : Nat) (s : State) :
    (slotAt P (withModes s ms) c).fb = (slotAt P s c).fb ∧ (slotAt P (withModes s ms) c).key = (slotAt P s c).key ∧
      (slotAt P (withModes s ms) c).state = (slotAt P s c).state := by
  by_cases hc : c < 15
  · rw [slotAt_withModes ms P s hc]
    exact ⟨rfl, rfl, rfl⟩
  · simp [slotAt, withModes, hc]

/-- A slot written after its direction was replaced: the direction written stands. -/
theorem setSlot_withModes (s : State) (c : Nat) (v : Slot) :
    setSlot (withModes s ms) c v = withModes (setSlot s c v) (ms.setIfInBounds c v.mode) := by
  have : (setModes ms s.slots).setIfInBounds c v =
      setModes (ms.setIfInBounds c v.mode) (s.slots.setIfInBounds c v) := by
    ext i hi
    by_cases hic : c = i <;> simp [setModes, hic]
  exact congrArg (fun v => { s with slots := v }) this

theorem setSlotFb_withModes (P : Params) (s : State) (c : Nat) (f : Block) :
    setSlotFb P (withModes s ms) c f = withModes (setSlotFb P s c f) ms := by
  have : (setModes ms s.slots).setIfInBounds c { slotAt P (withModes s ms) c with fb := f } =
      setModes ms (s.slots.setIfInBounds c { slotAt P s c with fb := f }) := by
    ext i hi
    by_cases hic : c = i
    · subst hic
      simp [setModes, slotAt_withModes ms P s hi]
    · simp [setModes, hic]
  exact congrArg (fun v => { s with slots := v }) this

theorem coreBody_withModes (P : Params) (c j : Nat) (s : State) :
    coreBody P c j (withModes s ms) = mapOut (withModes · ms) (withModes · ms) (coreBody P c j s) := by
  obtain ⟨hfb, hkey, -⟩ := slotAt_withModes_rest ms P c s
  unfold coreBody
  rw [hfb, hkey, withModes_eq_mapSlots, ofbBlock_mapSlots]
  cases ofbBlock P (slotAt P s c).key (slotAt P s c).fb j s with
  | error e => rfl
  | ok r => exact congrArg Except.ok (setSlotFb_withModes ms P r.2 c r.1)

theorem ofbCore_withModes (P : Params) (c : Nat) (s : State) :
    ofbCore P c (withModes s ms) = withModes (ofbCore P c s) ms := by
  have hcheck : coreCheck P c (withModes s ms) = coreCheck P c s := by
    rw [coreCheck, (slotAt_withModes_rest ms P c s).2.2]
    rfl
  rw [ofbCore, hcheck]
  exact guarded_mapSlots (setModes ms) _ (andThen_forLoop_mapSlots (setModes ms) busFault coreDone
    (coreBody_withModes ms P c) (fun _ => rfl) (fun _ => rfl) _ 0 s)

/-- Two states that differ in the slots' directions only. -/
def SameButModes (s t : State) : Prop := ∃ ms, t = withModes s ms

theorem sameButModes_guarded {body : State → State} (v : Verdict)
    (h : SameButModes (body s) (body (withModes s ms))) :
    SameButModes (guarded v body s) (guarded v body (withModes s ms)) := by
  cases v with
  | reject k => exact ⟨ms, rfl⟩
  | fault n => exact ⟨ms, rfl⟩
  | pass => exact h

theorem sameButModes_ofbInit (P : Params) (c : Nat) (s : State) :
    SameButModes (ofbInit P c s) (ofbInit P c (withModes s ms)) := by
  have hcheck : initCheck P c (withModes s ms) = initCheck P c s := by
    rw [initCheck, (slotAt_withModes_rest ms P c s).2.2]
    rfl
  rw [ofbInit, ofbInit, hcheck]
  refine sameButModes_guarded ms _ ?_
  unfold initBind
  rw [withModes_eq_mapSlots, readKeyIv_mapSlots]
  cases readKeyIv P s with
  | none => exact ⟨ms, rfl⟩
  | some r =>
    exact ⟨_, congrArg (complete · .ok) (setSlot_withModes ms r.2.2 c _)⟩

theorem sameButModes_ofbFinish (P : Params) (c : Nat) (s : State) :
    SameButModes (ofbFinish P c s) (ofbFinish P c (withModes s ms)) := by
  have hcheck : finishCheck P c (withModes s ms) = finishCheck P c s := by
    rw [finishCheck, (slotAt_withModes_rest ms P c s).2.2]
    rfl
  rw [ofbFinish, ofbFinish, hcheck]
  exact sameButModes_guarded ms _ ⟨_, congrArg (complete · .ok) (setSlot_withModes ms s c _)⟩

/-- Every command takes states that differ in the directions only to such states (R84). -/
theorem sameButModes_exec {t' : State} {i : Instr} (h : exec i s = .next t) (h' : exec i (withModes s ms) = .next t') :
    SameButModes t t' := by
  cases i <;> cases h <;> cases h'
  case ofbInit c => exact sameButModes_ofbInit ms _ c s
  case ofbCore c => exact ⟨ms, ofbCore_withModes ms _ c s⟩
  case ofbFinish c => exact sameButModes_ofbFinish ms _ c s
  case ofbOneshot x => exact ⟨ms, ofbOneshot_mapSlots (setModes ms) _ s⟩
  case pkcs1Encode x => exact ⟨ms, pkcs1Encode_mapSlots (setModes ms) _ s⟩
  case pkcs1Verify x => exact ⟨ms, pkcs1Verify_mapSlots (setModes ms) _ s⟩

/-- Settles O23: the last states differ in the directions only. -/
theorem modeIndependence : Obligations.ModeIndependence := by
  intro i s t t' ms h h'
  obtain ⟨ms', rfl⟩ := sameButModes_exec ms h h'
  exact ⟨rfl, rfl, rfl, rfl, fun c _ => slotAt_withModes_rest ms' _ c t⟩

end Sys2Proof.Machine
end

section
/-! SUPPORT. The padded block (R94) and the construction FSM that builds it byte by byte (R96). -/

namespace Sys2Proof.Machine

variable {P : Params} {dg : List Byte} {k i : Nat}

/-! ### The phases -/

/-- The index range of each phase: the table of R96. -/
def phaseRange (P : Params) (k i : Nat) : PadPhase → Prop
  | .hdr => i = 0
  | .bt => i = 1
  | .ps => 2 ≤ i ∧ i ≤ k - P.diLen - 2
  | .sep => i = k - P.diLen - 1
  | .algid => k - P.diLen ≤ i ∧ i < k - P.hashLen
  | .digest => k - P.hashLen ≤ i

theorem hashLen_le_diLen (P : Params) : P.hashLen ≤ P.diLen := Nat.le_add_left _ _

/-- An index lies in the range of its phase: the FSM's conditions, one after another. -/
theorem phaseRange_padPhase (hk : P.diLen + 11 ≤ k) : phaseRange P k i (padPhase P k i) := by
  have hle := hashLen_le_diLen P
  unfold padPhase
  split_ifs <;> simp only [phaseRange] <;> omega

/-- A phase is the phase of every index in its range: the conditions before its own fail. -/
theorem padPhase_of_phaseRange (hk : P.diLen + 11 ≤ k) {p : PadPhase} (h : phaseRange P k i p) :
    padPhase P k i = p := by
  have hle := hashLen_le_diLen P
  unfold padPhase
  cases p <;> simp only [phaseRange] at h
  case hdr => rw [if_pos h]
  case bt => rw [if_neg (by omega), if_pos h]
  case ps => rw [if_neg (by omega), if_neg (by omega), if_pos (by omega)]
  case sep => rw [if_neg (by omega), if_neg (by omega), if_neg (by omega), if_pos (by omega)]
  case algid => rw [if_neg (by omega), if_neg (by omega), if_neg (by omega), if_neg (by omega), if_pos h.2]
  case digest =>
    rw [if_neg (by omega), if_neg (by omega), if_neg (by omega), if_neg (by omega), if_neg (by omega)]

theorem padPhase_eq_iff (hk : P.diLen + 11 ≤ k) (p : PadPhase) : padPhase P k i = p ↔ phaseRange P k i p :=
  ⟨fun h => h ▸ phaseRange_padPhase hk, padPhase_of_phaseRange hk⟩

/-! ### The bytes -/

/-- The part of the padded block before its DigestInfo (R94). -/
def padFront (P : Params) (k : Nat) : List Byte := [0x00, 0x01] ++ List.replicate (k - 3 - P.diLen) 0xFF ++ [0x00]

theorem pad_eq (P : Params) (dg : List Byte) (k : Nat) : pad P dg k = padFront P k ++ (P.diPrefix ++ dg) := rfl

theorem padFront_length (hk : P.diLen + 11 ≤ k) : (padFront P k).length = k - P.diLen := by
  simp only [padFront, List.length_append, List.length_cons, List.length_nil, List.length_replicate]
  omega

theorem pad_length (hdg : dg.length = P.hashLen) (hk : P.diLen + 11 ≤ k) : (pad P dg k).length = k := by
  rw [pad_eq, List.length_append, List.length_append, padFront_length hk, hdg, ← Params.diLen]
  omega

theorem padFront_getElem?_ps (h : 2 ≤ i ∧ i ≤ k - P.diLen - 2) : (padFront P k)[i]? = some 0xFF := by
  rw [padFront, List.getElem?_append_left (by simp; omega), List.getElem?_append_right h.1, List.getElem?_replicate,
    if_pos (by simp; omega)]

theorem padFront_getElem?_sep (hk : P.diLen + 11 ≤ k) : (padFront P k)[k - P.diLen - 1]? = some 0x00 := by
  have hlen : ([0x00, 0x01] ++ List.replicate (k - 3 - P.diLen) (0xFF : Byte)).length = k - P.diLen - 1 := by
    simp
    omega
  rw [padFront, List.getElem?_append_right hlen.le, hlen, Nat.sub_self]
  rfl

theorem getElem?_eq_some_getD {l : List Byte} (h : i < l.length) : l[i]? = some (l.getD i 0) := by
  rw [List.getElem?_eq_getElem h, List.getD_eq_getElem l 0 h]

/-- The padded block, byte by byte: the range of each phase is one part of the concatenation of R94. -/
theorem pad_getElem? (hdg : dg.length = P.hashLen) (hk : P.diLen + 11 ≤ k) (hi : i < k) :
    (pad P dg k)[i]? = some (expectedByte P k dg i) := by
  have hdi : P.diLen = P.diPrefix.length + P.hashLen := rfl
  have hfront := padFront_length hk
  have hrange := phaseRange_padPhase (i := i) hk
  unfold expectedByte
  rw [pad_eq]
  cases hp : padPhase P k i <;> rw [hp] at hrange <;> simp only [phaseRange] at hrange
  case hdr => subst hrange; rfl
  case bt => subst hrange; rfl
  case ps =>
    rw [List.getElem?_append_left (by omega), padFront_getElem?_ps hrange]
  case sep =>
    rw [List.getElem?_append_left (by omega), hrange, padFront_getElem?_sep hk]
  case algid =>
    rw [List.getElem?_append_right (by omega), hfront, List.getElem?_append_left (by omega),
      getElem?_eq_some_getD (by omega)]
  case digest =>
    rw [List.getElem?_append_right (by omega), hfront, List.getElem?_append_right (by omega),
      getElem?_eq_some_getD (by omega), Nat.sub_sub, show k - P.diLen + P.diPrefix.length = k - P.hashLen by omega]

/-- Settles O41: the block's bytes and the phases' ranges. -/
theorem expectedIsPad : Obligations.ExpectedIsPad := fun _ _ _ hdg hk =>
  ⟨pad_length hdg hk, fun _ hi => ⟨pad_getElem? hdg hk hi, padPhase_eq_iff hk .hdr, padPhase_eq_iff hk .bt,
    padPhase_eq_iff hk .ps, padPhase_eq_iff hk .sep, padPhase_eq_iff hk .algid, padPhase_eq_iff hk .digest⟩⟩

/-- The padded block is what the FSM builds (R94, R96). -/
theorem pad_eq_map_expectedByte (hdg : dg.length = P.hashLen) (hk : P.diLen + 11 ≤ k) :
    pad P dg k = (List.range k).map (expectedByte P k dg) := by
  refine List.ext_getElem? fun i => ?_
  by_cases hi : i < k
  · rw [pad_getElem? hdg hk hi, List.getElem?_map, List.getElem?_range hi]
    rfl
  · rw [List.getElem?_eq_none (by rw [pad_length hdg hk]; omega), List.getElem?_eq_none (by simp; omega)]

/-- Different digests give different blocks (R94). -/
theorem eq_of_pad_eq {dg dg' : List Byte} (h : pad P dg k = pad P dg' k) : dg = dg' :=
  List.append_cancel_left (List.append_cancel_left h)

end Sys2Proof.Machine
end

section
/-! SUPPORT. The outcome of each codec command in the order of its checks (R80, R98, R99, R107, R115), and of its run
past them. -/

namespace Sys2Proof.Machine

variable {P : Params} {s : State}

/-- PKCS1_ENCODE, check by check (R98). -/
theorem pkcs1Encode_eq (P : Params) (s : State) : pkcs1Encode P s =
    if s.lat.dig = 0 then complete s .invalidInput
    else if s.lat.dst = 0 then complete s .invalidOutput
    else if lenArg s < P.diLen + 11 then complete s .invalidArg
    else if 2 ^ 32 < digAddr s + P.hashLen ∨ 2 ^ 32 < dstAddr s + lenArg s then complete s .invalidArg
    else encodeRun P s := by
  rw [pkcs1Encode, encodeCheck_eq]
  simp only [guarded_ite, guarded_reject, guarded_pass]

/-- PKCS1_VERIFY, check by check (R99). -/
theorem pkcs1Verify_eq (P : Params) (s : State) : pkcs1Verify P s =
    if s.lat.src = 0 then complete s .invalidInput
    else if lenArg s < P.diLen + 11 then complete s .invalidArg
    else if s.lat.dig = 0 then complete s .invalidInput
    else if 2 ^ 32 < srcAddr s + lenArg s ∨ 2 ^ 32 < digAddr s + P.hashLen then complete s .invalidArg
    else verifyRun P s := by
  rw [pkcs1Verify, verifyCheck_eq]
  simp only [guarded_ite, guarded_reject, guarded_pass]

theorem captureDigest_of_fails (h : accessFails P s (digAddr s) P.hashLen = true) : captureDigest P s = .error s := by
  rw [captureDigest, readBytes, if_pos h]

/-- PKCS1_ENCODE past its checks: a failing digest read leaves nothing but the bus error. -/
theorem encodeRun_outcome (P : Params) (s : State) :
    if accessFails P s (digAddr s) P.hashLen = true then encodeRun P s = raiseCmdFault s .busError
    else (encodeRun P s).code = .ok ∧ (encodeRun P s).faults = s.faults ∨
      (encodeRun P s).code = .cmdFault ∧ (encodeRun P s).faults = s.faults ||| 0b1000 := by
  split_ifs with hdig
  · rw [encodeRun, captureDigest_of_fails hdig]
    rfl
  · obtain ⟨t, ht, -, -, h⟩ := encodeRun_cases P s
    exact status_of_end (b := t) (by rw [ht]) h

theorem verifyDone_code (s : State) : (verifyDone s).code = if s.diff = 0 then .ok else .verificationFailed := rfl

theorem verifyDone_code_cases (s : State) :
    (verifyDone s).code = .ok ∨ (verifyDone s).code = .verificationFailed := by
  rw [verifyDone_code]
  exact ite_eq_or_eq _ _ _

/-- PKCS1_VERIFY past its checks: a failing digest read leaves nothing but the bus error. -/
theorem verifyRun_outcome (P : Params) (s : State) :
    if accessFails P s (digAddr s) P.hashLen = true then verifyRun P s = raiseCmdFault s .busError
    else ((verifyRun P s).code = .ok ∨ (verifyRun P s).code = .verificationFailed) ∧
        (verifyRun P s).faults = s.faults ∨
      (verifyRun P s).code = .cmdFault ∧ (verifyRun P s).faults = s.faults ||| 0b1000 := by
  split_ifs with hdig
  · rw [verifyRun, verifyCapture, captureDigest_of_fails hdig]
    rfl
  · obtain ⟨t, ht, -, h⟩ := verifyRun_cases P s
    have hfaults : t.faults = s.faults := by rw [ht]
    rcases h with h | h <;> rw [h, ← hfaults]
    · exact .inr ⟨rfl, rfl⟩
    · exact .inl ⟨verifyDone_code_cases t, rfl⟩

/-- Settles O43: check by check; past the last, the digest read and the byte loop decide. -/
theorem encodeOutcomes : Obligations.EncodeOutcomes := fun _ s =>
  ⟨_, rfl,
    outcome_ite (pkcs1Encode_eq Config.chip s) fun _ h => outcome_ite h fun _ h => outcome_ite h fun _ h =>
    outcome_ite h fun _ h => by
      rw [h]
      exact encodeRun_outcome _ s⟩

/-- Settles O45: check by check; past the last, the digest read and the byte loop decide. -/
theorem verifyOutcomes : Obligations.VerifyOutcomes := fun _ s =>
  ⟨_, rfl,
    outcome_ite (pkcs1Verify_eq Config.chip s) fun _ h => outcome_ite h fun _ h => outcome_ite h fun _ h =>
    outcome_ite h fun _ h => by
      rw [h]
      exact verifyRun_outcome _ s⟩

end Sys2Proof.Machine
end

section
/-! SUPPORT. The codec commands in the plain situation: PKCS1_ENCODE writes the padded block, PKCS1_VERIFY compares a
candidate with it, and the two agree (R94, R97 to R100, R103). -/

namespace Sys2Proof.Machine

variable {P : Params} {s t : State}

/-! ### Strings in data memory -/

theorem memString_eq_iff {m m' : Memory} {a n : Nat} :
    memString m a n = memString m' a n ↔ ∀ i < n, memGet m (a + i) = memGet m' (a + i) := by
  simp [memString]

/-- A string written to data memory is the string that is read there. -/
theorem memString_memSetBytes (m : Memory) (a : Nat) (bs : List Byte) :
    memString (memSetBytes m a bs) a bs.length = bs :=
  List.ext_getElem (by simp) fun i h _ => by
    rw [memString_getElem, memGet_memSetBytes_in _ _ _ i (by simpa using h)]

theorem memString_of_sameOutside {m m' : Memory} {a n b k : Nat} (h : SameOutside m m' b k) (hd : Disjoint a n b k) :
    memString m' a n = memString m a n :=
  memString_eq_iff.mpr fun i hi => h (a + i) (by omega)

theorem memString_memSet_out (m : Memory) {a n x : Nat} (b : Byte) (h : x < a ∨ a + n ≤ x) :
    memString (memSet m x b) a n = memString m a n :=
  memString_of_sameOutside (sameOutside_memSet m x b) (by omega)

/-- A byte of a string changes, and the string does. -/
theorem memString_memSet_ne (m : Memory) {a n x : Nat} {b : Byte} (h : a ≤ x ∧ x < a + n) (hb : b ≠ memGet m x) :
    memString (memSet m x b) a n ≠ memString m a n := by
  intro heq
  have hx := memString_eq_iff.mp heq (x - a) (by omega)
  rw [Nat.add_sub_cancel' h.1, memGet_memSet_same] at hx
  exact hb hx

theorem flip_bit_ne (x : Byte) (b : Fin 8) : x ^^^ (1#8 <<< b.val) ≠ x := by
  have hbit : ∀ b : Fin 8, 1#8 <<< b.val ≠ 0#8 := by decide
  intro h
  have := congrArg (x ^^^ ·) h
  simp only [← BitVec.xor_assoc, BitVec.xor_self, BitVec.zero_xor] at this
  exact hbit b this

/-! ### Digest capture -/

/-- The digest in data memory (R97). -/
def digestOf (P : Params) (s : State) : List Byte := memString s.mem (digAddr s) P.hashLen

/-- The padded block of the digest in data memory, for the operands of `s` (R94). -/
def paddedBlock (P : Params) (s : State) : List Byte := pad P (digestOf P s) (lenArg s)

theorem digestOf_length (P : Params) (s : State) : (digestOf P s).length = P.hashLen := memString_length _ _ _

theorem paddedBlock_length (hk : P.diLen + 11 ≤ lenArg s) : (paddedBlock P s).length = lenArg s :=
  pad_length (digestOf_length P s) hk

theorem captureDigest_quiet (hq : Quiet s) (hg : Readable P s (digAddr s) P.hashLen) :
    captureDigest P s = .ok (setDbuf s (digestOf P s)) := by
  rw [captureDigest, readBytes_quiet hq hg]
  rfl

/-! ### PKCS1_ENCODE -/

/-- The loop of PKCS1_ENCODE in the plain situation writes the padded block of the digest captured (R98). -/
theorem encodeFrom_quiet (hdg : s.dbuf.length = P.hashLen) (hk : P.diLen + 11 ≤ lenArg s) (hq : Quiet s)
    (hd : Backed P s (dstAddr s) (lenArg s)) :
    encodeFrom P 0 s = complete (setMem s (memSetBytes s.mem (dstAddr s) (pad P s.dbuf (lenArg s)))) .ok := by
  have hloop := encodeLoop_quiet (i := 0) hq hd
  simp only [Nat.zero_add] at hloop
  rw [pad_eq_map_expectedByte hdg hk, encodeFrom, Nat.sub_zero]
  exact congrArg (andThen · busFault encodeDone) hloop

/-- The premises of a plain run of PKCS1_ENCODE: its checks pass, and no access fails or is raced (R98). -/
structure EncodeReady (P : Params) (s : State) : Prop where
  dig_ne : s.lat.dig ≠ 0
  dst_ne : s.lat.dst ≠ 0
  len_ge : P.diLen + 11 ≤ lenArg s
  quiet : Quiet s
  dig_readable : Readable P s (digAddr s) P.hashLen
  dst_backed : Backed P s (dstAddr s) (lenArg s)

/-- The state in which PKCS1_ENCODE ends in the plain situation (R97, R98). -/
def encodedState (P : Params) (s : State) : State :=
  complete (setMem (setDbuf s (digestOf P s)) (memSetBytes s.mem (dstAddr s) (paddedBlock P s))) .ok

/-- A plain run of PKCS1_ENCODE (R97, R98). -/
theorem EncodeReady.eq_encodedState (h : EncodeReady P s) : pkcs1Encode P s = encodedState P s := by
  have hk := h.len_ge
  have hfit := not_overrun h.dig_readable.1 h.dst_backed P.hashLen_pos (by omega)
  rw [pkcs1Encode_eq, if_neg h.dig_ne, if_neg h.dst_ne, if_neg (by omega), if_neg hfit, encodeRun,
    captureDigest_quiet h.quiet h.dig_readable]
  exact encodeFrom_quiet (s := setDbuf s (digestOf P s)) (digestOf_length P s) hk h.quiet h.dst_backed

theorem memString_encodedState (hk : P.diLen + 11 ≤ lenArg s) :
    memString (encodedState P s).mem (dstAddr s) (lenArg s) = paddedBlock P s := by
  have h := memString_memSetBytes s.mem (dstAddr s) (paddedBlock P s)
  rwa [paddedBlock_length hk] at h

theorem sameOutside_encodedState (hk : P.diLen + 11 ≤ lenArg s) :
    SameOutside s.mem (encodedState P s).mem (dstAddr s) (lenArg s) := by
  have h := sameOutside_memSetBytes s.mem (dstAddr s) (paddedBlock P s)
  rwa [paddedBlock_length hk] at h

/-- Settles O42: the run's last state, and what a write of the block leaves in data memory. -/
theorem encodeWritesPad : Obligations.EncodeWritesPad := by
  intro x s hdig hdst hk hq hg hd
  have h := EncodeReady.eq_encodedState ⟨hdig, hdst, hk, hq, hg, hd⟩
  exact ⟨_, congrArg Host.Outcome.next h, rfl, memString_encodedState hk, sameOutside_encodedState hk⟩

/-! ### PKCS1_VERIFY -/

/-- The loop of PKCS1_VERIFY in the plain situation, from a zero accumulator, compares the candidate with the padded
block of the digest captured (R99, R100). -/
theorem verifyFrom_quiet (hdiff : s.diff = 0) (hdg : s.dbuf.length = P.hashLen) (hk : P.diLen + 11 ≤ lenArg s)
    (hq : Quiet s) (hs : Readable P s (srcAddr s) (lenArg s)) :
    ∃ d, verifyFrom P 0 s = verifyDone (setDiff s d) ∧
      (d = 0 ↔ memString s.mem (srcAddr s) (lenArg s) = pad P s.dbuf (lenArg s)) := by
  obtain ⟨d, hloop, hd⟩ := verifyLoop_quiet (i := 0) hq hs
  refine ⟨d, congrArg (andThen · busFault verifyDone) hloop, hd.trans ?_⟩
  simp [hdiff, pad_eq_map_expectedByte hdg hk, memString]

/-- The premises of a plain run of PKCS1_VERIFY: its checks pass, and no access fails or is raced (R99). -/
structure VerifyReady (P : Params) (s : State) : Prop where
  src_ne : s.lat.src ≠ 0
  len_ge : P.diLen + 11 ≤ lenArg s
  dig_ne : s.lat.dig ≠ 0
  quiet : Quiet s
  src_readable : Readable P s (srcAddr s) (lenArg s)
  dig_readable : Readable P s (digAddr s) P.hashLen

/-- A plain run of PKCS1_VERIFY: its accumulator is zero at the end exactly where the candidate is the block (R99,
R100). -/
theorem VerifyReady.eq_verifyDone (h : VerifyReady P s) :
    ∃ d, pkcs1Verify P s = verifyDone (setDiff (setDbuf s (digestOf P s)) d) ∧
      (d = 0 ↔ memString s.mem (srcAddr s) (lenArg s) = paddedBlock P s) := by
  have hk := h.len_ge
  have hfit := not_overrun h.src_readable.1 h.dig_readable.1 (by omega) P.hashLen_pos
  rw [pkcs1Verify_eq, if_neg h.src_ne, if_neg (by omega), if_neg h.dig_ne, if_neg hfit, verifyRun, verifyCapture,
    captureDigest_quiet h.quiet h.dig_readable]
  exact verifyFrom_quiet (s := setDiff (setDbuf s (digestOf P s)) 0) rfl (digestOf_length P s) hk h.quiet
    h.src_readable

theorem VerifyReady.code_eq (h : VerifyReady P s) : (pkcs1Verify P s).code =
    if memString s.mem (srcAddr s) (lenArg s) = paddedBlock P s then .ok else .verificationFailed := by
  obtain ⟨d, hrun, hd⟩ := h.eq_verifyDone
  rw [hrun, verifyDone_code]
  exact if_congr hd rfl rfl

/-- Settles O44: the run's last state, and its accumulator. -/
theorem verifyDecides : Obligations.VerifyDecides := by
  intro x s hsrc hk hdig hq hs hg
  have hready : VerifyReady Config.chip s := ⟨hsrc, hk, hdig, hq, hs, hg⟩
  obtain ⟨d, hrun, -⟩ := hready.eq_verifyDone
  refine ⟨_, rfl, ?_, ?_, ?_⟩
  · rw [hrun]
    rfl
  · rw [hrun]
    exact verifyDone_code_cases _
  · rw [hready.code_eq]
    exact ite_eq_left_iff.trans (by simp [paddedBlock, digestOf])

/-! ### Encode and verify -/

/-- The state in which PKCS1_VERIFY of the output of `s`'s PKCS1_ENCODE starts, with data memory `m` (R103). -/
def reverify (P : Params) (s : State) (m : Memory) : State :=
  { encodedState P s with lat := { s.lat with src := s.lat.dst }, mem := m }

theorem EncodeReady.verifyReady (h : EncodeReady P s) (hd : Plain s (dstAddr s) (lenArg s)) (m : Memory) :
    VerifyReady P (reverify P s m) where
  src_ne := h.dst_ne
  len_ge := h.len_ge
  dig_ne := h.dig_ne
  quiet := ⟨rfl, rfl⟩
  src_readable := ⟨h.dst_backed, hd⟩
  dig_readable := h.dig_readable

/-- What PKCS1_VERIFY of a data memory finds: the string at the output is the block of the string at the digest. -/
def Accepts (P : Params) (s : State) (m : Memory) : Prop :=
  memString m (dstAddr s) (lenArg s) = pad P (memString m (digAddr s) P.hashLen) (lenArg s)

/-- The output of PKCS1_ENCODE is accepted, where it leaves the digest as it was (R103). -/
theorem accepts_encodedState (hk : P.diLen + 11 ≤ lenArg s)
    (hdis : Disjoint (digAddr s) P.hashLen (dstAddr s) (lenArg s)) : Accepts P s (encodedState P s).mem := by
  rw [Accepts, memString_encodedState hk, memString_of_sameOutside (sameOutside_encodedState hk) hdis]
  rfl

/-- Where data memory is accepted, it is no longer with one byte of output or digest changed: the one string changes,
the other does not, and different digests have different blocks. -/
theorem not_accepts_memSet {m : Memory} {a : Nat} {b : Byte} (h : Accepts P s m)
    (hdis : Disjoint (digAddr s) P.hashLen (dstAddr s) (lenArg s)) (hb : b ≠ memGet m a)
    (ha : dstAddr s ≤ a ∧ a < dstAddr s + lenArg s ∨ digAddr s ≤ a ∧ a < digAddr s + P.hashLen) :
    ¬ Accepts P s (memSet m a b) := by
  intro h'
  unfold Accepts at h h'
  rcases ha with ha | ha
  · rw [memString_memSet_out m (a := digAddr s) b (by omega), ← h] at h'
    exact memString_memSet_ne m ha hb h'
  · rw [memString_memSet_out m (a := dstAddr s) b (by omega), h] at h'
    exact memString_memSet_ne m ha hb (eq_of_pad_eq h').symm

/-- Settles O46: PKCS1_VERIFY of the output, and of the output or the digest with one bit flipped. -/
theorem encodeVerifyAgree : Obligations.EncodeVerifyAgree := by
  intro x y s t hdig hdst hk hq hg hd hdis ht
  have hready : EncodeReady Config.chip s := ⟨hdig, hdst, hk, hq, hg, hd.1⟩
  obtain rfl : encodedState Config.chip s = t :=
    hready.eq_encodedState.symm.trans (Host.Outcome.next.inj ht)
  have haccepts := accepts_encodedState hk hdis
  refine ⟨⟨_, rfl, ?_⟩, fun a b ha => ⟨_, rfl, ?_⟩⟩
  · exact (hready.verifyReady hd.2 (encodedState Config.chip s).mem).code_eq.trans (if_pos haccepts)
  · exact (hready.verifyReady hd.2 _).code_eq.trans
      (if_neg (not_accepts_memSet haccepts hdis (flip_bit_ne _ b) ha))

end Sys2Proof.Machine
end

section
/-! SUPPORT. The moves of PKCS1_VERIFY, one per candidate byte whatever the bytes are (R99, R101). -/

namespace Sys2Proof.Machine

variable {P : Params} {s t : State}

theorem SameControl.ram (h : SameControl s t) : t.ram = s.ram := by rw [h]

theorem captureDigest_answers (h : accessFails P s (digAddr s) P.hashLen = false) :
    ∃ t, captureDigest P s = .ok t := by
  rw [captureDigest, readBytes, h]
  exact ⟨_, rfl⟩

theorem verifyCapture_answers (h : accessFails P s (digAddr s) P.hashLen = false) :
    ∃ t, verifyCapture P s = .ok t := by
  obtain ⟨t, ht⟩ := captureDigest_answers h
  rw [verifyCapture, ht]
  exact ⟨_, rfl⟩

theorem verifyBody_answers {i : Nat} (h : accessFails P s (srcAddr s + i) 1 = false) :
    ∃ t, verifyBody P i s = .ok t := by
  rw [verifyBody, readByte, h]
  exact ⟨_, rfl⟩

/-- A plain run of PKCS1_VERIFY at candidate byte `m`: no race and no bus error so far, the latched operands and the
backed regions as they were at its digest capture. -/
structure AtByte (s : State) (m : Nat) (u : State) : Prop where
  progress : u.progress = .verify m
  quiet : Quiet u
  lat : u.lat = s.lat
  ram : u.ram = s.ram

/-- A phase that answers in the plain situation, and the engine's next position. -/
theorem atByte_setProgress {u v : State} {m : Nat} (hc : SameControl u v) (hq : Quiet v) (hlat : u.lat = s.lat)
    (hram : u.ram = s.ram) : AtByte s m (setProgress v (.verify m)) where
  progress := rfl
  quiet := hq
  lat := hc.lat.trans hlat
  ram := hc.ram.trans hram

/-- The move of the digest capture (R97). -/
theorem atByte_tick_capture (hp : s.progress = .verifyDigest) (hq : Quiet s)
    (hg : Backed P s (digAddr s) P.hashLen) : AtByte s 0 (tick P s) := by
  obtain ⟨v, hv⟩ := verifyCapture_answers (accessFails_quiet hq hg)
  have hc := sameControl_verifyCapture P s
  have hqv := quiet_verifyCapture P hq
  rw [tick_verifyDigest hp, hv]
  rw [hv] at hc hqv
  exact atByte_setProgress hc hqv rfl rfl

/-- The move of candidate byte `m`: no value of the byte ends the loop (R101). -/
theorem AtByte.next {m : Nat} {u : State} (h : AtByte s m u) (hm : m < lenArg s)
    (hs : Backed P s (srcAddr s) (lenArg s)) : AtByte s (m + 1) (tick P u) := by
  have hlen : lenArg u = lenArg s := congrArg (fun o : OperandRegs => o.len.toNat) h.lat
  have hsrc : srcAddr u = srcAddr s := congrArg (fun o : OperandRegs => o.src.toNat) h.lat
  have hbyte : Backed P u (srcAddr u + m) 1 := by
    rw [Backed, h.ram, hsrc]
    exact allBacked_mono hs (by omega) (by omega)
  obtain ⟨v, hv⟩ := verifyBody_answers (accessFails_quiet h.quiet hbyte)
  have hc := sameControl_verifyBody P m u
  have hqv := quiet_verifyBody P m h.quiet
  rw [tick_verify h.progress, loopMove, if_pos (by omega), hv]
  rw [hv] at hc hqv
  exact atByte_setProgress hc hqv h.lat h.ram

/-- From the digest capture on, by induction on the candidate bytes. -/
theorem atByte_iterate_tick {m : Nat} (hp : s.progress = .verifyDigest) (hq : Quiet s)
    (hs : Backed P s (srcAddr s) (lenArg s)) (hg : Backed P s (digAddr s) P.hashLen) (hm : m ≤ lenArg s) :
    AtByte s m ((tick P)^[m + 1] s) := by
  induction m with
  | zero => exact atByte_tick_capture hp hq hg
  | succ m ih =>
    rw [Function.iterate_succ_apply']
    exact (ih (by omega)).next (by omega) hs

/-- The move after the last candidate byte ends the command (R99). -/
theorem AtByte.last_move_idle {u : State} (h : AtByte s (lenArg s) u) : (tick P u).progress = .idle := by
  have hlen : lenArg u = lenArg s := congrArg (fun o : OperandRegs => o.len.toNat) h.lat
  rw [tick_verify h.progress, loopMove, if_neg (by omega)]
  rfl

/-- Settles O58: one move for the capture, one for each candidate byte, and one for the end. -/
theorem verifyMovesFixed : Obligations.VerifyMovesFixed := by
  intro s hp hq hs hg
  refine ⟨fun m hm => (atByte_iterate_tick hp hq hs hg hm).progress, ?_⟩
  rw [Function.iterate_succ_apply']
  exact (atByte_iterate_tick hp hq hs hg (le_refl _)).last_move_idle

end Sys2Proof.Machine
end

section
/-! SUPPORT. The status in which a command ends, whatever the command (R14, R105, R106, R108, R110), and the sequence
faults among its ends (R109). -/

namespace Sys2Proof.Machine

variable {P : Params} {s t : State} {i : Instr}

/-! ### Completion -/

/-- Settles O17: a command ends with a completion or a command fault, and no phase before it touches the registers. -/
theorem everyCommandCompletes : Obligations.EveryCommandCompletes := by
  intro i s
  obtain ⟨t, ht, -⟩ := exec_cases i s
  refine ⟨t, ht, ?_⟩
  obtain ⟨b, hb, ⟨k, rfl⟩ | ⟨n, rfl⟩⟩ := exec_ends ht
  all_goals
    rw [hb]
    exact ⟨rfl, rfl, rfl, rfl, rfl, rfl, rfl, rfl, rfl, rfl, rfl, rfl⟩

/-- A code with which a check turns a command away is neither CmdFault nor VerificationFailed (R106, R107). -/
theorem code_of_verdictOk {k : StatusCode} (h : verdictOk (.reject k)) : k ≠ .cmdFault ∧ k ≠ .verificationFailed := by
  rcases h with rfl | rfl | rfl | rfl <;> exact ⟨by simp, by simp⟩

/-- Settles O20: end by end. -/
theorem faultsRecordCode7 : Obligations.FaultsRecordCode7 := by
  intro i s t h
  obtain ⟨t', ht, hcases⟩ := exec_cases i s
  obtain rfl : t' = t := by simpa [ht] using h
  rcases hcases with ⟨k, hk, rfl⟩ | rfl | ⟨b, hb, rfl | rfl | ⟨hi, rfl⟩⟩
  · obtain ⟨hfault, hverify⟩ := code_of_verdictOk hk
    exact ⟨fun h => absurd h hfault, fun _ => rfl, fun h => absurd h hverify⟩
  · exact ⟨fun _ => .inl rfl, fun h => absurd rfl h, by simp⟩
  · exact ⟨fun _ => .inr (congrArg (· ||| _) hb.faults), fun h => absurd rfl h, by simp⟩
  · exact ⟨by simp, fun _ => hb.faults, by simp⟩
  · exact ⟨by simp, fun _ => hb.faults, fun _ => hi⟩

/-! ### A command as its checks and what follows them -/

/-- The checks of a command (R80). -/
def commandCheck (P : Params) (s : State) : Instr → Verdict
  | .ofbInit c => initCheck P c s
  | .ofbCore c => coreCheck P c s
  | .ofbFinish c => finishCheck P c s
  | .ofbOneshot _ => oneshotCheck P s
  | .pkcs1Encode _ => encodeCheck P s
  | .pkcs1Verify _ => verifyCheck P s

/-- A command past its checks. -/
def commandRun (P : Params) : Instr → State → State
  | .ofbInit c => initBind P c
  | .ofbCore c => coreFrom P c 0
  | .ofbFinish c => finishZeroize P c
  | .ofbOneshot _ => oneshotRun P
  | .pkcs1Encode _ => encodeRun P
  | .pkcs1Verify _ => verifyRun P

/-- Every command is its checks, then its run (R79). -/
theorem exec_eq_guarded (i : Instr) (s : State) :
    exec i s = .next (guarded (commandCheck Config.chip s i) (commandRun Config.chip i) s) := by
  cases i <;> rfl

/-! ### Sequence faults -/

/-- A check that can only turn the command away raises no fault. -/
theorem reject_ite_eq_fault {p : Prop} [Decidable p] {k : StatusCode} {v : Verdict} {n : FaultCause} :
    (if p then Verdict.reject k else v) = .fault n ↔ ¬ p ∧ v = .fault n := by
  split_ifs <;> simp [*]

/-- The check of the slot's state raises SEQ. -/
theorem seq_ite_eq_fault {p : Prop} [Decidable p] {v : Verdict} {n : FaultCause} (h : v ≠ .fault n) :
    (if p then Verdict.fault .seq else v) = .fault n ↔ n = .seq ∧ p := by
  split_ifs <;> simp [*, eq_comm]

/-- The checks raise SEQ in exactly the cases of R109, and no other cause. -/
theorem commandCheck_eq_fault_iff {n : FaultCause} :
    commandCheck P s i = .fault n ↔ n = .seq ∧ SeqCase P s i := by
  cases i with
  | ofbInit c =>
    rw [commandCheck, initCheck_eq, reject_ite_eq_fault, seq_ite_eq_fault (by simp [reject_ite_eq_fault]), SeqCase,
      Nat.not_le, and_left_comm]
  | ofbCore c =>
    rw [commandCheck, coreCheck_eq, reject_ite_eq_fault, seq_ite_eq_fault (by simp [reject_ite_eq_fault]), SeqCase,
      Nat.not_le, and_left_comm]
  | ofbFinish c =>
    rw [commandCheck, finishCheck, reject_ite_eq_fault, seq_ite_eq_fault (by simp), SeqCase, Nat.not_le,
      and_left_comm]
  | ofbOneshot x => simp [commandCheck, SeqCase, oneshotCheck_eq, reject_ite_eq_fault]
  | pkcs1Encode x => simp [commandCheck, SeqCase, encodeCheck_eq, reject_ite_eq_fault]
  | pkcs1Verify x => simp [commandCheck, SeqCase, verifyCheck_eq, reject_ite_eq_fault]

/-- FAULTS at the end of a command that raised no SEQ: as before, or with BUS_ERROR set (R108, R110). -/
def BusFaultsOnly (s t : State) : Prop := t.faults = s.faults ∨ t.faults = s.faults ||| 0b1000

theorem busFaultsOnly_busFault {b : State} (h : b.faults = s.faults) : BusFaultsOnly s (busFault b) :=
  .inr (congrArg (· ||| _) h)

/-- A command past its checks raises nothing but BUS_ERROR (R111). -/
theorem busFaultsOnly_commandRun (P : Params) (i : Instr) (s : State) : BusFaultsOnly s (commandRun P i s) := by
  cases i with
  | ofbInit c =>
    rcases initBind_frame P c s with h | ⟨kb, iv, b, f, -, h⟩ <;> rw [commandRun, h]
    · exact busFaultsOnly_busFault rfl
    · exact .inl rfl
  | ofbCore c =>
    obtain ⟨t, ht, -, -, -, h | h⟩ := coreFrom_cases P c 0 s <;> rw [commandRun, h]
    · exact busFaultsOnly_busFault (by rw [ht])
    · exact .inl (by rw [ht]; rfl)
  | ofbFinish c => exact .inl rfl
  | ofbOneshot x =>
    obtain ⟨t, ht, -, h | h⟩ := oneshotRun_cases P s <;> rw [commandRun, h]
    · exact busFaultsOnly_busFault (by rw [ht]; rfl)
    · exact .inl (by rw [ht]; rfl)
  | pkcs1Encode x =>
    obtain ⟨t, ht, -, -, h | h⟩ := encodeRun_cases P s <;> rw [commandRun, h]
    · exact busFaultsOnly_busFault (by rw [ht])
    · exact .inl (by rw [ht]; rfl)
  | pkcs1Verify x =>
    obtain ⟨t, ht, -, h | h⟩ := verifyRun_cases P s <;> rw [commandRun, h]
    · exact busFaultsOnly_busFault (by rw [ht])
    · exact .inl (by rw [ht]; rfl)

/-- In a case of R109 a command raises SEQ, and does nothing else. -/
theorem exec_of_seqCase (h : SeqCase Config.chip s i) : exec i s = .next (raiseCmdFault s .seq) := by
  rw [exec_eq_guarded, commandCheck_eq_fault_iff.mpr ⟨rfl, h⟩, guarded_fault]

/-- In every other case it raises nothing but BUS_ERROR. -/
theorem busFaultsOnly_of_not_seqCase (hseq : ¬ SeqCase Config.chip s i) (h : exec i s = .next t) :
    BusFaultsOnly s t := by
  rw [exec_eq_guarded] at h
  cases h
  cases hv : commandCheck Config.chip s i with
  | reject k => exact .inl rfl
  | fault n => exact absurd (commandCheck_eq_fault_iff.mp hv).2 hseq
  | pass => exact busFaultsOnly_commandRun _ i s

/-- Settles O21: by whether R109 names the case. -/
theorem sequenceFaultsExactly : Obligations.SequenceFaultsExactly := by
  intro i s t h0 h
  by_cases hseq : SeqCase Config.chip s i
  · rw [exec_of_seqCase hseq] at h
    cases h
    have hfaults : s.faults ||| causeBit .seq = 0b0001 := by rw [h0]; rfl
    refine ⟨⟨fun _ => hseq, fun _ => hfaults⟩, fun _ => ?_⟩
    rw [raiseCmdFault, setFault, hfaults]
    rfl
  · refine ⟨⟨fun hone => ?_, fun h => absurd h hseq⟩, fun h => absurd h hseq⟩
    have hbus := busFaultsOnly_of_not_seqCase hseq h
    rw [BusFaultsOnly, hone, h0] at hbus
    exact absurd hbus (by decide)

end Sys2Proof.Machine
end

section
/-! SUPPORT. Bus errors on buffers that are not backed (R45, R111): which access of a command fails, and what the passes
before it have left (R81, R83, R91, R98, I5). -/

namespace Sys2Proof.Machine

variable {P : Params} {s t u : State} {c m : Nat}

/-! ### Where an access fails -/

theorem accessFails_of_not_backed {a n : Nat} (h : ¬ Backed P s a n) : accessFails P s a n = true := by
  simp [accessFails, Bool.eq_false_of_not_eq_true h]

/-- Key and IV are not read where one of their buffers is not backed. -/
theorem readKeyIv_of_not_backed (h : ¬ Backed P s (keyAddr s) P.keyBytes ∨ ¬ Backed P s (ivAddr s) 8) :
    readKeyIv P s = none := by
  rw [readKeyIv]
  cases hr : readBytes P s (keyAddr s) P.keyBytes with
  | none => rfl
  | some r =>
    obtain ⟨kb, s'⟩ := r
    obtain ⟨hkey, rfl, -, -⟩ := readBytes_some hr
    have hiv := h.resolve_left (not_not.mpr (allBacked_of_accessFails hkey))
    have hread : readBlock P (afterRead s (keyAddr s) P.keyBytes) (ivAddr s) = none :=
      if_pos (accessFails_of_not_backed (by rwa [Backed, afterRead_ram]))
    simp only [hread]

/-- The passes of a loop before the first one that fails succeed, and that one ends the loop. -/
theorem forLoop_stops {body : Nat → State → Except State State} {n j : Nat} (hm : m < n)
    (hok : forLoop body m j s = .ok u) (herr : body (j + m) u = .error t) : forLoop body n j s = .error t := by
  obtain ⟨k, rfl⟩ : ∃ k, n = m + (k + 1) := ⟨n - m - 1, by omega⟩
  rw [forLoop_add, hok]
  simp only [forLoop, herr]

/-! ### OFB_INIT -/

/-- Settles O47: every check passes, and the reads do not answer. -/
theorem initBusError : Obligations.InitBusError := by
  intro c s hc hdead hkey hiv hmode hfitk hfiti hback
  rw [exec, execOfbInit, ofbInit_eq, if_neg (by omega), if_neg hdead, if_neg (not_or.mpr ⟨hkey, hiv⟩),
    if_neg (by tauto), if_neg (by omega), initBind, readKeyIv_of_not_backed hback]
  rfl

/-! ### The block loop -/

/-- A torn output block `m` after `m` passes of the block loop, seen from the contents before the first pass: data block
`m` and output block `m` are still as they were, for buffers that are disjoint or the same (R83, R111, I5). -/
theorem tornAtBlock_of_contentAt {key : List Byte} {fb : Block} (hm : m < lenArg s / 8)
    (hbuf : DisjointOrSame (srcAddr s) (dstAddr s) (lenArg s))
    (hout : SameOutside (contentAt P key fb s m) t.mem (dstAddr s + 8 * m) 8)
    (htorn : ∀ i : Fin 8,
      memGet t.mem (dstAddr s + 8 * m + i) = memGet (contentAt P key fb s m) (dstAddr s + 8 * m + i) ∨
      memGet t.mem (dstAddr s + 8 * m + i) =
        memGet (contentAt P key fb s m) (srcAddr s + 8 * m + i) ^^^ (keystream P key fb (m + 1))[i]) :
    TornAtBlock P key fb m s t := by
  have hbefore : SameOutside s.mem (contentAt P key fb s m) (dstAddr s) (8 * m) :=
    streamFrom_outside P key (srcAddr s) (dstAddr s) m 0 s.mem fb
  refine ⟨fun j i hj => ?_, fun i => ?_, ?_⟩
  · have hget := streamFrom_get (P := P) (key := key) (n := m) (j := 0) (m := s.mem) (fb := fb)
      (show DisjointOrSame (srcAddr s + 8 * 0) (dstAddr s + 8 * 0) (8 * m) by omega) hj i.isLt
    rw [Nat.zero_add] at hget
    exact (hout _ (by omega)).trans hget
  · have hdst := hbefore (dstAddr s + 8 * m + i) (by omega)
    have hsrc := hbefore (srcAddr s + 8 * m + i) (by omega)
    rw [← hdst, ← hsrc]
    exact htorn i
  · exact sameOutside_trans (sameOutside_mono hbefore (by omega) (by omega))
      (sameOutside_mono hout (by omega) (by omega))

/-- The premises of a block loop whose block `m` is the first that is not backed (R83, R111). -/
structure StopsAt (P : Params) (m : Nat) (s : State) : Prop where
  block_lt : m < lenArg s / 8
  quiet : Quiet s
  plain : Plain s (srcAddr s) (8 * m + 8)
  src_backed : Backed P s (srcAddr s) (8 * m)
  dst_backed : Backed P s (dstAddr s) (8 * m)
  not_backed : ¬ Backed P s (srcAddr s + 8 * m) 8 ∨ ¬ Backed P s (dstAddr s + 8 * m) 8
  buffers : DisjointOrSame (srcAddr s) (dstAddr s) (lenArg s)

/-- The blocks before the one that is not backed are readable. -/
theorem StopsAt.src_readable (h : StopsAt P m s) : Readable P s (srcAddr s) (8 * m) :=
  ⟨h.src_backed, allPlain_mono h.plain (le_refl _) (by omega)⟩

/-- The pass that stops the block loop, from a state `u` that differs from `s` in what `m` passes have done. -/
theorem StopsAt.ofbBlock_torn {key : List Byte} {fb : Block} (h : StopsAt P m s) (hc : SameControl s u)
    (hq : Quiet u) (hmem : u.mem = contentAt P key fb s m) :
    ∃ e, ofbBlock P key (keystream P key fb m) m u = .error e ∧ e = { u with mem := e.mem, free := e.free } ∧
      TornAtBlock P key fb m s e := by
  have hsrc : srcAddr u = srcAddr s := by rw [hc]; rfl
  have hdst : dstAddr u = dstAddr s := by rw [hc]; rfl
  have hram : u.ram = s.ram := hc.ram
  have hvol : u.volatile = s.volatile := by rw [hc]
  obtain ⟨e, he⟩ := ofbBlock_not_backed (P := P) (ks := key) (fb := keystream P key fb m) (j := m) (s := u)
    (by rw [Backed, Backed, hsrc, hdst, hram]; exact h.not_backed)
  have hplain : Plain u (srcAddr u + 8 * m) 8 := by
    rw [Plain, hsrc, hvol]
    exact allPlain_mono h.plain (by omega) (by omega)
  obtain ⟨heq, hout, htorn⟩ := ofbBlock_error_quiet hq hplain he
  rw [hmem, hdst] at hout
  simp only [hmem, hsrc, hdst] at htorn
  exact ⟨e, he, heq, tornAtBlock_of_contentAt h.block_lt h.buffers hout htorn⟩

/-- What OFB_CORE has done after `m` plain passes (R83, R86). -/
def coreAfter (P : Params) (c m : Nat) (s : State) : State :=
  setSlotFb P (setMem s (contentAt P (slotAt P s c).key (slotAt P s c).fb s m)) c
    (keystream P (slotAt P s c).key (slotAt P s c).fb m)

theorem StopsAt.coreLoop_eq (h : StopsAt P m s) (hc : c < 15) :
    forLoop (coreBody P c) m 0 s = .ok (coreAfter P c m s) := by
  rw [coreLoop_quiet hc h.quiet h.src_readable h.dst_backed, streamFrom_fb]
  rfl

/-- OFB_CORE past its checks stops at block `m` with a bus error (R83, R111). -/
theorem StopsAt.coreFrom_eq (h : StopsAt P m s) (hc : c < 15) :
    ∃ e, coreFrom P c 0 s = busFault e ∧ e = { coreAfter P c m s with mem := e.mem, free := e.free } ∧
      TornAtBlock P (slotAt P s c).key (slotAt P s c).fb m s e := by
  obtain ⟨e, he, heq, htorn⟩ := h.ofbBlock_torn (u := coreAfter P c m s) rfl h.quiet rfl
  have hslot : slotAt P (coreAfter P c m s) c =
      { slotAt P s c with fb := keystream P (slotAt P s c).key (slotAt P s c).fb m } :=
    slotAt_setSlotFb_same P (setMem s _) _ hc
  have hbody : coreBody P c (0 + m) (coreAfter P c m s) = .error e := by
    rw [Nat.zero_add, coreBody, hslot, he]
  have hloop := forLoop_stops h.block_lt (h.coreLoop_eq hc) hbody
  exact ⟨e, congrArg (andThen · busFault coreDone) hloop, heq, htorn⟩

/-- What the block loop of OFB_ONESHOT has done after `m` plain passes (R86, R91). -/
def oneshotAfter (P : Params) (m : Nat) (s : State) : State :=
  setScratch (setMem s (contentAt P s.scratch.key s.scratch.fb s m))
    { s.scratch with fb := keystream P s.scratch.key s.scratch.fb m }

theorem StopsAt.oneshotLoop_eq (h : StopsAt P m s) :
    forLoop (oneshotBody P) m 0 s = .ok (oneshotAfter P m s) := by
  rw [oneshotLoop_quiet h.quiet h.src_readable h.dst_backed, streamFrom_fb]
  rfl

/-- OFB_ONESHOT stops at block `m` with a bus error, from what the scratch context holds (R91, R111). -/
theorem StopsAt.oneshotFrom_eq (h : StopsAt P m s) :
    ∃ e, oneshotFrom P 0 s = oneshotFault P e ∧ e = { oneshotAfter P m s with mem := e.mem, free := e.free } ∧
      TornAtBlock P s.scratch.key s.scratch.fb m s e := by
  obtain ⟨e, he, heq, htorn⟩ := h.ofbBlock_torn (u := oneshotAfter P m s) rfl h.quiet rfl
  have hscratch : (oneshotAfter P m s).scratch =
      { s.scratch with fb := keystream P s.scratch.key s.scratch.fb m } := rfl
  have hbody : oneshotBody P (0 + m) (oneshotAfter P m s) = .error e := by
    rw [Nat.zero_add, oneshotBody, hscratch, he]
  have hloop := forLoop_stops h.block_lt h.oneshotLoop_eq hbody
  exact ⟨e, congrArg (andThen · (oneshotFault P) (oneshotDone P)) hloop, heq, htorn⟩

/-- OFB_ONESHOT past its checks, key and IV read from memory, stops at block `m` with a bus error (R91, R111). -/
theorem StopsAt.oneshotRun_eq (h : StopsAt P m s) (hk : Readable P s (keyAddr s) P.keyBytes)
    (hi : Readable P s (ivAddr s) 8) :
    ∃ e, oneshotRun P s = oneshotFault P e ∧
      e = { s with mem := e.mem, scratch := e.scratch, free := e.free } ∧
      TornAtBlock P (memString s.mem (keyAddr s) P.keyBytes) (memBlock s.mem (ivAddr s)) m s e := by
  rw [oneshotRun, oneshotBind, readKeyIv_quiet h.quiet hk hi]
  obtain ⟨e, he, heq, htorn⟩ := StopsAt.oneshotFrom_eq (P := P) (m := m)
    (s := setScratch s { key := memString s.mem (keyAddr s) P.keyBytes, fb := memBlock s.mem (ivAddr s) })
    ⟨h.block_lt, h.quiet, h.plain, h.src_backed, h.dst_backed, h.not_backed, h.buffers⟩
  refine ⟨e, he, ?_, htorn⟩
  rw [heq]
  rfl

/-- Settles O48: the passes before block `m` are plain, and the pass at block `m` tears its output block. -/
theorem coreBusError : Obligations.CoreBusError := by
  refine ⟨fun c m s hc hlive hsrc hdst hlen hmod hfits hfitd hq hm hp hbs hbd hnb hbuf => ?_,
    fun x m s hkey hiv hmode hsrc hdst hlen hmod hfits hfitd hq hm hk hi hp hbs hbd hnb hbuf => ?_⟩
  · have hc15 := lt_fifteen hc
    obtain ⟨e, he, heq, htorn⟩ := StopsAt.coreFrom_eq ⟨hm, hq, hp, hbs, hbd, hnb, hbuf⟩ hc15
    refine ⟨busFault e, ?_, ?_, htorn, ?_, fun d hdc => ?_⟩
    · rw [exec, execOfbCore, ofbCore_eq, if_neg (by omega), if_neg (not_not.mpr hlive), if_neg hsrc, if_neg hdst,
        if_neg (by omega), if_neg (by omega), he]
    · rw [heq]
      rfl
    · rw [heq]
      exact slotAt_setSlotFb_same _ (setMem s _) _ hc15
    · rw [heq]
      exact slotAt_setSlotFb_other _ (setMem s _) _ hdc
  · obtain ⟨e, he, heq, htorn⟩ := StopsAt.oneshotRun_eq ⟨hm, hq, hp, hbs, hbd, hnb, hbuf⟩ hk hi
    have hfit := not_overrun hk.1 hi.1 Config.chip.keyBytes_pos (by omega)
    refine ⟨oneshotFault Config.chip e, ?_, ?_, htorn⟩
    · rw [exec, execOfbOneshot, ofbOneshot_eq, if_neg (not_or.mpr ⟨hkey, hiv⟩), if_neg (by tauto), if_neg hfit,
        if_neg hsrc, if_neg hdst, if_neg (by omega), if_neg (by omega), he]
    · rw [heq]
      rfl

/-! ### PKCS1_ENCODE -/

/-- The first bytes of the padded block, as the FSM builds them (R96). -/
theorem take_pad {dg : List Byte} {k : Nat} (hdg : dg.length = P.hashLen) (hk : P.diLen + 11 ≤ k) (hm : m ≤ k) :
    (pad P dg k).take m = (List.range m).map (expectedByte P k dg) := by
  rw [pad_eq_map_expectedByte hdg hk, ← List.map_take, List.take_range, Nat.min_eq_left hm]

/-- The loop of PKCS1_ENCODE stops at the first byte that is not backed, with the bytes before it written (R98, I5). -/
theorem encodeFrom_of_not_backed (hdg : s.dbuf.length = P.hashLen) (hk : P.diLen + 11 ≤ lenArg s) (hq : Quiet s)
    (hm : m < lenArg s) (hd : Backed P s (dstAddr s) m) (hnb : ¬ Backed P s (dstAddr s + m) 1) :
    encodeFrom P 0 s =
      busFault (setMem s (memSetBytes s.mem (dstAddr s) ((pad P s.dbuf (lenArg s)).take m))) := by
  have hloop := encodeLoop_quiet (i := 0) hq hd
  simp only [Nat.zero_add] at hloop
  rw [take_pad hdg hk (by omega)]
  exact congrArg (andThen · busFault encodeDone) (forLoop_stops hm hloop (by
    rw [Nat.zero_add]
    exact if_pos (accessFails_of_not_backed hnb)))

/-- Settles O49: the bytes before byte `m` are written plainly, and the write of byte `m` leaves it as it is. -/
theorem encodeBusError : Obligations.EncodeBusError := by
  intro x m s hdig hdst hk hfitg hfitd hq hm hg hd hnb
  have hlen : ((paddedBlock Config.chip s).take m).length = m := by
    rw [List.length_take, paddedBlock_length hk, Nat.min_eq_left (by omega)]
  have hrun : pkcs1Encode Config.chip s = busFault (setMem (setDbuf s (digestOf Config.chip s))
      (memSetBytes s.mem (dstAddr s) ((paddedBlock Config.chip s).take m))) := by
    rw [pkcs1Encode_eq, if_neg hdig, if_neg hdst, if_neg (by omega), if_neg (by omega), encodeRun,
      captureDigest_quiet hq hg]
    exact encodeFrom_of_not_backed (s := setDbuf s (digestOf Config.chip s)) (digestOf_length _ s) hk hq hm hd hnb
  refine ⟨_, congrArg Host.Outcome.next hrun, rfl, rfl, ?_, ?_⟩
  · have h := memString_memSetBytes s.mem (dstAddr s) ((paddedBlock Config.chip s).take m)
    rwa [hlen] at h
  · have h := sameOutside_memSetBytes s.mem (dstAddr s) ((paddedBlock Config.chip s).take m)
    rwa [hlen] at h

end Sys2Proof.Machine
end

section
/-! SUPPORT. Steps of a block that lost its power (R125, R128, I7). -/

namespace Sys2Proof.Machine

variable {s : State}

theorem step_unpowered_no_event (hp : s.powered = false) (henv : s.env = []) : step s = .fault .notReset := by
  simp [step, move, henv, hp]

/-- The step of a block without power that takes an event. -/
theorem step_unpowered_event {e : Event} {rest : List Event} (hp : s.powered = false) (henv : s.env = e :: rest) :
    step s = onEventUnpowered Config.chip e { s with env := rest } := by
  simp [step, move, henv, hp]

/-- Without power, an event other than a reset or a loss of power stops the machine (I7). -/
theorem onEventUnpowered_stops (P : Params) {e : Event} (s : State) (hreset : e ≠ .reset) (hloss : e ≠ .powerLoss) :
    onEventUnpowered P e s = .fault .notReset := by
  cases e with
  | reset => exact absurd rfl hreset
  | powerLoss => exact absurd rfl hloss
  | host op => rfl
  | run => rfl
  | tick => rfl
  | busError n => rfl

theorem losePower_env (P : Params) (s : State) : (losePower P s).env = s.env := by
  unfold losePower abandon
  split <;> rfl

/-- Settles O52: what a loss of power and a reset do, and nothing else is a step between them. -/
theorem noStepBeforeReset : Obligations.NoStepBeforeReset := by
  refine ⟨fun s rest hp henv => ?_, fun s => step_unpowered_no_event, fun s e rest hp henv hreset hloss => ?_,
    fun s rest _ henv => ⟨_, step_reset henv, rfl⟩⟩
  · exact ⟨_, step_event hp henv, rfl, losePower_env _ _⟩
  · rw [step_unpowered_event hp henv]
    exact onEventUnpowered_stops _ _ hreset hloss

end Sys2Proof.Machine
end
